-- ==== Sys2Proof/Word.lean ====
section
/-! DEFINITION. The word and byte types of the ARCE ray-cast core (30_encoding.md R80, 20_memory.md R61). -/

namespace Sys2Proof

/-- A command, response or draw-record word, and an external-memory address: 32 bits, bit 0 the
least significant (00_scope.md R8, 30_encoding.md R81, 20_memory.md R61). -/
abbrev Word := BitVec 32

/-- One byte of external memory (20_memory.md R61). -/
abbrev Byte := BitVec 8

end Sys2Proof
end

