-- ==== Sys2Proof/Syntax.lean ====
section
/-! DEFINITION. The syntax of the command set: the register names an operand can give
(10_state.md R20) and the 26 commands of the opcode table (30_encoding.md R88). -/

namespace Sys2Proof

/-- The 58 registers of 10_state.md R25 to R37, in the order of their indices. -/
inductive Reg where
  /-- `PX`, index 0x00 (R25). -/
  | px
  /-- `PY`, index 0x01 (R25). -/
  | py
  /-- `ANGLE`, index 0x02 (R25). -/
  | angle
  /-- `RAY`, index 0x03 (R25). -/
  | ray
  /-- `MODE`, index 0x04 (R25). -/
  | mode
  /-- `LMBASE`, index 0x05 (R26). -/
  | lmbase
  /-- `LMW`, index 0x06 (R26). -/
  | lmw
  /-- `LMH`, index 0x07 (R26). -/
  | lmh
  /-- `TEXCNT`, index 0x08 (R27). -/
  | texcnt
  /-- `TDATA`, index 0x09 (R27). -/
  | tdata
  /-- `TXBASE`, index 0x0A (R29). -/
  | txbase
  /-- `TXW`, index 0x0B (R29). -/
  | txw
  /-- `TXH`, index 0x0C (R29). -/
  | txh
  /-- `TXX`, index 0x0D (R29). -/
  | txx
  /-- `TXY`, index 0x0E (R29). -/
  | txy
  /-- `ANGN`, index 0x10 (R30). -/
  | angn
  /-- `QUAD`, index 0x11 (R30). -/
  | quad
  /-- `COSM`, index 0x12 (R30). -/
  | cosm
  /-- `SINM`, index 0x13 (R30). -/
  | sinm
  /-- `TANV`, index 0x14 (R30). -/
  | tanv
  /-- `TANH`, index 0x15 (R30). -/
  | tanh
  /-- `DFLAGS`, index 0x16 (R30). -/
  | dflags
  /-- `VFOUND`, index 0x18 (R32). -/
  | vfound
  /-- `LENV`, index 0x19 (R32). -/
  | lenv
  /-- `VX`, index 0x1A (R32). -/
  | vx
  /-- `VY`, index 0x1B (R32). -/
  | vy
  /-- `VTYPE`, index 0x1C (R32). -/
  | vtype
  /-- `HFOUND`, index 0x20 (R33). -/
  | hfound
  /-- `LENH`, index 0x21 (R33). -/
  | lenh
  /-- `HX`, index 0x22 (R33). -/
  | hx
  /-- `HY`, index 0x23 (R33). -/
  | hy
  /-- `HTYPE`, index 0x24 (R33). -/
  | htype
  /-- `HIT`, index 0x28 (R34). -/
  | hit
  /-- `SIDE`, index 0x29 (R34). -/
  | side
  /-- `DIST`, index 0x2A (R34). -/
  | dist
  /-- `BTYPE`, index 0x2B (R34). -/
  | btype
  /-- `HITX`, index 0x2C (R34). -/
  | hitx
  /-- `HITY`, index 0x2D (R34). -/
  | hity
  /-- `SAMPLE`, index 0x2E (R34). -/
  | sample
  /-- `ORIENT`, index 0x2F (R34). -/
  | orient
  /-- `CORR`, index 0x30 (R35). -/
  | corr
  /-- `HEIGHT`, index 0x31 (R35). -/
  | height
  /-- `COL0`, index 0x32 (R35). -/
  | col0
  /-- `YTOP`, index 0x33 (R35). -/
  | ytop
  /-- `Y0`, index 0x34 (R35). -/
  | y0
  /-- `Y1`, index 0x35 (R35). -/
  | y1
  /-- `TSTEP`, index 0x36 (R35). -/
  | tstep
  /-- `TROWR`, index 0x37 (R35). -/
  | trowr
  /-- `TXBIT`, index 0x38 (R35). -/
  | txbit
  /-- `TRIG`, index 0x39 (R35). -/
  | trig
  /-- `STATUS`, index 0x3C (R36). -/
  | status
  /-- `FCAUSE`, index 0x3D (R36). -/
  | fcause
  /-- `FINFO`, index 0x3E (R36). -/
  | finfo
  /-- `MAPBASE`, index 0x40 (R37). -/
  | mapbase
  /-- `MAPW`, index 0x41 (R37). -/
  | mapw
  /-- `MAPH`, index 0x42 (R37). -/
  | maph
  /-- `WORLDW`, index 0x43 (R37). -/
  | worldw
  /-- `WORLDH`, index 0x44 (R37). -/
  | worldh
  deriving DecidableEq, Repr

/-- Every register once, in index order. -/
def Reg.all : List Reg :=
  [.px, .py, .angle, .ray, .mode, .lmbase, .lmw, .lmh, .texcnt, .tdata,
   .txbase, .txw, .txh, .txx, .txy, .angn, .quad, .cosm, .sinm, .tanv,
   .tanh, .dflags, .vfound, .lenv, .vx, .vy, .vtype, .hfound, .lenh, .hx,
   .hy, .htype, .hit, .side, .dist, .btype, .hitx, .hity, .sample, .orient,
   .corr, .height, .col0, .ytop, .y0, .y1, .tstep, .trowr, .txbit, .trig,
   .status, .fcause, .finfo, .mapbase, .mapw, .maph, .worldw, .worldh]

/-- `RO` registers: the host cannot write them (10_state.md R36, R37, 60_exceptions.md R229). -/
def Reg.readOnly : Reg → Bool
  | .status | .fcause | .finfo | .mapbase | .mapw | .maph | .worldw | .worldh => true
  | _ => false

/-- The 26 commands, one constructor per row of the opcode table (30_encoding.md R88). Register,
slot and immediate operands are those of 30_encoding.md R83 to R87. -/
inductive Instr where
  /-- `NOP`, R205: does nothing. -/
  | nop
  /-- `WRL`, R206: write a 16-bit value, upper half cleared. -/
  | wrl (r : Reg) (imm : BitVec 16)
  /-- `WRH`, R207: write the upper 16 bits, lower 16 kept. -/
  | wrh (r : Reg) (imm : BitVec 16)
  /-- `RD`, R208: send a register to the host. -/
  | rd (r : Reg)
  /-- `LOADMAP`, R209: world map load. -/
  | loadmap
  /-- `SETTEX`, R210: write a texture pointer. -/
  | settex (slot : BitVec 8)
  /-- `GETTEX`, R211: send a texture pointer to the host. -/
  | gettex (slot : BitVec 8)
  /-- `SRST`, R212: soft reset. -/
  | srst
  /-- `COS16`, R104: 16-scale cosine. -/
  | cos16 (imm : BitVec 16)
  /-- `SIN16`, R105: 16-scale sine. -/
  | sin16 (imm : BitVec 16)
  /-- `COS128`, R106: 128-scale cosine of one quadrant. -/
  | cos128 (imm : BitVec 16)
  /-- `NORM`, R107: normalise the ray angle. -/
  | norm
  /-- `DECOMP`, R121: decompose the normalised angle. -/
  | decomp
  /-- `VSRCH`, R143: vertical-line search. -/
  | vsrch
  /-- `HSRCH`, R144: horizontal-line search. -/
  | hsrch
  /-- `SELECT`, R146: choose the hit, compute the sample column. -/
  | select
  /-- `CAST`, R148: NORM; DECOMP; VSRCH; HSRCH; SELECT. -/
  | cast
  /-- `FISH`, R161: fish-eye correction. -/
  | fish
  /-- `PROJ`, R162: projected slice height. -/
  | proj
  /-- `SPAN`, R163: column pair and vertical span. -/
  | span
  /-- `TSTEP`, R164: texture rows per screen row. -/
  | tstep
  /-- `TROW`, R165: texture row of one screen row. -/
  | trow (imm : BitVec 16)
  /-- `TEXEL`, R198: one texel of any packed bitmap. -/
  | texel
  /-- `WTEXEL`, R199: the wall texel of the current hit. -/
  | wtexel
  /-- `DRAW`, R184: draw events of the current hit. -/
  | draw
  /-- `RAY`, R187: CAST; DRAW. -/
  | ray
  deriving DecidableEq, Repr

end Sys2Proof
end

