-- ==== Sys2Proof/WellFormed.lean ====
section
/-! DEFINITION. Well-formedness of a command: what the types of the operands do not already say. -/

namespace Sys2Proof

/-- A command that can be encoded as a legal command word. Immediates, slots and register names are
legal by their types; the one further condition is that a host write names a writable register
(30_encoding.md R89 step 5). -/
def Instr.wellFormed : Instr → Bool
  | .wrl r _ => !r.readOnly
  | .wrh r _ => !r.readOnly
  | .nop | .rd _ | .loadmap | .settex _ | .gettex _ | .srst => true
  | .cos16 _ | .sin16 _ | .cos128 _ | .norm | .decomp => true
  | .vsrch | .hsrch | .select | .cast => true
  | .fish | .proj | .span | .tstep | .trow _ => true
  | .texel | .wtexel | .draw | .ray => true

end Sys2Proof
end

