-- ==== Sys2Proof/Decode.lean ====
section
/-! DEFINITION. The command encoding (30_encoding.md): the decoder, total on every 32-bit word and
refusing by name, and the encoder. -/

namespace Sys2Proof

/-- The 8-bit index of a register (10_state.md R20, R25 to R37). -/
def Reg.index : Reg → BitVec 8
  | .px => 0x00
  | .py => 0x01
  | .angle => 0x02
  | .ray => 0x03
  | .mode => 0x04
  | .lmbase => 0x05
  | .lmw => 0x06
  | .lmh => 0x07
  | .texcnt => 0x08
  | .tdata => 0x09
  | .txbase => 0x0A
  | .txw => 0x0B
  | .txh => 0x0C
  | .txx => 0x0D
  | .txy => 0x0E
  | .angn => 0x10
  | .quad => 0x11
  | .cosm => 0x12
  | .sinm => 0x13
  | .tanv => 0x14
  | .tanh => 0x15
  | .dflags => 0x16
  | .vfound => 0x18
  | .lenv => 0x19
  | .vx => 0x1A
  | .vy => 0x1B
  | .vtype => 0x1C
  | .hfound => 0x20
  | .lenh => 0x21
  | .hx => 0x22
  | .hy => 0x23
  | .htype => 0x24
  | .hit => 0x28
  | .side => 0x29
  | .dist => 0x2A
  | .btype => 0x2B
  | .hitx => 0x2C
  | .hity => 0x2D
  | .sample => 0x2E
  | .orient => 0x2F
  | .corr => 0x30
  | .height => 0x31
  | .col0 => 0x32
  | .ytop => 0x33
  | .y0 => 0x34
  | .y1 => 0x35
  | .tstep => 0x36
  | .trowr => 0x37
  | .txbit => 0x38
  | .trig => 0x39
  | .status => 0x3C
  | .fcause => 0x3D
  | .finfo => 0x3E
  | .mapbase => 0x40
  | .mapw => 0x41
  | .maph => 0x42
  | .worldw => 0x43
  | .worldh => 0x44

/-- The register whose index is `i`, if there is one (30_encoding.md R87 (e), 10_state.md R23). -/
def Reg.ofIndex (i : BitVec 8) : Option Reg :=
  Reg.all.find? (fun r => r.index == i)

/-- `OP = W[31:24]` (30_encoding.md R82). -/
def opField (w : Word) : BitVec 8 := w.extractLsb' 24 8

/-- `A = W[23:16]` (30_encoding.md R82). -/
def aField (w : Word) : BitVec 8 := w.extractLsb' 16 8

/-- `IMM = W[15:0]` (30_encoding.md R82). -/
def immField (w : Word) : BitVec 16 := w.extractLsb' 0 16

/-- The texture slot `W[7:0]` of format S (30_encoding.md R86). -/
def slotField (w : Word) : BitVec 8 := w.extractLsb' 0 8

/-- Why a word is not a command, in the order the decoder tests (30_encoding.md R89). -/
inductive DecodeError where
  /-- Step 2: `OP` is not one of the 26 assigned opcodes. -/
  | unassignedOpcode
  /-- Step 3: a must-be-zero field is not zero. -/
  | mustBeZero
  /-- Step 4: `A` is not the index of a register. -/
  | noSuchRegister
  /-- Step 5: a host write to an `RO` register. -/
  | readOnlyRegister
  deriving DecidableEq, Repr

/-- Format N (30_encoding.md R83): `W[23:0] = 0`. -/
def decodeN (w : Word) (i : Instr) : Except DecodeError Instr :=
  if w.extractLsb' 0 24 = 0 then .ok i else .error .mustBeZero

/-- Format I (30_encoding.md R84): `W[23:16] = 0`, the immediate is `W[15:0]`. -/
def decodeI (w : Word) (i : BitVec 16 → Instr) : Except DecodeError Instr :=
  if aField w = 0 then .ok (i (immField w)) else .error .mustBeZero

/-- Format S (30_encoding.md R86): `W[23:8] = 0`, the slot is `W[7:0]`. -/
def decodeS (w : Word) (i : BitVec 8 → Instr) : Except DecodeError Instr :=
  if w.extractLsb' 8 16 = 0 then .ok (i (slotField w)) else .error .mustBeZero

/-- Format R for the host writes `WRL`, `WRH` (30_encoding.md R85, R89 steps 4 and 5). -/
def decodeWrite (w : Word) (i : Reg → BitVec 16 → Instr) : Except DecodeError Instr :=
  match Reg.ofIndex (aField w) with
  | none => .error .noSuchRegister
  | some r => if r.readOnly then .error .readOnlyRegister else .ok (i r (immField w))

/-- Format R for `RD` (30_encoding.md R85, R89 steps 3 and 4): `IMM` must be 0. -/
def decodeRead (w : Word) (i : Reg → Instr) : Except DecodeError Instr :=
  if immField w = 0 then
    match Reg.ofIndex (aField w) with
    | none => .error .noSuchRegister
    | some r => .ok (i r)
  else .error .mustBeZero

/-- Steps 2 to 5 of 30_encoding.md R89 with the opcode map of R88. Step 1, the drop while
`STATUS.F = 1`, is the command port's (Machine/CommandPort.lean). -/
def decode (w : Word) : Except DecodeError Instr :=
  match (opField w).toNat with
  | 0x00 => decodeN w .nop
  | 0x01 => decodeWrite w .wrl
  | 0x02 => decodeWrite w .wrh
  | 0x03 => decodeRead w .rd
  | 0x04 => decodeN w .loadmap
  | 0x05 => decodeS w .settex
  | 0x06 => decodeS w .gettex
  | 0x07 => decodeN w .srst
  | 0x10 => decodeI w .cos16
  | 0x11 => decodeI w .sin16
  | 0x12 => decodeI w .cos128
  | 0x13 => decodeN w .norm
  | 0x20 => decodeN w .decomp
  | 0x30 => decodeN w .vsrch
  | 0x31 => decodeN w .hsrch
  | 0x32 => decodeN w .select
  | 0x33 => decodeN w .cast
  | 0x40 => decodeN w .fish
  | 0x41 => decodeN w .proj
  | 0x42 => decodeN w .span
  | 0x43 => decodeN w .tstep
  | 0x44 => decodeI w .trow
  | 0x50 => decodeN w .texel
  | 0x51 => decodeN w .wtexel
  | 0x60 => decodeN w .draw
  | 0x61 => decodeN w .ray
  | _ => .error .unassignedOpcode

/-- The opcode of a command (30_encoding.md R88). -/
def Instr.opcode : Instr → BitVec 8
  | .nop => 0x00
  | .wrl _ _ => 0x01
  | .wrh _ _ => 0x02
  | .rd _ => 0x03
  | .loadmap => 0x04
  | .settex _ => 0x05
  | .gettex _ => 0x06
  | .srst => 0x07
  | .cos16 _ => 0x10
  | .sin16 _ => 0x11
  | .cos128 _ => 0x12
  | .norm => 0x13
  | .decomp => 0x20
  | .vsrch => 0x30
  | .hsrch => 0x31
  | .select => 0x32
  | .cast => 0x33
  | .fish => 0x40
  | .proj => 0x41
  | .span => 0x42
  | .tstep => 0x43
  | .trow _ => 0x44
  | .texel => 0x50
  | .wtexel => 0x51
  | .draw => 0x60
  | .ray => 0x61

/-- The field `A` of a command: its register's index in format R, zero in every other format
(30_encoding.md R82). -/
def Instr.aOperand : Instr → BitVec 8
  | .wrl r _ | .wrh r _ | .rd r => r.index
  | .nop | .loadmap | .settex _ | .gettex _ | .srst | .cos16 _ | .sin16 _ | .cos128 _ | .norm | .decomp | .vsrch | .hsrch | .select | .cast | .fish | .proj | .span | .tstep | .trow _ | .texel | .wtexel | .draw | .ray => 0

/-- The field `IMM` of a command: immediate data, or a slot in its low byte, or zero
(30_encoding.md R82 to R87). -/
def Instr.immOperand : Instr → BitVec 16
  | .wrl _ imm | .wrh _ imm => imm
  | .cos16 imm | .sin16 imm | .cos128 imm | .trow imm => imm
  | .settex slot | .gettex slot => slot.setWidth 16
  | .nop | .rd _ | .loadmap | .srst | .norm | .decomp | .vsrch | .hsrch | .select | .cast | .fish | .proj | .span | .tstep | .texel | .wtexel | .draw | .ray => 0

/-- The command word with the three fields of 30_encoding.md R82. -/
def commandWord (op a : BitVec 8) (imm : BitVec 16) : Word := op ++ a ++ imm

/-- The word of a command (30_encoding.md R82 to R88). -/
def encode (i : Instr) : Word := commandWord i.opcode i.aOperand i.immOperand

/-- The command the decoder reads from a word of `nbits` bits whose value is `w`, bit 0 the least
significant; command words are whole 32-bit values, never split into bytes (30_encoding.md R81).
A value that does not fit 32 bits is no command word. -/
def decodeTableWord (nbits w : Nat) : Option Instr :=
  if w % 2 ^ nbits < 2 ^ 32 then (decode (BitVec.ofNat 32 (w % 2 ^ nbits))).toOption else none

end Sys2Proof
end

