-- ==== Sys2Proof/Config.lean ====
section
/-! DEFINITION. The build parameters of the block (00_scope.md R7). -/

namespace Sys2Proof

/-- A run of byte addresses that the platform's memory answers: `size` bytes from `base`. -/
structure MemRange where
  /-- The first address. -/
  base : Nat
  /-- How many addresses. -/
  size : Nat
  deriving DecidableEq, Repr

/-- The build-time parameters of 00_scope.md R7: constants of one build, passed to every rule as a
configuration argument. `TEXSIZE` is derived (`Config.texSize`, Machine/Operands.lean). -/
structure Config where
  /-- `BS_LOG2`: log2 of the block size. -/
  bsLog2 : Nat
  /-- `TEX_SHIFT`: right shift from an offset inside a block to a texture column. -/
  texShift : Nat
  /-- `TEXFP`: fraction bits of the texture-row step. -/
  texFp : Nat
  /-- `PROJ_CONST`: slice height times corrected distance. -/
  projConst : Nat
  /-- `CENTER_RAY`: ray index of the view's centre column. -/
  centerRay : Nat
  /-- `SCREEN_H`: number of visible display rows. -/
  screenH : Nat
  /-- `N_RAYS`: rays per frame; read by no rule of the block. -/
  nRays : Nat
  /-- `MemValid`: the byte addresses the platform's memory answers, as a list of ranges
  (20_memory.md R67). -/
  memValid : List MemRange
  deriving DecidableEq, Repr

/-- The legal ranges of 00_scope.md R7. -/
abbrev Config.Legal (c : Config) : Prop :=
  c.bsLog2 ≤ 8 ∧ c.texShift ≤ c.bsLog2 ∧ c.texFp ≤ 16 ∧
  (1 ≤ c.projConst ∧ c.projConst ≤ 2 ^ 31 - 1) ∧ c.centerRay ≤ 255 ∧
  (1 ≤ c.screenH ∧ c.screenH ≤ 65535) ∧ (1 ≤ c.nRays ∧ c.nRays ≤ 256) ∧
  ∀ r ∈ c.memValid, r.base + r.size ≤ 2 ^ 32

/-- The reference configuration `REFCFG` of 00_scope.md R7. It leaves `MemValid` to each vector; here
every address is answered (20_memory.md R67; log entry 2). -/
def Config.refcfg : Config where
  bsLog2 := 6
  texShift := 1
  texFp := 8
  projConst := 4096
  centerRay := 32
  screenH := 64
  nRays := 64
  memValid := [⟨0, 2 ^ 32⟩]

end Sys2Proof
end

