-- ==== Sys2Proof/Machine/State.lean ====
section
/-! DEFINITION. The state of the machine (10_state.md), what the ports carry, and the state after
reset (70_reset_and_hazards.md R250). -/

namespace Sys2Proof.Machine

/-- The register file (10_state.md R20): one field of the stated width per register. Reading and
writing go through `Regs.get` and `Regs.put` (Machine/Registers.lean), which hold each register's
signedness. -/
structure Regs where
  /-- `PX`, unsigned, RW (R25). -/
  px : BitVec 16
  /-- `PY`, unsigned, RW (R25). -/
  py : BitVec 16
  /-- `ANGLE`, signed, RW (R25). -/
  angle : BitVec 16
  /-- `RAY`, unsigned, RW (R25). -/
  ray : BitVec 8
  /-- `MODE`, unsigned, RW (R25). -/
  mode : BitVec 2
  /-- `LMBASE`, unsigned, RW (R26). -/
  lmbase : BitVec 32
  /-- `LMW`, unsigned, RW (R26). -/
  lmw : BitVec 8
  /-- `LMH`, unsigned, RW (R26). -/
  lmh : BitVec 8
  /-- `TEXCNT`, unsigned, RW (R27). -/
  texcnt : BitVec 9
  /-- `TDATA`, unsigned, RW (R27). -/
  tdata : BitVec 32
  /-- `TXBASE`, unsigned, RW (R29). -/
  txbase : BitVec 32
  /-- `TXW`, unsigned, RW (R29). -/
  txw : BitVec 16
  /-- `TXH`, unsigned, RW (R29). -/
  txh : BitVec 16
  /-- `TXX`, unsigned, RW (R29). -/
  txx : BitVec 16
  /-- `TXY`, unsigned, RW (R29). -/
  txy : BitVec 16
  /-- `ANGN`, unsigned, RW (R30). -/
  angn : BitVec 9
  /-- `QUAD`, unsigned, RW (R30). -/
  quad : BitVec 2
  /-- `COSM`, unsigned, RW (R30). -/
  cosm : BitVec 8
  /-- `SINM`, unsigned, RW (R30). -/
  sinm : BitVec 8
  /-- `TANV`, unsigned, RW (R30). -/
  tanv : BitVec 32
  /-- `TANH`, unsigned, RW (R30). -/
  tanh : BitVec 32
  /-- `DFLAGS`, unsigned, RW (R30). -/
  dflags : BitVec 6
  /-- `VFOUND`, unsigned, RW (R32). -/
  vfound : BitVec 1
  /-- `LENV`, unsigned, RW (R32). -/
  lenv : BitVec 32
  /-- `VX`, signed, RW (R32). -/
  vx : BitVec 32
  /-- `VY`, signed, RW (R32). -/
  vy : BitVec 32
  /-- `VTYPE`, unsigned, RW (R32). -/
  vtype : BitVec 8
  /-- `HFOUND`, unsigned, RW (R33). -/
  hfound : BitVec 1
  /-- `LENH`, unsigned, RW (R33). -/
  lenh : BitVec 32
  /-- `HX`, signed, RW (R33). -/
  hx : BitVec 32
  /-- `HY`, signed, RW (R33). -/
  hy : BitVec 32
  /-- `HTYPE`, unsigned, RW (R33). -/
  htype : BitVec 8
  /-- `HIT`, unsigned, RW (R34). -/
  hit : BitVec 1
  /-- `SIDE`, unsigned, RW (R34). -/
  side : BitVec 1
  /-- `DIST`, unsigned, RW (R34). -/
  dist : BitVec 32
  /-- `BTYPE`, unsigned, RW (R34). -/
  btype : BitVec 8
  /-- `HITX`, signed, RW (R34). -/
  hitx : BitVec 32
  /-- `HITY`, signed, RW (R34). -/
  hity : BitVec 32
  /-- `SAMPLE`, unsigned, RW (R34). -/
  sample : BitVec 8
  /-- `ORIENT`, unsigned, RW (R34). -/
  orient : BitVec 1
  /-- `CORR`, unsigned, RW (R35). -/
  corr : BitVec 32
  /-- `HEIGHT`, unsigned, RW (R35). -/
  height : BitVec 32
  /-- `COL0`, unsigned, RW (R35). -/
  col0 : BitVec 16
  /-- `YTOP`, signed, RW (R35). -/
  ytop : BitVec 32
  /-- `Y0`, unsigned, RW (R35). -/
  y0 : BitVec 16
  /-- `Y1`, unsigned, RW (R35). -/
  y1 : BitVec 16
  /-- `TSTEP`, unsigned, RW (R35). -/
  tstep : BitVec 32
  /-- `TROWR`, unsigned, RW (R35). -/
  trowr : BitVec 16
  /-- `TXBIT`, unsigned, RW (R35). -/
  txbit : BitVec 1
  /-- `TRIG`, signed, RW (R35). -/
  trig : BitVec 16
  /-- `STATUS`, unsigned, RO (R36). -/
  status : BitVec 1
  /-- `FCAUSE`, unsigned, RO (R36). -/
  fcause : BitVec 4
  /-- `FINFO`, unsigned, RO (R36). -/
  finfo : BitVec 32
  /-- `MAPBASE`, unsigned, RO (R37). -/
  mapbase : BitVec 32
  /-- `MAPW`, unsigned, RO (R37). -/
  mapw : BitVec 8
  /-- `MAPH`, unsigned, RO (R37). -/
  maph : BitVec 8
  /-- `WORLDW`, unsigned, RO (R37). -/
  worldw : BitVec 16
  /-- `WORLDH`, unsigned, RO (R37). -/
  worldh : BitVec 16
  deriving DecidableEq, Repr

/-- Every register 0 (10_state.md R42, 70_reset_and_hazards.md R250). -/
def Regs.zero : Regs where
  px := 0
  py := 0
  angle := 0
  ray := 0
  mode := 0
  lmbase := 0
  lmw := 0
  lmh := 0
  texcnt := 0
  tdata := 0
  txbase := 0
  txw := 0
  txh := 0
  txx := 0
  txy := 0
  angn := 0
  quad := 0
  cosm := 0
  sinm := 0
  tanv := 0
  tanh := 0
  dflags := 0
  vfound := 0
  lenv := 0
  vx := 0
  vy := 0
  vtype := 0
  hfound := 0
  lenh := 0
  hx := 0
  hy := 0
  htype := 0
  hit := 0
  side := 0
  dist := 0
  btype := 0
  hitx := 0
  hity := 0
  sample := 0
  orient := 0
  corr := 0
  height := 0
  col0 := 0
  ytop := 0
  y0 := 0
  y1 := 0
  tstep := 0
  trowr := 0
  txbit := 0
  trig := 0
  status := 0
  fcause := 0
  finfo := 0
  mapbase := 0
  mapw := 0
  maph := 0
  worldw := 0
  worldh := 0

/-- The six fault causes of 60_exceptions.md R227. A fault of the block is recorded in the state;
the machine goes on (R225). -/
inductive FaultCause where
  /-- Unassigned opcode, or a must-be-zero field that is not zero (R228). -/
  | illegalCmd
  /-- No such register, or a host write to an `RO` register (R229). -/
  | badReg
  /-- An index outside a ROM table (R230). -/
  | trigIndex
  /-- Block type 0, or its texture slot is not populated (R231). -/
  | texIndex
  /-- Texel coordinates outside the bitmap (R234). -/
  | texelRange
  /-- The platform does not answer the address (R235). -/
  | memFault
  deriving DecidableEq, Repr

/-- A draw event (44_render.md R181). Coordinates are integers; `c` is the colour flag, `true`
foreground. The five-word packing of 30_encoding.md R95 is `DrawEvent.words` (Machine/Ops.lean). -/
inductive DrawEvent where
  /-- `Pixel(x, y, c)`. -/
  | pixel (x y : Int) (c : Bool)
  /-- `VLine(x, y, h, c)`. -/
  | vline (x y h : Int) (c : Bool)
  /-- `Line(x0, y0, x1, y1, c)`. -/
  | line (x0 y0 x1 y1 : Int) (c : Bool)
  deriving DecidableEq, Repr

/-- What the host can do to the block and its memory, between commands (log entry 3). -/
inductive HostInput where
  /-- A command word at the command port (30_encoding.md R80). -/
  | command (w : Word)
  /-- The host writes a byte of the memory it owns (20_memory.md R60, R73 d; log entry 4). -/
  | store (addr : Word) (byte : Byte)
  /-- The hardware reset (70_reset_and_hazards.md R250; log entry 5). -/
  | hardReset
  deriving DecidableEq, Repr

/-- The contents of external memory (20_memory.md R61): addresses with the byte each holds. An address
that is not listed reads as `Memory.unlisted` (log entry 2). The canonical form is `Memory.wf`. Which
addresses are answered at all is a build parameter (`Config.memValid`, R67). -/
abbrev Memory := List Host.Cell

/-- The machine's state: the block's own state of 10_state.md, the memory behind its port, the build
parameters, and what the host does next. -/
structure State where
  /-- The build parameters (00_scope.md R7); no step changes them (log entry 1). -/
  cfg : Config
  /-- The register file (10_state.md R20). -/
  regs : Regs
  /-- The texture pointer table `TEXPTR` (10_state.md R38). -/
  texptr : Vector Word 256
  /-- The response port, oldest word first (10_state.md R39). -/
  resp : List Word
  /-- The draw port, oldest event first (10_state.md R39). -/
  draw : List DrawEvent
  /-- The memory behind the memory port (20_memory.md R62). -/
  mem : Memory
  /-- What the host does next, first action first (log entry 3). -/
  host : List HostInput
  deriving DecidableEq, Repr

/-- The reasons a step could stop the machine: none. Every fault the spec describes is recorded in
`STATUS`, `FCAUSE`, `FINFO` and is a next state (60_exceptions.md R225, R226), and the step function
is total (70_reset_and_hazards.md R255). Nobody raises a value of this type: safe. -/
inductive Fault where
  deriving DecidableEq, Repr

/-- The reasons a step could have no meaning. -/
inductive Refusal where
  /-- An instruction without a meaning, by its mnemonic. Raised by no arm of `exec`: every command has
  its meaning. Safe: it would stop a run that the hardware continues. -/
  | notModelled (mnemonic : String)
  deriving DecidableEq, Repr

/-- The state right after a hardware reset of a block built with parameters `c`, on a platform whose
memory is `m` (70_reset_and_hazards.md R250, R251): every register and texture pointer 0, both output
ports empty, no command given yet. -/
def State.resetOf (c : Config) (m : Memory) : State where
  cfg := c
  regs := Regs.zero
  texptr := Vector.replicate 256 0
  resp := []
  draw := []
  mem := m
  host := []

/-- The machine right after reset: the reference build (log entry 1), no byte of memory listed (log
entry 2). -/
def State.reset : State := State.resetOf Config.refcfg []

end Sys2Proof.Machine
end

