-- ==== Sys2Proof/Machine/Registers.lean ====
section
/-! DEFINITION. Reading and writing registers (10_state.md R20 to R22): `s.x .name` is the spec's
`x[NAME]`, `s.set .name v` is `x[NAME] <- v`. -/

namespace Sys2Proof

/-- The width `w` of a register (10_state.md R25 to R37). -/
def Reg.width : Reg → Nat
  | .lmbase | .tdata | .txbase | .tanv | .tanh | .lenv | .vx | .vy | .lenh | .hx | .hy | .dist
    | .hitx | .hity | .corr | .height | .ytop | .tstep | .finfo | .mapbase => 32
  | .px | .py | .angle | .txw | .txh | .txx | .txy | .col0 | .y0 | .y1 | .trowr | .trig |
    .worldw | .worldh => 16
  | .texcnt | .angn => 9
  | .ray | .lmw | .lmh | .cosm | .sinm | .vtype | .htype | .btype | .sample | .mapw | .maph =>
    8
  | .dflags => 6
  | .fcause => 4
  | .mode | .quad => 2
  | .vfound | .hfound | .hit | .side | .orient | .txbit | .status => 1

/-- Is the register signed (10_state.md R25 to R37)? -/
def Reg.signed : Reg → Bool
  | .angle | .vx | .vy | .hx | .hy | .hitx | .hity | .ytop | .trig => true
  | _ => false

/-- What a register reads as after `v` is written to it: `v mod 2^w` (10_state.md R21), read unsigned
or as two's complement (R22). -/
def Reg.wrap (r : Reg) (v : Int) : Int :=
  if r.signed then v.bmod (2 ^ r.width) else v % 2 ^ r.width

namespace Machine

/-- `x[NAME]` (10_state.md R22): unsigned registers as 0 to 2^w - 1, signed ones as two's
complement. -/
def Regs.get (rs : Regs) : Reg → Int
  | .px => rs.px.toNat
  | .py => rs.py.toNat
  | .angle => rs.angle.toInt
  | .ray => rs.ray.toNat
  | .mode => rs.mode.toNat
  | .lmbase => rs.lmbase.toNat
  | .lmw => rs.lmw.toNat
  | .lmh => rs.lmh.toNat
  | .texcnt => rs.texcnt.toNat
  | .tdata => rs.tdata.toNat
  | .txbase => rs.txbase.toNat
  | .txw => rs.txw.toNat
  | .txh => rs.txh.toNat
  | .txx => rs.txx.toNat
  | .txy => rs.txy.toNat
  | .angn => rs.angn.toNat
  | .quad => rs.quad.toNat
  | .cosm => rs.cosm.toNat
  | .sinm => rs.sinm.toNat
  | .tanv => rs.tanv.toNat
  | .tanh => rs.tanh.toNat
  | .dflags => rs.dflags.toNat
  | .vfound => rs.vfound.toNat
  | .lenv => rs.lenv.toNat
  | .vx => rs.vx.toInt
  | .vy => rs.vy.toInt
  | .vtype => rs.vtype.toNat
  | .hfound => rs.hfound.toNat
  | .lenh => rs.lenh.toNat
  | .hx => rs.hx.toInt
  | .hy => rs.hy.toInt
  | .htype => rs.htype.toNat
  | .hit => rs.hit.toNat
  | .side => rs.side.toNat
  | .dist => rs.dist.toNat
  | .btype => rs.btype.toNat
  | .hitx => rs.hitx.toInt
  | .hity => rs.hity.toInt
  | .sample => rs.sample.toNat
  | .orient => rs.orient.toNat
  | .corr => rs.corr.toNat
  | .height => rs.height.toNat
  | .col0 => rs.col0.toNat
  | .ytop => rs.ytop.toInt
  | .y0 => rs.y0.toNat
  | .y1 => rs.y1.toNat
  | .tstep => rs.tstep.toNat
  | .trowr => rs.trowr.toNat
  | .txbit => rs.txbit.toNat
  | .trig => rs.trig.toInt
  | .status => rs.status.toNat
  | .fcause => rs.fcause.toNat
  | .finfo => rs.finfo.toNat
  | .mapbase => rs.mapbase.toNat
  | .mapw => rs.mapw.toNat
  | .maph => rs.maph.toNat
  | .worldw => rs.worldw.toNat
  | .worldh => rs.worldh.toNat

/-- `x[NAME] <- v` (10_state.md R21): the register takes `v mod 2^w`. -/
def Regs.put (rs : Regs) (r : Reg) (v : Int) : Regs :=
  match r with
  | .px => { rs with px := .ofInt 16 v }
  | .py => { rs with py := .ofInt 16 v }
  | .angle => { rs with angle := .ofInt 16 v }
  | .ray => { rs with ray := .ofInt 8 v }
  | .mode => { rs with mode := .ofInt 2 v }
  | .lmbase => { rs with lmbase := .ofInt 32 v }
  | .lmw => { rs with lmw := .ofInt 8 v }
  | .lmh => { rs with lmh := .ofInt 8 v }
  | .texcnt => { rs with texcnt := .ofInt 9 v }
  | .tdata => { rs with tdata := .ofInt 32 v }
  | .txbase => { rs with txbase := .ofInt 32 v }
  | .txw => { rs with txw := .ofInt 16 v }
  | .txh => { rs with txh := .ofInt 16 v }
  | .txx => { rs with txx := .ofInt 16 v }
  | .txy => { rs with txy := .ofInt 16 v }
  | .angn => { rs with angn := .ofInt 9 v }
  | .quad => { rs with quad := .ofInt 2 v }
  | .cosm => { rs with cosm := .ofInt 8 v }
  | .sinm => { rs with sinm := .ofInt 8 v }
  | .tanv => { rs with tanv := .ofInt 32 v }
  | .tanh => { rs with tanh := .ofInt 32 v }
  | .dflags => { rs with dflags := .ofInt 6 v }
  | .vfound => { rs with vfound := .ofInt 1 v }
  | .lenv => { rs with lenv := .ofInt 32 v }
  | .vx => { rs with vx := .ofInt 32 v }
  | .vy => { rs with vy := .ofInt 32 v }
  | .vtype => { rs with vtype := .ofInt 8 v }
  | .hfound => { rs with hfound := .ofInt 1 v }
  | .lenh => { rs with lenh := .ofInt 32 v }
  | .hx => { rs with hx := .ofInt 32 v }
  | .hy => { rs with hy := .ofInt 32 v }
  | .htype => { rs with htype := .ofInt 8 v }
  | .hit => { rs with hit := .ofInt 1 v }
  | .side => { rs with side := .ofInt 1 v }
  | .dist => { rs with dist := .ofInt 32 v }
  | .btype => { rs with btype := .ofInt 8 v }
  | .hitx => { rs with hitx := .ofInt 32 v }
  | .hity => { rs with hity := .ofInt 32 v }
  | .sample => { rs with sample := .ofInt 8 v }
  | .orient => { rs with orient := .ofInt 1 v }
  | .corr => { rs with corr := .ofInt 32 v }
  | .height => { rs with height := .ofInt 32 v }
  | .col0 => { rs with col0 := .ofInt 16 v }
  | .ytop => { rs with ytop := .ofInt 32 v }
  | .y0 => { rs with y0 := .ofInt 16 v }
  | .y1 => { rs with y1 := .ofInt 16 v }
  | .tstep => { rs with tstep := .ofInt 32 v }
  | .trowr => { rs with trowr := .ofInt 16 v }
  | .txbit => { rs with txbit := .ofInt 1 v }
  | .trig => { rs with trig := .ofInt 16 v }
  | .status => { rs with status := .ofInt 1 v }
  | .fcause => { rs with fcause := .ofInt 4 v }
  | .finfo => { rs with finfo := .ofInt 32 v }
  | .mapbase => { rs with mapbase := .ofInt 32 v }
  | .mapw => { rs with mapw := .ofInt 8 v }
  | .maph => { rs with maph := .ofInt 8 v }
  | .worldw => { rs with worldw := .ofInt 16 v }
  | .worldh => { rs with worldh := .ofInt 16 v }

/-- `x[NAME]` of a state (00_scope.md R11). -/
def State.x (s : State) (r : Reg) : Int := s.regs.get r

/-- `x[NAME] <- v` on a state (00_scope.md R11). -/
def State.set (s : State) (r : Reg) (v : Int) : State := { s with regs := s.regs.put r v }

/-- The stored bits of a register as an unsigned `w`-bit value (46_system.md R207, 42_dda_search.md
R146: "taken mod 2^32 if negative"). -/
def State.stored (s : State) (r : Reg) : Nat := (s.x r % 2 ^ r.width).toNat

end Machine

end Sys2Proof
end

