-- ==== Sys2Proof/Machine/Operands.lean ====
section
/-! DEFINITION. The operators of the spec's pseudocode (00_scope.md R9, R10), operand assembly
(30_encoding.md R87) and the quantities derived from the build parameters (00_scope.md R7). Every
value is an exact integer; only a register write truncates. -/

namespace Sys2Proof

namespace Machine

/-- `a << n` (00_scope.md R10). -/
def shl (a : Int) (n : Nat) : Int := a * ((2 ^ n : Nat) : Int)

/-- `a >> n`, the floor of `a / 2^n`, also for negative `a` (00_scope.md R10). -/
def asr (a : Int) (n : Nat) : Int := a / ((2 ^ n : Nat) : Int)

/-- `a & m`, used only with `a >= 0` and `m >= 0` (00_scope.md R10). -/
def andInt (a m : Int) : Int := ((a.toNat &&& m.toNat : Nat) : Int)

/-- `abs(a)` (00_scope.md R10). -/
def absInt (a : Int) : Int := (a.natAbs : Int)

/-- `1 if b else 0`. -/
def bit01 (b : Bool) : Int := if b then 1 else 0

/-- `-1 if b else +1`. -/
def signOf (b : Bool) : Int := if b then -1 else 1

/-- `sext_16(IMM)` (30_encoding.md R84, R87 b, c). -/
def sext16 (imm : BitVec 16) : Int := imm.toInt

/-- `zext_16(IMM)` (30_encoding.md R87 a). -/
def zext16 (imm : BitVec 16) : Int := (imm.toNat : Int)

/-- `norm360(a)`: the floored remainder by 360 (40_trig_rom.md R109). -/
def norm360 (a : Int) : Int := a % 360

end Machine

/-- `BS = 2^BS_LOG2`, the block size in world units (00_scope.md R7). -/
def Config.bs (c : Config) : Int := ((2 ^ c.bsLog2 : Nat) : Int)

/-- `TEXSIZE = BS >> TEX_SHIFT` (00_scope.md R7). -/
def Config.texSize (c : Config) : Int := Machine.asr c.bs c.texShift

/-- Is the address in `MemValid` (20_memory.md R67)? -/
def Config.answers (c : Config) (a : Nat) : Bool :=
  c.memValid.any fun r => decide (r.base ≤ a) && decide (a < r.base + r.size)

end Sys2Proof
end

