-- ==== Sys2Proof/Machine/Flags.lean ====
section
/-! DEFINITION. The one-bit state of the block: the six fields of `DFLAGS` (10_state.md R31) and the
one-bit registers read as truth values (R40). The block has no condition codes. -/

namespace Sys2Proof.Machine

/-- A one-bit register, or a register field, read as a truth value: is `x[NAME] = 1`? -/
def State.bit (s : State) (r : Reg) : Bool := s.x r == 1

/-- Bit `k` of `DFLAGS` (10_state.md R31). -/
def State.dflag (s : State) (k : Nat) : Bool := (s.stored .dflags).testBit k

/-- `DFLAGS.SXN`: the ray steps toward -x (10_state.md R31). -/
def State.sxn (s : State) : Bool := s.dflag 0

/-- `DFLAGS.SYN`: the ray steps toward -y (10_state.md R31). -/
def State.syn (s : State) : Bool := s.dflag 1

/-- `DFLAGS.ORV`: a vertical-line hit is mirrored (10_state.md R31). -/
def State.orv (s : State) : Bool := s.dflag 2

/-- `DFLAGS.ORH`: a horizontal-line hit is mirrored (10_state.md R31). -/
def State.orh (s : State) : Bool := s.dflag 3

/-- `DFLAGS.SKIPV`: the vertical-line search is skipped (10_state.md R31). -/
def State.skipv (s : State) : Bool := s.dflag 4

/-- `DFLAGS.SKIPH`: the horizontal-line search is skipped (10_state.md R31). -/
def State.skiph (s : State) : Bool := s.dflag 5

/-- The value `DECOMP` writes to `DFLAGS`, all six fields together (41_angle_decomp.md R121): `ORV`
is `SXN` and `ORH` is `1 - SYN` (R126). -/
def packDflags (sxn syn skipv skiph : Bool) : Int :=
  bit01 sxn + 2 * bit01 syn + 4 * bit01 sxn + 8 * (1 - bit01 syn)
    + 16 * bit01 skipv + 32 * bit01 skiph

end Sys2Proof.Machine
end

