-- ==== Sys2Proof/Machine/Ops.lean ====
section
/-! DEFINITION. The shared operations: external memory, raising a fault and leaving the fault state,
the flow of a primitive operation, and the two output ports. -/

namespace Sys2Proof.Machine

/-! ## External memory (20_memory.md) -/

/-- What an address that a memory does not list reads as (log entry 2). -/
def Memory.unlisted : Byte := 0

/-- The byte a memory holds at an address. -/
def Memory.read : Memory → Nat → Byte
  | [], _ => Memory.unlisted
  | (k, b) :: m, a => if k = a then b else Memory.read m a

/-- The memory with the address not listed. -/
def Memory.erase (m : Memory) (a : Nat) : Memory := m.filter fun c => c.1 != a

/-- The memory with a cell put before the first higher address. -/
def Memory.insert : Memory → Nat → Byte → Memory
  | [], a, b => [(a, b)]
  | (k, v) :: m, a, b => if a < k then (a, b) :: (k, v) :: m else (k, v) :: Memory.insert m a b

/-- The memory with a byte written; the value an unlisted address reads as is not listed. -/
def Memory.write (m : Memory) (a : Nat) (b : Byte) : Memory :=
  if b = Memory.unlisted then m.erase a else (m.erase a).insert a b

/-- The canonical form: addresses strictly rising and below 2^32 (20_memory.md R61), no cell equal to
what an unlisted address reads as. -/
abbrev Memory.wf (m : Memory) : Prop :=
  m.Pairwise (fun c d => c.1 < d.1) ∧ ∀ c ∈ m, c.1 < 2 ^ 32 ∧ c.2 ≠ Memory.unlisted

/-- The byte behind the memory port at an address, `none` outside `MemValid` (20_memory.md R66,
R67). -/
def State.byteAt (s : State) (a : Nat) : Option Byte :=
  if s.cfg.answers a then some (s.mem.read a) else none

/-- The host stores a byte (20_memory.md R60). Outside `MemValid` there is no memory, and nothing
changes (R67; log entry 4). No command of the block uses this (R63). -/
def State.hostStore (s : State) (a : Word) (b : Byte) : State :=
  if s.cfg.answers a.toNat then { s with mem := s.mem.write a.toNat b } else s

/-- An address as the memory port sees it: taken mod 2^32 (20_memory.md R61). -/
def portAddr (addr : Int) : Word := BitVec.ofInt 32 addr

/-- `MemRead(addr, 1)` (20_memory.md R62): the byte, or the address no one answers. -/
def State.memRead (s : State) (addr : Int) : Except Word Byte :=
  match s.byteAt (portAddr addr).toNat with
  | some b => .ok b
  | none => .error (portAddr addr)

/-! ## Faults (60_exceptions.md) -/

/-- The cause code of a fault (60_exceptions.md R227). -/
def FaultCause.code : FaultCause → Int
  | .illegalCmd => 1
  | .badReg => 2
  | .trigIndex => 3
  | .texIndex => 4
  | .texelRange => 5
  | .memFault => 6

/-- The record a fault leaves: `STATUS.F`, `FCAUSE`, `FINFO`, unless an earlier fault is recorded
there (60_exceptions.md R226). -/
def State.recordFault (s : State) (c : FaultCause) (info : Int) : State :=
  if s.x .status = 0 then ((s.set .status 1).set .fcause c.code).set .finfo info else s

/-- How a primitive operation leaves the machine: completed, or ended by a fault that is recorded in
the state (60_exceptions.md R226). -/
inductive Flow where
  /-- The operation completed. -/
  | done (s : State)
  /-- The operation raised a fault; the command that contains it ends. -/
  | ended (s : State)
  deriving DecidableEq, Repr

/-- The state a flow leaves. -/
def Flow.state : Flow → State
  | .done s => s
  | .ended s => s

/-- `do A` then `do B` inside a composite: `B` is performed only if `A` completed; what `A` did
stands either way (60_exceptions.md R232). -/
def Flow.andThen (f : Flow) (next : State → Flow) : Flow :=
  match f with
  | .done s => next s
  | .ended s => .ended s

/-- The end of a command: its next state, faulted or not (60_exceptions.md R226). -/
def Flow.outcome (f : Flow) : Host.Outcome State Fault Refusal := .next f.state

/-- `raise <Fault>(info)` (60_exceptions.md R226): the operation writes nothing but the fault record
and the command ends. `info` is taken mod 2^32 by the write to `FINFO`. -/
def State.raise (s : State) (c : FaultCause) (info : Int) : Flow := .ended (s.recordFault c info)

/-- `SRST` (46_system.md R212): every register and texture pointer 0. This is the way out of the
fault state; the output ports, the memory and the build parameters stay. -/
def State.softReset (s : State) : State :=
  { s with regs := Regs.zero, texptr := Vector.replicate 256 0 }

/-- The hardware reset (70_reset_and_hazards.md R250): the soft reset, and both output ports
empty. -/
def State.hardReset (s : State) : State := { s.softReset with resp := [], draw := [] }

/-! ## Output ports (10_state.md R39) -/

/-- `emit Resp(v)`: append one 32-bit word to the response port (00_scope.md R11, 30_encoding.md
R94). -/
def State.emitResp (s : State) (v : Int) : State := { s with resp := s.resp ++ [BitVec.ofInt 32 v] }

/-- Append one draw event to the draw port (44_render.md R181). -/
def State.emitDraw (s : State) (e : DrawEvent) : State := { s with draw := s.draw ++ [e] }

/-- The five words of a draw event (30_encoding.md R95). -/
def DrawEvent.words : DrawEvent → List Word
  | .pixel x y c => [0x10000000 + bit01 c, x, y, 0, 0].map (BitVec.ofInt 32)
  | .vline x y h c => [0x20000000 + bit01 c, x, y, h, 0].map (BitVec.ofInt 32)
  | .line x0 y0 x1 y1 c => [0x30000000 + bit01 c, x0, y0, x1, y1].map (BitVec.ofInt 32)

/-! ## The texture pointer table (10_state.md R38) -/

/-- `TEXPTR[i]`, `i` in 0 to 255. -/
def State.texptrAt (s : State) (i : BitVec 8) : Word := s.texptr[i.toNat]'i.isLt

/-- `TEXPTR[i] <- v`. -/
def State.setTexptr (s : State) (i : BitVec 8) (v : Word) : State :=
  { s with texptr := s.texptr.set i.toNat v i.isLt }

end Sys2Proof.Machine
end

