-- ==== Sys2Proof/Machine/CommandPort.lean ====
section
/-! DEFINITION. The command port: what the block does with the host's next action
(30_encoding.md R80, R89, 60_exceptions.md R233, R236, 70_reset_and_hazards.md R255). -/

namespace Sys2Proof.Machine

/-- What the host's next action leads to: a state the machine simply moves to, or a command to
perform. -/
inductive PortAction where
  /-- No command is performed; the machine is then in this state. -/
  | settle (s : State)
  /-- The command is performed from this state. -/
  | perform (i : Instr) (s : State)
  deriving DecidableEq, Repr

/-- Is the word dropped undecoded? While `STATUS.F = 1`, every word whose `OP` is not `RD`, `GETTEX`
or `SRST` (30_encoding.md R89 step 1, 60_exceptions.md R233). -/
def State.drops (s : State) (w : Word) : Bool :=
  s.bit .status && !(opField w == 0x03 || opField w == 0x06 || opField w == 0x07)

/-- The fault cause of a word the decoder refuses (30_encoding.md R89 steps 2 to 5). -/
def rejectCause : DecodeError → FaultCause
  | .unassignedOpcode | .mustBeZero => .illegalCmd
  | .noSuchRegister | .readOnlyRegister => .badReg

/-- The command port takes a word (30_encoding.md R89): drop it, record the decoder's fault with the
word as its information, or perform it. -/
def State.accept (s : State) (w : Word) : PortAction :=
  if s.drops w then .settle s
  else
    match decode w with
    | .error e => .settle (s.raise (rejectCause e) w.toNat).state
    | .ok i => .perform i s

/-- The host's next action (log entry 3). With none the block waits: no state changes without a
command (70_reset_and_hazards.md R255). -/
def State.takeInput (s : State) : PortAction :=
  match s.host with
  | [] => .settle s
  | .command w :: rest => State.accept { s with host := rest } w
  | .store a b :: rest => .settle (State.hostStore { s with host := rest } a b)
  | .hardReset :: rest => .settle (State.hardReset { s with host := rest })

end Sys2Proof.Machine
end

