-- ==== Sys2Proof/Machine/TrigRom.lean ====
section
/-! DEFINITION. The trigonometric lookup ROM: two constant tables in the layout of 40_trig_rom.md R101
and R102, ten entries a row. -/

namespace Sys2Proof.Machine

/-- The 16-scale table, rows 0 to 80 (40_trig_rom.md R101). -/
def c16Rows0 : List (List Int) := [
  [16, 16, 16, 16, 16, 16, 16, 16, 16, 16],
  [16, 16, 16, 16, 16, 15, 15, 15, 15, 15],
  [15, 15, 15, 15, 15, 15, 14, 14, 14, 14],
  [14, 14, 14, 13, 13, 13, 13, 13, 13, 12],
  [12, 12, 12, 12, 12, 11, 11, 11, 11, 10],
  [10, 10, 10, 10, 9, 9, 9, 9, 8, 8],
  [8, 8, 8, 7, 7, 7, 7, 6, 6, 6],
  [5, 5, 5, 5, 4, 4, 4, 4, 3, 3],
  [3, 3, 2, 2, 2, 1, 1, 1, 1, 0]]

/-- The 16-scale table, rows 90 to 170 (40_trig_rom.md R101). -/
def c16Rows90 : List (List Int) := [
  [0, 0, -1, -1, -1, -1, -2, -2, -2, -3],
  [-3, -3, -3, -4, -4, -4, -4, -5, -5, -5],
  [-5, -6, -6, -6, -7, -7, -7, -7, -8, -8],
  [-8, -8, -8, -9, -9, -9, -9, -10, -10, -10],
  [-10, -10, -11, -11, -11, -11, -12, -12, -12, -12],
  [-12, -12, -13, -13, -13, -13, -13, -13, -14, -14],
  [-14, -14, -14, -14, -14, -15, -15, -15, -15, -15],
  [-15, -15, -15, -15, -15, -15, -16, -16, -16, -16],
  [-16, -16, -16, -16, -16, -16, -16, -16, -16, -16]]

/-- The 16-scale table, rows 180 to 260 (40_trig_rom.md R101). -/
def c16Rows180 : List (List Int) := [
  [-16, -16, -16, -16, -16, -16, -16, -16, -16, -16],
  [-16, -16, -16, -16, -16, -15, -15, -15, -15, -15],
  [-15, -15, -15, -15, -15, -15, -14, -14, -14, -14],
  [-14, -14, -14, -13, -13, -13, -13, -13, -13, -12],
  [-12, -12, -12, -12, -12, -11, -11, -11, -11, -10],
  [-10, -10, -10, -10, -9, -9, -9, -9, -8, -8],
  [-8, -8, -8, -7, -7, -7, -7, -6, -6, -6],
  [-5, -5, -5, -5, -4, -4, -4, -4, -3, -3],
  [-3, -3, -2, -2, -2, -1, -1, -1, -1, 0]]

/-- The 16-scale table, rows 270 to 350 (40_trig_rom.md R101). -/
def c16Rows270 : List (List Int) := [
  [0, 0, 1, 1, 1, 1, 2, 2, 2, 3],
  [3, 3, 3, 4, 4, 4, 4, 5, 5, 5],
  [5, 6, 6, 6, 7, 7, 7, 7, 8, 8],
  [8, 8, 8, 9, 9, 9, 9, 10, 10, 10],
  [10, 10, 11, 11, 11, 11, 12, 12, 12, 12],
  [12, 12, 13, 13, 13, 13, 13, 13, 14, 14],
  [14, 14, 14, 14, 14, 15, 15, 15, 15, 15],
  [15, 15, 15, 15, 15, 15, 16, 16, 16, 16],
  [16, 16, 16, 16, 16, 16, 16, 16, 16, 16]]

/-- The 16-scale table, one row per ten degrees (40_trig_rom.md R101). -/
def c16Rows : List (List Int) := c16Rows0 ++ c16Rows90 ++ c16Rows180 ++ c16Rows270

/-- The 128-scale table, one row per ten degrees (40_trig_rom.md R102). -/
def c128Rows : List (List Int) := [
  [128, 128, 128, 128, 128, 128, 127, 127, 127, 126],
  [126, 126, 125, 125, 124, 124, 123, 122, 122, 121],
  [120, 119, 119, 118, 117, 116, 115, 114, 113, 112],
  [111, 110, 109, 107, 106, 105, 104, 102, 101, 99],
  [98, 97, 95, 94, 92, 91, 89, 87, 86, 84],
  [82, 81, 79, 77, 75, 73, 72, 70, 68, 66],
  [64, 62, 60, 58, 56, 54, 52, 50, 48, 46],
  [44, 42, 40, 37, 35, 33, 31, 29, 27, 24],
  [22, 20, 18, 16, 13, 11, 9, 7, 4, 2],
  [0]]

/-- Entry `a` of a table held in rows of ten; an index outside the table is never sent to the ROM
(20_memory.md R78). -/
def romEntry (rows : List (List Int)) (a : Nat) : Int := (rows.getD (a / 10) []).getD (a % 10) 0

/-- `C16(a)`, `a` in 0 to 359 (40_trig_rom.md R101). -/
def c16 (a : Int) : Int := romEntry c16Rows a.toNat

/-- `S16(a)`, `a` in 0 to 359: the sine from the cosine table (40_trig_rom.md R103). -/
def s16 (a : Int) : Int := c16 ((a - 90 + 360) % 360)

/-- `C128(a)`, `a` in 0 to 90 (40_trig_rom.md R102). -/
def c128 (a : Int) : Int := romEntry c128Rows a.toNat

end Sys2Proof.Machine
end

