-- ==== Sys2Proof/Machine/Projector.lean ====
section
/-! DEFINITION. Fish-eye correction and height projector (43_projector.md). -/

namespace Sys2Proof.Machine

/-- The fish-eye index: the ray's offset from the view centre (43_projector.md R161). -/
def State.fishIndex (s : State) : Int := absInt (s.x .ray - s.cfg.centerRay)

/-- `do FISH` (43_projector.md R161). -/
def doFish (s : State) : Flow :=
  if s.fishIndex > 90 then s.raise .trigIndex s.fishIndex
  else .done (s.set .corr ((s.x .dist * c128 s.fishIndex) / 128))

/-- `FISH` (43_projector.md R161). -/
def execFish (s : State) : Host.Outcome State Fault Refusal := (doFish s).outcome

/-- `do PROJ` (43_projector.md R162). -/
def doProj (s : State) : Flow :=
  if s.x .corr = 0 then .done (s.set .height s.cfg.projConst)
  else .done (s.set .height (s.cfg.projConst / s.x .corr))

/-- `PROJ` (43_projector.md R162). -/
def execProj (s : State) : Host.Outcome State Fault Refusal := (doProj s).outcome

/-- The unclipped top row of a slice (43_projector.md R163). -/
def spanTop (c : Config) (height : Int) : Int := asr c.screenH 1 - asr height 1

/-- `do SPAN` (43_projector.md R163). -/
def doSpan (s : State) : Flow :=
  let ytop := spanTop s.cfg (s.x .height)
  .done ((((s.set .col0 (2 * s.x .ray)).set .ytop ytop).set .y0 (max ytop 0)).set
    .y1 (min (ytop + s.x .height) s.cfg.screenH))

/-- `SPAN` (43_projector.md R163). -/
def execSpan (s : State) : Host.Outcome State Fault Refusal := (doSpan s).outcome

/-- `do TSTEP` (43_projector.md R164). -/
def doTstep (s : State) : Flow :=
  if s.x .height = 0 then .done (s.set .tstep 0)
  else .done (s.set .tstep (shl s.cfg.texSize s.cfg.texFp / s.x .height))

/-- `TSTEP` (43_projector.md R164). -/
def execTstep (s : State) : Host.Outcome State Fault Refusal := (doTstep s).outcome

/-- `do TROW(row)` (43_projector.md R165): the offset is counted from the unclipped top. -/
def doTrow (row : Int) (s : State) : Flow :=
  .done (s.set .trowr (asr (s.x .tstep * (row - s.x .ytop)) s.cfg.texFp))

/-- `TROW row` (43_projector.md R165). -/
def execTrow (imm : BitVec 16) (s : State) : Host.Outcome State Fault Refusal :=
  (doTrow (sext16 imm) s).outcome

end Sys2Proof.Machine
end

