-- ==== Sys2Proof/Machine/Angle.lean ====
section
/-! DEFINITION. Fixed-point angle decomposition (41_angle_decomp.md). -/

namespace Sys2Proof.Machine

/-- The quadrant of a normalised angle (41_angle_decomp.md R122). -/
def quadrant (a : Int) : Int :=
  if a ≤ 90 then 0 else if a ≤ 180 then 1 else if a < 270 then 2 else 3

/-- The reflected table index `rc` of a normalised angle (41_angle_decomp.md R122). -/
def reflected (a : Int) : Int :=
  if a ≤ 90 then a else if a ≤ 180 then 180 - a else if a < 270 then a - 180 else 360 - a

/-- `SXN` of a quadrant: does the ray step toward -x (41_angle_decomp.md R122)? -/
def stepsNegX (q : Int) : Bool := q == 1 || q == 2

/-- `SYN` of a quadrant: does the ray step toward -y (41_angle_decomp.md R122)? -/
def stepsNegY (q : Int) : Bool := q == 2 || q == 3

/-- A scaled tangent, 0 where its divisor is 0 (41_angle_decomp.md R124). -/
def scaledTan (c : Config) (num den : Int) : Int :=
  if den = 0 then 0 else shl num c.bsLog2 / den

/-- What `DECOMP` writes for a normalised angle `a` (41_angle_decomp.md R121). -/
def State.writeDecomp (s : State) (a : Int) : State :=
  let cosm := c128 (reflected a)
  let sinm := c128 (90 - reflected a)
  (((((s.set .quad (quadrant a)).set .cosm cosm).set .sinm sinm).set
    .tanv (scaledTan s.cfg sinm cosm)).set .tanh (scaledTan s.cfg cosm sinm)).set
    .dflags (packDflags (stepsNegX (quadrant a)) (stepsNegY (quadrant a)) (cosm == 0) (sinm == 0))

/-- `do DECOMP` (41_angle_decomp.md R121): `TrigIndex(a)` above 359. -/
def doDecomp (s : State) : Flow :=
  if s.x .angn > 359 then s.raise .trigIndex (s.x .angn) else .done (s.writeDecomp (s.x .angn))

/-- `DECOMP` (41_angle_decomp.md R121). -/
def execDecomp (s : State) : Host.Outcome State Fault Refusal := (doDecomp s).outcome

end Sys2Proof.Machine
end

