-- ==== Sys2Proof/Machine/Trig.lean ====
section
/-! DEFINITION. The trigonometric ROM commands and normalisation (40_trig_rom.md R104 to R107). -/

namespace Sys2Proof.Machine

/-- A lookup of angle `a` in a table that ends at `last`: `TrigIndex(a)` outside it, else the entry
goes to `TRIG` (40_trig_rom.md R104 to R106, 60_exceptions.md R230). -/
def State.lookup (s : State) (a last : Int) (rom : Int → Int) : Flow :=
  if a < 0 ∨ a > last then s.raise .trigIndex a else .done (s.set .trig (rom a))

/-- `COS16 imm` (40_trig_rom.md R104). -/
def execCos16 (imm : BitVec 16) (s : State) : Host.Outcome State Fault Refusal :=
  (s.lookup (sext16 imm) 359 c16).outcome

/-- `SIN16 imm` (40_trig_rom.md R105). -/
def execSin16 (imm : BitVec 16) (s : State) : Host.Outcome State Fault Refusal :=
  (s.lookup (sext16 imm) 359 s16).outcome

/-- `COS128 imm` (40_trig_rom.md R106). -/
def execCos128 (imm : BitVec 16) (s : State) : Host.Outcome State Fault Refusal :=
  (s.lookup (sext16 imm) 90 c128).outcome

/-- `do NORM` (40_trig_rom.md R107): `x[ANGN] <- norm360(x[ANGLE])`. -/
def doNorm (s : State) : Flow := .done (s.set .angn (norm360 (s.x .angle)))

/-- `NORM` (40_trig_rom.md R107). -/
def execNorm (s : State) : Host.Outcome State Fault Refusal := (doNorm s).outcome

end Sys2Proof.Machine
end

