-- ==== Sys2Proof/Machine/Search.lean ====
section
/-! DEFINITION. The grid-line searches, the ray length, the choice of the hit, and the composite
`CAST` (42_dda_search.md). -/

namespace Sys2Proof.Machine

/-! ## The cell lookup and the walk -/

/-- `Cell(col, row)` (42_dda_search.md R136): `none` is `OUT`, found without a memory read; the
address is that of 20_memory.md R64. An error is the address of a byte that is not answered. -/
def State.cell (s : State) (col row : Int) : Except Word (Option Byte) :=
  if col < 0 ∨ col ≥ s.x .mapw ∨ row < 0 ∨ row ≥ s.x .maph then .ok none
  else (s.memRead (s.x .mapbase + row * s.x .mapw + col)).map some

/-- Where a search ended: the cursor, and the block type of the solid cell met, if any. -/
structure WalkEnd where
  /-- The cursor's x. -/
  cx : Int
  /-- The cursor's y. -/
  cy : Int
  /-- The block type of the solid cell, `none` when the cell was `OUT`. -/
  hit : Option Byte
  deriving DecidableEq, Repr

/-- The loop of 42_dda_search.md R143 and R144 from cursor `(cx, cy)`: examine the cell at the
crossing, adjusted by `(adjCol, adjRow)`; stop when it is `OUT` or solid, else step by `(dx, dy)`.
The first argument bounds the iterations; the searches give the bound of R142, which the loop never
exhausts (`State.vWalk_bound_irrelevant`, `State.hWalk_bound_irrelevant` in Laws/Search.lean). -/
def State.walk (s : State) (adjCol adjRow dx dy : Int) : Nat → Int → Int → Except Word WalkEnd
  | 0, cx, cy => .ok ⟨cx, cy, none⟩
  | n + 1, cx, cy =>
    match s.cell (asr cx s.cfg.bsLog2 + adjCol) (asr cy s.cfg.bsLog2 + adjRow) with
    | .error a => .error a
    | .ok none => .ok ⟨cx, cy, none⟩
    | .ok (some t) =>
      if t = 0 then s.walk adjCol adjRow dx dy n (cx + dx) (cy + dy) else .ok ⟨cx, cy, some t⟩

/-- The ray length from an axis distance `d` and a cosine or sine magnitude `m`; 0 for a zero
magnitude (42_dda_search.md R140). -/
def rayLength (d m : Int) : Int := if m = 0 then 0 else (absInt d * 128) / m

/-- The first grid line at `p`'s axis in the stepped direction (42_dda_search.md R137, R138). -/
def firstLine (c : Config) (p : Int) (neg : Bool) : Int :=
  let rem := andInt p (c.bs - 1)
  if neg then p - rem else p - rem + c.bs

/-- One block along an axis, signed (42_dda_search.md R137, R138). -/
def blockStep (c : Config) (neg : Bool) : Int := if neg then -c.bs else c.bs

/-- The cell-index adjustment of a negative step: the cell on the far side of the line
(42_dda_search.md R137, R138). -/
def farSide (neg : Bool) : Int := if neg then -1 else 0

/-- The other coordinate of the first crossing: `p` moved by the tangent scaled by the part of a block
travelled, `dist` (42_dda_search.md R137, R138). -/
def firstCross (c : Config) (p dist tan : Int) (neg : Bool) : Int :=
  p + signOf neg * asr (absInt dist * tan) c.bsLog2

/-! ## The vertical-line search -/

/-- The five result registers of the vertical-line search (10_state.md R32). -/
def State.writeV (s : State) (found len cx cy typ : Int) : State :=
  ((((s.set .vfound found).set .lenv len).set .vx cx).set .vy cy).set .vtype typ

/-- The walk of the vertical-line search (42_dda_search.md R137, R143). -/
def State.vWalk (s : State) : Except Word WalkEnd :=
  let x0 := firstLine s.cfg (s.x .px) s.sxn
  let y0 := firstCross s.cfg (s.x .py) (x0 - s.x .px) (s.x .tanv) s.syn
  s.walk (farSide s.sxn) 0 (blockStep s.cfg s.sxn) (signOf s.syn * s.x .tanv)
    ((s.x .mapw).toNat + 1) x0 y0

/-- `do VSRCH` (42_dda_search.md R143). -/
def doVsrch (s : State) : Flow :=
  if s.skipv then .done (s.writeV 0 (s.x .worldw) (s.x .px) (s.x .py) 0)
  else
    match s.vWalk with
    | .error a => s.raise .memFault a.toNat
    | .ok ⟨cx, cy, none⟩ => .done (s.writeV 0 (s.x .worldw) cx cy 0)
    | .ok ⟨cx, cy, some t⟩ =>
      .done (s.writeV 1 (rayLength (cx - s.x .px) (s.x .cosm)) cx cy t.toNat)

/-- `VSRCH` (42_dda_search.md R143). -/
def execVsrch (s : State) : Host.Outcome State Fault Refusal := (doVsrch s).outcome

/-! ## The horizontal-line search -/

/-- The five result registers of the horizontal-line search (10_state.md R33). -/
def State.writeH (s : State) (found len cx cy typ : Int) : State :=
  ((((s.set .hfound found).set .lenh len).set .hx cx).set .hy cy).set .htype typ

/-- The walk of the horizontal-line search (42_dda_search.md R138, R144). -/
def State.hWalk (s : State) : Except Word WalkEnd :=
  let y0 := firstLine s.cfg (s.x .py) s.syn
  let x0 := firstCross s.cfg (s.x .px) (y0 - s.x .py) (s.x .tanh) s.sxn
  s.walk 0 (farSide s.syn) (signOf s.sxn * s.x .tanh) (blockStep s.cfg s.syn)
    ((s.x .maph).toNat + 1) x0 y0

/-- `do HSRCH` (42_dda_search.md R144); the sentinel is the world width here too (R141). -/
def doHsrch (s : State) : Flow :=
  if s.skiph then .done (s.writeH 0 (s.x .worldw) (s.x .px) (s.x .py) 0)
  else
    match s.hWalk with
    | .error a => s.raise .memFault a.toNat
    | .ok ⟨cx, cy, none⟩ => .done (s.writeH 0 (s.x .worldw) cx cy 0)
    | .ok ⟨cx, cy, some t⟩ =>
      .done (s.writeH 1 (rayLength (cy - s.x .py) (s.x .sinm)) cx cy t.toNat)

/-- `HSRCH` (42_dda_search.md R144). -/
def execHsrch (s : State) : Host.Outcome State Fault Refusal := (doHsrch s).outcome

/-! ## The choice of the hit -/

/-- The eight hit registers, the source's RayHit (10_state.md R34). -/
structure RayHit where
  /-- `HIT`. -/
  hit : Bool
  /-- `SIDE`. -/
  side : Bool
  /-- `DIST`. -/
  dist : Int
  /-- `BTYPE`. -/
  btype : Int
  /-- `HITX`. -/
  hitx : Int
  /-- `HITY`. -/
  hity : Int
  /-- `SAMPLE`. -/
  sample : Int
  /-- `ORIENT`. -/
  orient : Bool
  deriving DecidableEq, Repr

/-- The sample column from the stored bits of the perpendicular coordinate (42_dda_search.md R147). -/
def sampleColumn (c : Config) (bits : Nat) (mirror : Bool) : Int :=
  let s := asr (andInt bits (c.bs - 1)) c.texShift
  if mirror then c.texSize - 1 - s else s

/-- The hit of the horizontal-line search (42_dda_search.md R146). -/
def State.hitH (s : State) : RayHit :=
  ⟨true, true, s.x .lenh, s.x .htype, s.x .hx, s.x .hy,
    sampleColumn s.cfg (s.stored .hx) s.orh, s.orh⟩

/-- The hit of the vertical-line search (42_dda_search.md R146). -/
def State.hitV (s : State) : RayHit :=
  ⟨true, false, s.x .lenv, s.x .vtype, s.x .vx, s.x .vy,
    sampleColumn s.cfg (s.stored .vy) s.orv, s.orv⟩

/-- No hit: the far end of the unreachable debug line is the place where a search left the world
(42_dda_search.md R149). -/
def State.noHit (s : State) : RayHit :=
  if s.skiph then ⟨false, false, s.x .worldw, 0, s.x .vx, s.x .vy, 0, false⟩
  else ⟨false, false, s.x .worldw, 0, s.x .hx, s.x .hy, 0, false⟩

/-- The choice of 42_dda_search.md R145, R146: the horizontal hit wins a tie. -/
def State.chooseHit (s : State) : RayHit :=
  if s.bit .hfound && (!s.bit .vfound || s.x .lenh ≤ s.x .lenv) then s.hitH
  else if s.bit .vfound then s.hitV
  else s.noHit

/-- The hit registers take a RayHit (10_state.md R34). -/
def State.writeHit (s : State) (h : RayHit) : State :=
  (((((((s.set .hit (bit01 h.hit)).set .side (bit01 h.side)).set .dist h.dist).set
    .btype h.btype).set .hitx h.hitx).set .hity h.hity).set .sample h.sample).set
    .orient (bit01 h.orient)

/-- `do SELECT` (42_dda_search.md R146). -/
def doSelect (s : State) : Flow := .done (s.writeHit s.chooseHit)

/-- `SELECT` (42_dda_search.md R146). -/
def execSelect (s : State) : Host.Outcome State Fault Refusal := (doSelect s).outcome

/-! ## The composite -/

/-- `do CAST` (42_dda_search.md R148): steps 1 to 5 of the ray caster. -/
def doCast (s : State) : Flow :=
  (doNorm s).andThen fun s => (doDecomp s).andThen fun s => (doVsrch s).andThen fun s =>
    (doHsrch s).andThen doSelect

/-- `CAST` (42_dda_search.md R148). -/
def execCast (s : State) : Host.Outcome State Fault Refusal := (doCast s).outcome

end Sys2Proof.Machine
end

