-- ==== Sys2Proof/Machine/Texel.lean ====
section
/-! DEFINITION. The bit-packed texel sampler (45_texel.md). -/

namespace Sys2Proof.Machine

/-- The linear bit index of texel `(x, y)` (45_texel.md R196). -/
def texelIndex (width x y : Int) : Int := y * width + x

/-- One texel of a byte, most significant bit first (45_texel.md R196). -/
def texelBit (b : Byte) (index : Int) : Bool :=
  andInt b.toNat (asr 128 (andInt index 7).toNat) ≠ 0

/-- `GetTexel(base, width, x, y)` (45_texel.md R196): the bit, or the address of a byte that is not
answered. -/
def State.getTexel (s : State) (base width x y : Int) : Except Word Bool :=
  (s.memRead (base + asr (texelIndex width x y) 3)).map
    fun b => texelBit b (texelIndex width x y)

/-- The end of a texel fetch: `TXBIT` takes the bit, or `MemFault` (45_texel.md R198, R199). -/
def State.writeTexel (s : State) (t : Except Word Bool) : Flow :=
  match t with
  | .error a => s.raise .memFault a.toNat
  | .ok b => .done (s.set .txbit (bit01 b))

/-- `do TEXEL` (45_texel.md R198). -/
def doTexel (s : State) : Flow :=
  if s.x .txx ≥ s.x .txw ∨ s.x .txy ≥ s.x .txh then
    s.raise .texelRange (((s.x .txy).toNat <<< 16 ||| (s.x .txx).toNat : Nat) : Int)
  else s.writeTexel (s.getTexel (s.x .txbase) (s.x .txw) (s.x .txx) (s.x .txy))

/-- `TEXEL` (45_texel.md R198). -/
def execTexel (s : State) : Host.Outcome State Fault Refusal := (doTexel s).outcome

/-- `do WTEXEL` (45_texel.md R199): the slot is the block type minus 1. -/
def doWtexel (s : State) : Flow :=
  if s.x .btype = 0 ∨ s.x .btype - 1 ≥ s.x .texcnt then s.raise .texIndex (s.x .btype)
  else if s.x .sample ≥ s.cfg.texSize ∨ s.x .trowr ≥ s.cfg.texSize then
    s.raise .texelRange (((s.x .trowr).toNat <<< 16 ||| (s.x .sample).toNat : Nat) : Int)
  else
    s.writeTexel (s.getTexel (s.texptrAt (BitVec.ofInt 8 (s.x .btype - 1))).toNat s.cfg.texSize
      (s.x .sample) (s.x .trowr))

/-- `WTEXEL` (45_texel.md R199). -/
def execWtexel (s : State) : Host.Outcome State Fault Refusal := (doWtexel s).outcome

end Sys2Proof.Machine
end

