-- ==== Sys2Proof/Machine/Render.lean ====
section
/-! DEFINITION. Slice output: the composites `DRAW` and `RAY` (44_render.md). -/

namespace Sys2Proof.Machine

/-- The debug line of the two top-down modes, in world units (44_render.md R184). -/
def State.debugLine (s : State) : State :=
  s.emitDraw (.line (s.x .px) (s.x .py) (s.x .hitx) (s.x .hity) true)

/-- The two vertical lines of the solid mode, from the clipped top with the unclipped height
(44_render.md R184). -/
def State.solidSlice (s : State) : State :=
  (s.emitDraw (.vline (s.x .col0) (s.x .y0) (s.x .height) true)).emitDraw
    (.vline (s.x .col0 + 1) (s.x .y0) (s.x .height) true)

/-- The two pixels of one screen row of the textured mode (44_render.md R184, R185). -/
def State.texturedPair (s : State) (row : Int) : State :=
  (s.emitDraw (.pixel (s.x .col0) row (s.bit .txbit))).emitDraw
    (.pixel (s.x .col0 + 1) row (s.bit .txbit))

/-- The row loop of the textured mode: `n` rows from `row`, ascending (44_render.md R184). -/
def texturedRows : Nat → Int → State → Flow
  | 0, _, s => .done s
  | n + 1, row, s =>
    (doTrow row s).andThen fun s => (doWtexel s).andThen fun s =>
      texturedRows n (row + 1) (s.texturedPair row)

/-- The textured slice: `do TSTEP`, then the rows `Y0` to `Y1 - 1` (44_render.md R184). -/
def texturedSlice (s : State) : Flow :=
  (doTstep s).andThen fun s => texturedRows (s.x .y1 - s.x .y0).toNat (s.x .y0) s

/-- `do DRAW` (44_render.md R184); `MODE` is read once, at the start. -/
def doDraw (s : State) : Flow :=
  if s.x .mode = 0 ∨ s.x .mode = 1 then .done s.debugLine
  else if s.x .hit = 0 then .done s
  else
    (doFish s).andThen fun t => (doProj t).andThen fun t => (doSpan t).andThen fun t =>
      if s.x .mode = 2 then .done t.solidSlice else texturedSlice t

/-- `DRAW` (44_render.md R184). -/
def execDraw (s : State) : Host.Outcome State Fault Refusal := (doDraw s).outcome

/-- `RAY` (44_render.md R187): `CAST`, then `DRAW`. -/
def execRay (s : State) : Host.Outcome State Fault Refusal := ((doCast s).andThen doDraw).outcome

end Sys2Proof.Machine
end

