-- ==== Sys2Proof/Machine/System.lean ====
section
/-! DEFINITION. The system commands (46_system.md R205 to R212). -/

namespace Sys2Proof.Machine

/-- `NOP` (46_system.md R205): nothing. -/
def execNop (s : State) : Host.Outcome State Fault Refusal := .next s

/-- A host write of `v` to register `r` by the command whose word is `w`; a write to an `RO` register
raises `BadReg(W)` (46_system.md R206, R207, 60_exceptions.md R229). -/
def State.hostWrite (s : State) (w : Word) (r : Reg) (v : Int) : Flow :=
  if r.readOnly then s.raise .badReg w.toNat else .done (s.set r v)

/-- `WRL REG, imm` (46_system.md R206): the zero-extended immediate. -/
def execWrl (r : Reg) (imm : BitVec 16) (s : State) : Host.Outcome State Fault Refusal :=
  (s.hostWrite (encode (.wrl r imm)) r (zext16 imm)).outcome

/-- `WRH REG, imm` (46_system.md R207): the upper 16 bits, the lower 16 of the stored bits kept. -/
def execWrh (r : Reg) (imm : BitVec 16) (s : State) : Host.Outcome State Fault Refusal :=
  (s.hostWrite (encode (.wrh r imm)) r
    (((imm.toNat <<< 16) ||| (s.stored r &&& 0xFFFF) : Nat) : Int)).outcome

/-- `RD REG` (46_system.md R208): `x[REG] mod 2^32` to the response port. -/
def execRd (r : Reg) (s : State) : Host.Outcome State Fault Refusal := .next (s.emitResp (s.x r))

/-- `LOADMAP` (46_system.md R209): copy the staging registers, recompute the world extents. -/
def execLoadmap (s : State) : Host.Outcome State Fault Refusal :=
  .next (((((s.set .mapbase (s.x .lmbase)).set .mapw (s.x .lmw)).set .maph (s.x .lmh)).set
    .worldw (shl (s.x .lmw) s.cfg.bsLog2)).set .worldh (shl (s.x .lmh) s.cfg.bsLog2))

/-- `SETTEX slot` (46_system.md R210): `TEXPTR[slot] <- x[TDATA]`. -/
def execSettex (slot : BitVec 8) (s : State) : Host.Outcome State Fault Refusal :=
  .next (s.setTexptr slot (BitVec.ofInt 32 (s.x .tdata)))

/-- `GETTEX slot` (46_system.md R211): `TEXPTR[slot]` to the response port. -/
def execGettex (slot : BitVec 8) (s : State) : Host.Outcome State Fault Refusal :=
  .next (s.emitResp (s.texptrAt slot).toNat)

/-- `SRST` (46_system.md R212): the soft reset. -/
def execSrst (s : State) : Host.Outcome State Fault Refusal := .next s.softReset

end Sys2Proof.Machine
end

