-- ==== Sys2Proof/Machine/Dispatch.lean ====
section
/-! DEFINITION. The dispatch: one arm per command, each one direct call of its meaning. -/

namespace Sys2Proof.Machine

def exec (i : Instr) (s : State) : Host.Outcome State Fault Refusal :=
  match i with
  | .nop => Sys2Proof.Machine.execNop s
  | .wrl r imm => Sys2Proof.Machine.execWrl r imm s
  | .wrh r imm => Sys2Proof.Machine.execWrh r imm s
  | .rd r => Sys2Proof.Machine.execRd r s
  | .loadmap => Sys2Proof.Machine.execLoadmap s
  | .settex slot => Sys2Proof.Machine.execSettex slot s
  | .gettex slot => Sys2Proof.Machine.execGettex slot s
  | .srst => Sys2Proof.Machine.execSrst s
  | .cos16 imm => Sys2Proof.Machine.execCos16 imm s
  | .sin16 imm => Sys2Proof.Machine.execSin16 imm s
  | .cos128 imm => Sys2Proof.Machine.execCos128 imm s
  | .norm => Sys2Proof.Machine.execNorm s
  | .decomp => Sys2Proof.Machine.execDecomp s
  | .vsrch => Sys2Proof.Machine.execVsrch s
  | .hsrch => Sys2Proof.Machine.execHsrch s
  | .select => Sys2Proof.Machine.execSelect s
  | .cast => Sys2Proof.Machine.execCast s
  | .fish => Sys2Proof.Machine.execFish s
  | .proj => Sys2Proof.Machine.execProj s
  | .span => Sys2Proof.Machine.execSpan s
  | .tstep => Sys2Proof.Machine.execTstep s
  | .trow imm => Sys2Proof.Machine.execTrow imm s
  | .texel => Sys2Proof.Machine.execTexel s
  | .wtexel => Sys2Proof.Machine.execWtexel s
  | .draw => Sys2Proof.Machine.execDraw s
  | .ray => Sys2Proof.Machine.execRay s

end Sys2Proof.Machine
end

