-- ==== Sys2Proof/Machine/Step.lean ====
section
/-! DEFINITION. One step: the host's next action, to completion (70_reset_and_hazards.md R255). -/

namespace Sys2Proof.Machine

/-- One step of the machine: the host's next action, and the command it gives performed to
completion. -/
def step (s : State) : Host.Outcome State Fault Refusal :=
  match s.takeInput with
  | .settle t => .next t
  | .perform i t => exec i t

/-- `s` with the command word of value `w`, `nbits` bits wide, as the host's next action (log
entry 3). -/
def State.withFetchWord (s : State) (nbits w : Nat) : State :=
  { s with host := .command (BitVec.ofNat 32 (w % 2 ^ nbits)) :: s.host }

end Sys2Proof.Machine
end

