-- ==== Sys2Proof/Safety.lean ====
section
/-! DEFINITION. The terms claims use: frames, the record of a fault, an answered map, the
crossings of a search, the closed forms of a slice and a texel, the classes of command words, and the
invariant of a safe run. -/

namespace Sys2Proof.Machine

/-- From `s` to `t` every register but those listed reads the same. -/
def KeepsRegs (rs : List Reg) (s t : State) : Prop := ∀ r, r ∉ rs → t.x r = s.x r

/-- From `s` to `t` every address of memory answers the same: the same byte, or not at all
(20_memory.md R63, R67). -/
def KeepsMem (s t : State) : Prop := ∀ a, t.byteAt a = s.byteAt a

/-- From `s` to `t` both output ports hold the same (10_state.md R39). -/
def KeepsPorts (s t : State) : Prop := t.resp = s.resp ∧ t.draw = s.draw

/-- From `s` to `t` the build parameters and the host's further actions are the same. -/
def KeepsHost (s t : State) : Prop := t.cfg = s.cfg ∧ t.host = s.host

/-- From `s` to `t` nothing changes but the listed registers. -/
def ChangesOnly (rs : List Reg) (s t : State) : Prop :=
  KeepsRegs rs s t ∧ t.texptr = s.texptr ∧ KeepsPorts s t ∧ KeepsMem s t ∧ KeepsHost s t

/-- From `s` to `t` nothing changes but the listed registers and the draw port. -/
def ChangesOnlyAndDraws (rs : List Reg) (s t : State) : Prop :=
  KeepsRegs rs s t ∧ t.texptr = s.texptr ∧ t.resp = s.resp ∧ KeepsMem s t ∧ KeepsHost s t

/-- `t` is `s` after the fault `c` with information `info` is raised: the first fault since reset is
recorded, a later one is not, and nothing else changes (60_exceptions.md R226). -/
def RecordsFault (c : FaultCause) (info : Int) (s t : State) : Prop :=
  (s.x .status = 0 →
    t.x .status = 1 ∧ t.x .fcause = c.code ∧ t.x .finfo = info % 2 ^ 32) ∧
  (s.x .status ≠ 0 →
    t.x .status = s.x .status ∧ t.x .fcause = s.x .fcause ∧ t.x .finfo = s.x .finfo) ∧
  ChangesOnly [.status, .fcause, .finfo] s t

/-- The command raises the fault `c` with information `info` and has no other effect. -/
def Raises (i : Instr) (s : State) (c : FaultCause) (info : Int) : Prop :=
  ∃ t, exec i s = .next t ∧ RecordsFault c info s t

/-- `CellAddr(col, row)` of the active map (20_memory.md R64). -/
def State.cellAddr (s : State) (col row : Int) : Nat :=
  ((s.x .mapbase + row * s.x .mapw + col) % 2 ^ 32).toNat

/-- The platform answers every cell of the active map (70_reset_and_hazards.md R258). -/
def State.MapAnswered (s : State) : Prop :=
  ∀ col row, 0 ≤ col → col < s.x .mapw → 0 ≤ row → row < s.x .maph →
    (s.byteAt (s.cellAddr col row)).isSome

/-- The `k`-th crossing of the vertical-line search, x and y (42_dda_search.md R137). -/
def State.vCross (s : State) (k : Nat) : Int × Int :=
  let x0 := firstLine s.cfg (s.x .px) s.sxn
  (x0 + k * blockStep s.cfg s.sxn,
    firstCross s.cfg (s.x .py) (x0 - s.x .px) (s.x .tanv) s.syn + k * (signOf s.syn * s.x .tanv))

/-- The cell the vertical-line search examines at its `k`-th crossing (42_dda_search.md R137). -/
def State.vCell (s : State) (k : Nat) : Except Word (Option Byte) :=
  s.cell (asr (s.vCross k).1 s.cfg.bsLog2 + farSide s.sxn) (asr (s.vCross k).2 s.cfg.bsLog2)

/-- The `k`-th crossing of the horizontal-line search, x and y (42_dda_search.md R138). -/
def State.hCross (s : State) (k : Nat) : Int × Int :=
  let y0 := firstLine s.cfg (s.x .py) s.syn
  (firstCross s.cfg (s.x .px) (y0 - s.x .py) (s.x .tanh) s.sxn + k * (signOf s.sxn * s.x .tanh),
    y0 + k * blockStep s.cfg s.syn)

/-- The cell the horizontal-line search examines at its `k`-th crossing (42_dda_search.md R138). -/
def State.hCell (s : State) (k : Nat) : Except Word (Option Byte) :=
  s.cell (asr (s.hCross k).1 s.cfg.bsLog2) (asr (s.hCross k).2 s.cfg.bsLog2 + farSide s.syn)

/-- The registers `NORM`, `DECOMP`, `VSRCH`, `HSRCH` and `SELECT` write (42_dda_search.md R148). -/
def castRegs : List Reg :=
  [.angn, .quad, .cosm, .sinm, .tanv, .tanh, .dflags, .vfound, .lenv, .vx, .vy, .vtype,
   .hfound, .lenh, .hx, .hy, .htype, .hit, .side, .dist, .btype, .hitx, .hity, .sample, .orient]

/-- `CORR` of a ray length and a fish-eye index (43_projector.md R161). -/
def correctedLength (dist d : Int) : Int := dist * c128 d / 128

/-- `HEIGHT` of a corrected length (43_projector.md R162). -/
def sliceHeight (c : Config) (corr : Int) : Int := if corr = 0 then c.projConst else c.projConst / corr

/-! The slice of the hit held in the hit registers, in closed form (43_projector.md R161 to R165). -/

/-- The fish-eye index of the ray (43_projector.md R161). -/
def State.rayOffset (s : State) : Int := |s.x .ray - s.cfg.centerRay|

/-- `HEIGHT` of the hit (43_projector.md R161, R162). -/
def State.hitHeight (s : State) : Int := sliceHeight s.cfg (correctedLength (s.x .dist) s.rayOffset)

/-- `YTOP` of the hit (43_projector.md R163). -/
def State.hitTop (s : State) : Int := (s.cfg.screenH : Int) / 2 - s.hitHeight / 2

/-- `Y0` of the hit, its first visible row (43_projector.md R163). -/
def State.firstRow (s : State) : Int := max s.hitTop 0

/-- `Y1` of the hit, the row after its last visible row (43_projector.md R163). -/
def State.endRow (s : State) : Int := min (s.hitTop + s.hitHeight) s.cfg.screenH

/-- `TSTEP` of the hit (43_projector.md R164). -/
def State.hitStep (s : State) : Int :=
  if s.hitHeight = 0 then 0 else s.cfg.texSize * 2 ^ s.cfg.texFp / s.hitHeight

/-- The texture row of a screen row of the hit (43_projector.md R165). -/
def State.texRow (s : State) (row : Int) : Int := s.hitStep * (row - s.hitTop) / 2 ^ s.cfg.texFp

/-- From `s` to `t` the projection registers take the slice of the hit held in `s` (43_projector.md
R161 to R163). -/
def Projects (s t : State) : Prop :=
  t.x .corr = correctedLength (s.x .dist) s.rayOffset ∧ t.x .height = s.hitHeight ∧
  t.x .col0 = 2 * s.x .ray ∧ t.x .ytop = s.hitTop ∧ t.x .y0 = s.firstRow ∧ t.x .y1 = s.endRow

/-- Texel `(x, y)` of a bitmap of the given width at `base`: bit `7 - index mod 8` of the byte at
`base + index / 8`, `none` where the byte is not answered (45_texel.md R196, 20_memory.md R65). -/
def State.texelAt (s : State) (base width x y : Int) : Option Bool :=
  (s.byteAt ((base + (y * width + x) / 8) % 2 ^ 32).toNat).map
    fun b => b.getLsbD (7 - ((y * width + x) % 8).toNat)

/-- The texel of a screen row of the hit: column `SAMPLE`, row `texRow`, of the texture in slot
`BTYPE - 1` (45_texel.md R199). -/
def State.hitTexel (s : State) (row : Int) : Option Bool :=
  s.texelAt (s.texptrAt (BitVec.ofNat 8 ((s.x .btype).toNat - 1))).toNat s.cfg.texSize (s.x .sample)
    (s.texRow row)

/-- The two pixels of every screen row from `first`, `n` rows, coloured by `bit`: left column first,
rows ascending (44_render.md R184, R185). -/
def State.hitPixels (s : State) (bit : Int → Bool) (first : Int) (n : Nat) : List DrawEvent :=
  (List.range n).flatMap fun (k : Nat) =>
    [.pixel (2 * s.x .ray) (first + k) (bit (first + k)),
     .pixel (2 * s.x .ray + 1) (first + k) (bit (first + k))]

/-- The hit registers hold a hit that the textured mode projects (44_render.md R184). -/
def State.DrawsTextured (s : State) : Prop :=
  s.cfg.Legal ∧ s.x .mode = 3 ∧ s.x .hit = 1 ∧ s.rayOffset ≤ 90

/-- The block type of the hit has a populated texture slot (45_texel.md R199). -/
def State.HasTexture (s : State) : Prop := s.x .btype ≠ 0 ∧ s.x .btype ≤ s.x .texcnt

/-- The active map registers (10_state.md R37). -/
def mapRegs : List Reg := [.mapbase, .mapw, .maph, .worldw, .worldh]

/-- Is the opcode one of the 26 assigned (30_encoding.md R88)? -/
def opcodeAssigned (op : BitVec 8) : Bool :=
  [0x00, 0x01, 0x02, 0x03, 0x04, 0x05, 0x06, 0x07, 0x10, 0x11, 0x12, 0x13, 0x20, 0x30, 0x31, 0x32,
   0x33, 0x40, 0x41, 0x42, 0x43, 0x44, 0x50, 0x51, 0x60, 0x61].contains op.toNat

/-- The must-be-zero field of the opcode's format is zero: format I, format S, `RD`, none for `WRL`
and `WRH`, else format N (30_encoding.md R89 step 3). -/
def mustBeZeroClear (w : Word) : Bool :=
  let op := (opField w).toNat
  if [0x10, 0x11, 0x12, 0x44].contains op then w.extractLsb' 16 8 == 0
  else if [0x05, 0x06].contains op then w.extractLsb' 8 16 == 0
  else if op = 0x03 then w.extractLsb' 0 16 == 0
  else if op = 0x01 ∨ op = 0x02 then true
  else w.extractLsb' 0 24 == 0

/-- `A` is the index of a register (30_encoding.md R89 step 4). -/
def namesRegister (w : Word) : Bool := Reg.all.any fun r => r.index == aField w

/-- `A` is the index of an `RO` register (30_encoding.md R89 step 5). -/
def namesReadOnly (w : Word) : Bool := Reg.all.any fun r => r.index == aField w && r.readOnly

/-- Every word of a class is refused by the port with the fault `c` and the word as its information,
in every state where the port does not drop it, and has no other effect (30_encoding.md R89). -/
def Refuses (bad : Word → Prop) (c : FaultCause) : Prop :=
  ∀ (s : State) (w : Word) (rest : List HostInput), s.host = .command w :: rest → bad w →
    (s.x .status = 0 ∨ opField w = 0x03 ∨ opField w = 0x06 ∨ opField w = 0x07) →
    ∃ t, step s = .next t ∧ RecordsFault c w.toNat { s with host := rest } t

/-- The fault registers agree: no fault is recorded as all zeros, a fault by one of the six cause
codes (60_exceptions.md R226, R227). -/
def State.FaultRecordOk (s : State) : Prop :=
  (s.x .status = 0 → s.x .fcause = 0 ∧ s.x .finfo = 0) ∧
  (s.x .status ≠ 0 → 1 ≤ s.x .fcause ∧ s.x .fcause ≤ 6)

/-- The cached extents agree with the map's dimensions (10_state.md R37). -/
def State.ExtentsOk (s : State) : Prop :=
  s.x .worldw = s.x .mapw * s.cfg.bs % 2 ^ 16 ∧ s.x .worldh = s.x .maph * s.cfg.bs % 2 ^ 16

/-- The memory is in canonical form, and lists only addresses that the platform answers
(20_memory.md R67). -/
def State.MemoryOk (s : State) : Prop := Memory.wf s.mem ∧ ∀ c ∈ s.mem, s.cfg.answers c.1 = true

/-- The invariant of a safe run: the memory keeps its canonical form inside `MemValid`, the fault
registers agree, the extents agree with the dimensions. -/
def State.Inv (s : State) : Prop := s.MemoryOk ∧ s.FaultRecordOk ∧ s.ExtentsOk

end Sys2Proof.Machine
end

