-- ==== Sys2Proof/Certificates/Slice0/Obligations.lean ====
section
/-! DEFINITION. The statements for the provers, from the numbered rules of spec/. -/

open Sys2Proof Sys2Proof.Machine

/-! ## Encoding and the command port -/

/-- A word the port does not drop and the decoder reads as `i` is taken from the host and performed:
the step is `exec i` on the state without that word (30_encoding.md R80, R89). -/
def Obligations.StepRunsDecodedCommand : Prop :=
  ∀ (s : State) (w : Word) (rest : List HostInput) (i : Instr),
    s.host = .command w :: rest →
    (s.x .status = 0 ∨ opField w = 0x03 ∨ opField w = 0x06 ∨ opField w = 0x07) →
    decode w = .ok i →
    step s = exec i { s with host := rest }

/-- Every well-formed command decodes from its own word (30_encoding.md R82 to R88). -/
def Obligations.DecodeOfEncodeReturnsCommand : Prop :=
  ∀ i : Instr, i.wellFormed = true → decode (encode i) = .ok i

/-- A word that decodes is the word of the command it decodes to, and that command is well formed: no
bit of an accepted word is ignored (30_encoding.md R90). -/
def Obligations.EncodeOfDecodeReturnsWord : Prop :=
  ∀ (w : Word) (i : Instr), decode w = .ok i → encode i = w ∧ i.wellFormed = true

/-- Words of the spec's own examples decode to the commands they stand for (30_encoding.md R92). -/
def Obligations.SpecExampleWordsDecode : Prop :=
  decode 0x33000000 = .ok .cast ∧ decode 0x1000002D = .ok (.cos16 45) ∧
  decode 0x4400FFFD = .ok (.trow 0xFFFD) ∧ decode 0x01000060 = .ok (.wrl .px 96) ∧
  decode 0x0102FFA6 = .ok (.wrl .angle 0xFFA6) ∧ decode 0x02050001 = .ok (.wrh .lmbase 1) ∧
  decode 0x032A0000 = .ok (.rd .dist) ∧ decode 0x05000000 = .ok (.settex 0)

/-- The port decodes in the order of 30_encoding.md R89: drop, unassigned opcode or non-zero
must-be-zero field, no such register, read-only register, perform. The word is taken from the host in
every case. -/
def Obligations.CommandPortFollowsDecodeOrder : Prop :=
  ∀ (s : State) (w : Word) (rest : List HostInput), s.host = .command w :: rest →
    let t0 : State := { s with host := rest }
    let op := opField w
    if s.x .status = 1 ∧ op ≠ 0x03 ∧ op ≠ 0x06 ∧ op ≠ 0x07 then step s = .next t0
    else if opcodeAssigned op = false then
      ∃ t, step s = .next t ∧ RecordsFault .illegalCmd w.toNat t0 t
    else if mustBeZeroClear w = false then
      ∃ t, step s = .next t ∧ RecordsFault .illegalCmd w.toNat t0 t
    else if (op = 0x01 ∨ op = 0x02 ∨ op = 0x03) ∧ namesRegister w = false then
      ∃ t, step s = .next t ∧ RecordsFault .badReg w.toNat t0 t
    else if (op = 0x01 ∨ op = 0x02) ∧ namesReadOnly w = true then
      ∃ t, step s = .next t ∧ RecordsFault .badReg w.toNat t0 t
    else ∃ i, i.wellFormed = true ∧ encode i = w ∧ step s = exec i t0

/-- While `STATUS.F = 1` every word but `RD`, `GETTEX`, `SRST` leaves the block as it is, illegal words
too (60_exceptions.md R233). -/
def Obligations.FaultStateDropsCommands : Prop :=
  ∀ (s : State) (w : Word) (rest : List HostInput), s.host = .command w :: rest →
    s.x .status = 1 → opField w ≠ 0x03 → opField w ≠ 0x06 → opField w ≠ 0x07 →
    step s = .next { s with host := rest }

/-- Every step answers a next state, takes exactly one of the host's actions, never changes the build
parameters (the answered addresses among them, 00_scope.md R7), and changes memory only where that
action is a host store to an answered address (model's choice of the host's list: log entry 3). -/
def Obligations.EveryStepTakesOneHostAction : Prop :=
  ∀ s : State, ∃ t, step s = .next t ∧ t.cfg = s.cfg ∧ t.host = s.host.tail ∧
    match s.host with
    | .store a b :: _ => ∀ k : Nat, t.byteAt k =
        if k = a.toNat ∧ s.cfg.answers k = true then some b else s.byteAt k
    | _ => KeepsMem s t

/-- With no command given the block waits unchanged (70_reset_and_hazards.md R255; the model's reading
of an empty host list: log entry 3). -/
def Obligations.BlockWaitsWithoutCommand : Prop :=
  ∀ s : State, s.host = [] → step s = .next s

/-! ## Reset, invariant, ports, memory -/

/-- After a hardware reset, for every build and every memory, and after `SRST`, from any state, every
register and texture pointer is 0 (10_state.md R42); the hardware reset also empties both ports
(70_reset_and_hazards.md R250). -/
def Obligations.ResetStateIsAllZero : Prop :=
  (∀ (c : Config) (m : Memory), let s := State.resetOf c m
    (∀ r, s.x r = 0) ∧ (∀ i, s.texptrAt i = 0) ∧ s.resp = [] ∧ s.draw = []) ∧
  (∀ s : State, ∃ t, exec .srst s = .next t ∧ (∀ r, t.x r = 0) ∧ (∀ i, t.texptrAt i = 0))

/-- The hardware reset as the host's action, from any state: registers, table and ports as after reset;
memory and build unchanged, the host's later actions still to come (log entry 5). -/
def Obligations.HardwareResetFromAnyState : Prop :=
  ∀ (s : State) (rest : List HostInput), s.host = .hardReset :: rest →
    ∃ t, step s = .next t ∧ (∀ r, t.x r = 0) ∧ (∀ i, t.texptrAt i = 0) ∧ t.resp = [] ∧
      t.draw = [] ∧ KeepsMem s t ∧ t.cfg = s.cfg ∧ t.host = rest

/-- The state right after reset has the invariant, for every build and every canonical memory inside
its answered addresses. -/
def Obligations.ResetHasInvariant : Prop :=
  State.reset.Inv ∧ ∀ (c : Config) (m : Memory), Memory.wf m →
    (∀ cell ∈ m, c.answers cell.1 = true) → (State.resetOf c m).Inv

/-- Every step keeps the invariant: canonical memory inside the
answered addresses, agreeing fault registers, extents that agree with
the map's dimensions (10_state.md R37, 60_exceptions.md R226, R227). -/
def Obligations.StepKeepsInvariant : Prop :=
  ∀ s t : State, s.Inv → step s = .next t → t.Inv

/-- No command writes external memory (20_memory.md R63). -/
def Obligations.BlockNeverWritesMemory : Prop :=
  ∀ (i : Instr) (s : State), ∃ t, exec i s = .next t ∧ KeepsMem s t ∧ KeepsHost s t

/-- The ports only grow under commands; only `RD` and `GETTEX` append to the response port, one word
each; only `DRAW` and `RAY` append to the draw port (10_state.md R39, 30_encoding.md R94). -/
def Obligations.CommandsOnlyExtendThePorts : Prop :=
  ∀ (i : Instr) (s : State), ∃ t, exec i s = .next t ∧
    (match i with
      | .rd _ | .gettex _ => ∃ w, t.resp = s.resp ++ [w]
      | _ => t.resp = s.resp) ∧
    (match i with
      | .draw | .ray => ∃ es, t.draw = s.draw ++ es
      | _ => t.draw = s.draw)

/-- Only `SRST` and the hardware reset clear `F`, and both put every register at 0 (60_exceptions.md
R237). -/
def Obligations.OnlyResetsClearTheFaultBit : Prop :=
  (∀ s t : State, s.x .status = 1 → step s = .next t → t.x .status = 0 →
    (s.host.head? = some (.command 0x07000000) ∨ s.host.head? = some .hardReset) ∧
      ∀ r, t.x r = 0) ∧
  (∀ s : State, s.host.head? = some (.command 0x07000000) ∨ s.host.head? = some .hardReset →
    ∃ t, step s = .next t ∧ ∀ r, t.x r = 0)

/-- A draw event packs as five words: the kind in bits 31:28 and the colour in bit 0 of the header, the
rest of the header 0; arguments of 32-bit range read back signed (30_encoding.md R95). -/
def Obligations.DrawEventPacksAsFiveWords : Prop :=
  ∀ (x y h x1 y1 : Int) (c : Bool),
    -2 ^ 31 ≤ x ∧ x < 2 ^ 31 → -2 ^ 31 ≤ y ∧ y < 2 ^ 31 → -2 ^ 31 ≤ h ∧ h < 2 ^ 31 →
    -2 ^ 31 ≤ x1 ∧ x1 < 2 ^ 31 → -2 ^ 31 ≤ y1 ∧ y1 < 2 ^ 31 →
    let header (k : Nat) : Word := BitVec.ofNat 32 (k * 2 ^ 28 + c.toNat)
    ((DrawEvent.pixel x y c).words.head? = some (header 1) ∧
      (DrawEvent.pixel x y c).words.tail.map BitVec.toInt = [x, y, 0, 0]) ∧
    ((DrawEvent.vline x y h c).words.head? = some (header 2) ∧
      (DrawEvent.vline x y h c).words.tail.map BitVec.toInt = [x, y, h, 0]) ∧
    ((DrawEvent.line x y x1 y1 c).words.head? = some (header 3) ∧
      (DrawEvent.line x y x1 y1 c).words.tail.map BitVec.toInt = [x, y, x1, y1])

/-! ## System commands -/

/-- `NOP` (46_system.md R205): nothing is touched; `IllegalCmd` when `W[23:0]` is not 0. -/
def Obligations.NopTouchesNothing : Prop :=
  encode .nop = 0x00000000 ∧ (∀ s : State, exec .nop s = .next s) ∧
  Refuses (fun w => opField w = 0x00 ∧ mustBeZeroClear w = false) .illegalCmd

/-- `WRL` (46_system.md R206): the register takes the zero-extended immediate mod 2^w, nothing else
changes; on no register or an `RO` register `BadReg` with the command word. -/
def Obligations.WrlStoresZeroExtendedImmediate : Prop :=
  Refuses (fun w => opField w = 0x01 ∧ (namesRegister w = false ∨ namesReadOnly w = true)) .badReg ∧
  ∀ (r : Reg) (imm : BitVec 16) (s : State),
    (encode (.wrl r imm)).toNat = 0x01000000 + r.index.toNat * 2 ^ 16 + imm.toNat ∧
    if r.readOnly then Raises (.wrl r imm) s .badReg (encode (.wrl r imm)).toNat
    else ∃ t, exec (.wrl r imm) s = .next t ∧
      (t.stored r = imm.toNat % 2 ^ r.width) ∧ ChangesOnly [r] s t

/-- `WRH` (46_system.md R207): the stored bits are the immediate above the old lower half, mod 2^w; a
register of 16 bits or fewer keeps its value; on no register or an `RO` register `BadReg` with the
command word. -/
def Obligations.WrhKeepsLowerHalf : Prop :=
  Refuses (fun w => opField w = 0x02 ∧ (namesRegister w = false ∨ namesReadOnly w = true)) .badReg ∧
  ∀ (r : Reg) (imm : BitVec 16) (s : State),
    (encode (.wrh r imm)).toNat = 0x02000000 + r.index.toNat * 2 ^ 16 + imm.toNat ∧
    if r.readOnly then Raises (.wrh r imm) s .badReg (encode (.wrh r imm)).toNat
    else ∃ t, exec (.wrh r imm) s = .next t ∧
      (t.stored r = (imm.toNat * 2 ^ 16 + s.stored r % 2 ^ 16) % 2 ^ r.width) ∧
      (r.width ≤ 16 → t.x r = s.x r) ∧ ChangesOnly [r] s t

/-- `RD` (46_system.md R208): one word, the register's value mod 2^32; nothing else changes.
`IllegalCmd` when `IMM` is not 0, else `BadReg` when there is no such register. -/
def Obligations.RdAppendsRegisterValue : Prop :=
  Refuses (fun w => opField w = 0x03 ∧ mustBeZeroClear w = false) .illegalCmd ∧
  Refuses (fun w => opField w = 0x03 ∧ mustBeZeroClear w = true ∧ namesRegister w = false) .badReg ∧
  ∀ (r : Reg) (s : State), (encode (.rd r)).toNat = 0x03000000 + r.index.toNat * 2 ^ 16 ∧ ∃ t w, exec (.rd r) s = .next t ∧
    t.resp = s.resp ++ [w] ∧ (w.toNat : Int) = s.x r % 2 ^ 32 ∧
    KeepsRegs [] s t ∧ t.texptr = s.texptr ∧ t.draw = s.draw ∧ KeepsMem s t ∧ KeepsHost s t

/-- `LOADMAP` (46_system.md R209): the active map takes the staging registers, the extents are the
dimensions times the block size; nothing else changes. -/
def Obligations.LoadmapReplacesTheMap : Prop :=
  encode .loadmap = 0x04000000 ∧ ∀ s : State, s.cfg.Legal → ∃ t, exec .loadmap s = .next t ∧
    t.x .mapbase = s.x .lmbase ∧ t.x .mapw = s.x .lmw ∧ t.x .maph = s.x .lmh ∧
    t.x .worldw = s.x .lmw * s.cfg.bs ∧ t.x .worldh = s.x .lmh * s.cfg.bs ∧
    ChangesOnly [.mapbase, .mapw, .maph, .worldw, .worldh] s t

/-- Only `LOADMAP` writes the active map registers, all five at once, and only `SETTEX` writes the
texture table, the two resets apart: of the commands, and of the host's actions at the ports
(10_state.md R37, R38). -/
def Obligations.OnlyLoadmapChangesTheMap : Prop :=
  (∀ (i : Instr) (s : State), ∃ t, exec i s = .next t ∧
    (i ≠ .loadmap → i ≠ .srst → ∀ r ∈ mapRegs, t.x r = s.x r) ∧
    ((∀ slot, i ≠ .settex slot) → i ≠ .srst → t.texptr = s.texptr)) ∧
  (∀ s t : State, step s = .next t →
    s.host.head? ≠ some (.command 0x07000000) → s.host.head? ≠ some .hardReset →
    (s.host.head? ≠ some (.command 0x04000000) → ∀ r ∈ mapRegs, t.x r = s.x r) ∧
    ((∀ slot : BitVec 8, s.host.head? ≠ some (.command (0x05000000 + slot.setWidth 32))) →
      t.texptr = s.texptr))

/-- `SETTEX` (46_system.md R210): the slot takes `TDATA`; no other slot, register or port changes;
`IllegalCmd` when `W[23:8]` is not 0. -/
def Obligations.SettexWritesOneSlot : Prop :=
  Refuses (fun w => opField w = 0x05 ∧ mustBeZeroClear w = false) .illegalCmd ∧
  ∀ (slot : BitVec 8) (s : State),
    (encode (.settex slot)).toNat = 0x05000000 + slot.toNat ∧
    ∃ t, exec (.settex slot) s = .next t ∧
      ((t.texptrAt slot).toNat : Int) = s.x .tdata ∧
      (∀ j, j ≠ slot → t.texptrAt j = s.texptrAt j) ∧
      KeepsRegs [] s t ∧ KeepsPorts s t ∧ KeepsMem s t ∧ KeepsHost s t

/-- `GETTEX` (46_system.md R211): one word, the slot's pointer; nothing else changes; `IllegalCmd`
when `W[23:8]` is not 0. -/
def Obligations.GettexAppendsPointer : Prop :=
  Refuses (fun w => opField w = 0x06 ∧ mustBeZeroClear w = false) .illegalCmd ∧
  ∀ (slot : BitVec 8) (s : State),
    (encode (.gettex slot)).toNat = 0x06000000 + slot.toNat ∧
    ∃ t, exec (.gettex slot) s = .next t ∧ t.resp = s.resp ++ [s.texptrAt slot] ∧
      KeepsRegs [] s t ∧ t.texptr = s.texptr ∧ t.draw = s.draw ∧ KeepsMem s t ∧ KeepsHost s t

/-- `SRST` (46_system.md R212): every register and texture pointer 0; ports, memory, build and the
host's later actions stay; `IllegalCmd` when `W[23:0]` is not 0, a first fault then kept. -/
def Obligations.SrstClearsRegistersAndTable : Prop :=
  Refuses (fun w => opField w = 0x07 ∧ mustBeZeroClear w = false) .illegalCmd ∧
  encode .srst = 0x07000000 ∧ ∀ s : State, ∃ t, exec .srst s = .next t ∧
    (∀ r, t.x r = 0) ∧ (∀ i, t.texptrAt i = 0) ∧ KeepsPorts s t ∧ KeepsMem s t ∧ KeepsHost s t

/-! ## Trigonometric ROM and normalisation -/

/-- `COS16` (40_trig_rom.md R104): the 16-scale entry, or `TrigIndex` outside 0 to 359. -/
def Obligations.Cos16LooksUpCosine : Prop :=
  ∀ (imm : BitVec 16) (s : State),
    (encode (.cos16 imm)).toNat = 0x10000000 + imm.toNat ∧
    if imm.toInt < 0 ∨ imm.toInt > 359 then Raises (.cos16 imm) s .trigIndex imm.toInt
    else ∃ t, exec (.cos16 imm) s = .next t ∧ t.x .trig = c16 imm.toInt ∧ ChangesOnly [.trig] s t

/-- `SIN16` (40_trig_rom.md R105): the 16-scale entry 90 degrees back, or `TrigIndex` outside 0 to
359. -/
def Obligations.Sin16LooksUpShiftedCosine : Prop :=
  ∀ (imm : BitVec 16) (s : State),
    (encode (.sin16 imm)).toNat = 0x11000000 + imm.toNat ∧
    if imm.toInt < 0 ∨ imm.toInt > 359 then Raises (.sin16 imm) s .trigIndex imm.toInt
    else ∃ t, exec (.sin16 imm) s = .next t ∧
      (90 ≤ imm.toInt → t.x .trig = c16 (imm.toInt - 90)) ∧
      (imm.toInt < 90 → t.x .trig = c16 (imm.toInt + 270)) ∧ ChangesOnly [.trig] s t

/-- `COS128` (40_trig_rom.md R106): the 128-scale entry, or `TrigIndex` outside 0 to 90. -/
def Obligations.Cos128LooksUpCosine : Prop :=
  ∀ (imm : BitVec 16) (s : State),
    (encode (.cos128 imm)).toNat = 0x12000000 + imm.toNat ∧
    if imm.toInt < 0 ∨ imm.toInt > 90 then Raises (.cos128 imm) s .trigIndex imm.toInt
    else ∃ t, exec (.cos128 imm) s = .next t ∧ t.x .trig = c128 imm.toInt ∧ ChangesOnly [.trig] s t

/-- `NORM` (40_trig_rom.md R107, R109): `ANGN` is the one value in 0 to 359 that differs from `ANGLE`
by a multiple of 360. -/
def Obligations.NormFindsEquivalentAngle : Prop :=
  encode .norm = 0x13000000 ∧ ∀ s : State, ∃ t, exec .norm s = .next t ∧
    0 ≤ t.x .angn ∧ t.x .angn < 360 ∧ (360 : Int) ∣ t.x .angn - s.x .angle ∧
    ChangesOnly [.angn] s t

/-- The contract of the two tables (40_trig_rom.md R108 a to e and g), and the transcriber's sums of
R101 and R102. -/
def Obligations.RomTablesAreSymmetricAndMonotone : Prop :=
  (∀ a : Fin 360, c16 a = c16 ((360 - a) % 360) ∧ c16 a = -c16 ((a + 180) % 360) ∧
    c16 a = -c16 ((180 - a) % 360)) ∧
  (∀ a : Fin 180, c16 (a + 1) ≤ c16 a) ∧
  (∀ a : Fin 179, c16 (a + 180) ≤ c16 (a + 181)) ∧
  (∀ a : Fin 90, c128 (a + 1) ≤ c128 a) ∧
  (∀ a : Fin 91, -131 ≤ c128 a ^ 2 + c128 (90 - a) ^ 2 - 128 ^ 2 ∧
    c128 a ^ 2 + c128 (90 - a) ^ 2 - 128 ^ 2 ≤ 178) ∧
  ((List.range 360).map fun a => c16 a).sum = 0 ∧
  ((List.range 360).map fun a => (c16 a).natAbs).sum = 3676 ∧
  ((List.range 91).map fun a => c128 a).sum = 7400

/-! ## Angle decomposition -/

/-- `DECOMP` (41_angle_decomp.md R121, R122): by quadrant, the reflected index, the magnitudes, the
tangents guarded at zero, the step and orientation and skip flags; `TrigIndex` above 359. -/
def Obligations.DecompDecomposesTheAngle : Prop :=
  encode .decomp = 0x20000000 ∧ ∀ s : State,
    if s.x .angn > 359 then Raises .decomp s .trigIndex (s.x .angn)
    else ∃ t rc, exec .decomp s = .next t ∧
      (s.x .angn ≤ 90 →
        t.x .quad = 0 ∧ rc = s.x .angn ∧ t.sxn = false ∧ t.syn = false) ∧
      (90 < s.x .angn ∧ s.x .angn ≤ 180 →
        t.x .quad = 1 ∧ rc = 180 - s.x .angn ∧ t.sxn = true ∧ t.syn = false) ∧
      (180 < s.x .angn ∧ s.x .angn < 270 →
        t.x .quad = 2 ∧ rc = s.x .angn - 180 ∧ t.sxn = true ∧ t.syn = true) ∧
      (270 ≤ s.x .angn →
        t.x .quad = 3 ∧ rc = 360 - s.x .angn ∧ t.sxn = false ∧ t.syn = true) ∧
      t.x .cosm = c128 rc ∧ t.x .sinm = c128 (90 - rc) ∧
      t.x .tanv = (if c128 rc = 0 then 0
        else c128 (90 - rc) * s.cfg.bs / c128 rc % 2 ^ 32) ∧
      t.x .tanh = (if c128 (90 - rc) = 0 then 0
        else c128 rc * s.cfg.bs / c128 (90 - rc) % 2 ^ 32) ∧
      t.orv = t.sxn ∧ t.orh = !t.syn ∧
      t.skipv = (c128 rc == 0) ∧ t.skiph = (c128 (90 - rc) == 0) ∧
      ChangesOnly [.quad, .cosm, .sinm, .tanv, .tanh, .dflags] s t

/-- The magnitudes are the entries of the reflected angle and of its complement; they vanish exactly at
the cardinal angles and never together (41_angle_decomp.md R123). -/
def Obligations.MagnitudesVanishAtCardinalAngles : Prop :=
  ∀ s : State, s.x .angn ≤ 359 → ∃ t, exec .decomp s = .next t ∧
    t.x .cosm = c128 (reflected (s.x .angn)) ∧ t.x .sinm = c128 (90 - reflected (s.x .angn)) ∧
    0 ≤ t.x .cosm ∧ t.x .cosm ≤ 128 ∧ 0 ≤ t.x .sinm ∧ t.x .sinm ≤ 128 ∧
    (t.x .cosm = 0 ↔ s.x .angn = 90 ∨ s.x .angn = 270) ∧
    (t.x .sinm = 0 ↔ s.x .angn = 0 ∨ s.x .angn = 180) ∧
    ¬ (t.x .cosm = 0 ∧ t.x .sinm = 0)

/-! ## Search, selection, cast -/

/-- The first grid line: a multiple of the block size, going positive 1 to BS units strictly ahead,
going negative 0 to BS - 1 units behind (42_dda_search.md R137, R138). -/
def Obligations.FirstGridLineIsNearestAhead : Prop :=
  ∀ (c : Config) (p : Int), 0 ≤ p →
    c.bs ∣ firstLine c p false ∧ p < firstLine c p false ∧ firstLine c p false ≤ p + c.bs ∧
    c.bs ∣ firstLine c p true ∧ p - c.bs < firstLine c p true ∧ firstLine c p true ≤ p

/-- The bounds of a crossing in world coordinates (42_dda_search.md R139): on a vertical line
`x = k * BS`, and on a horizontal line `y = k * BS`, the cell examined is in the map exactly when these
ranges hold. -/
def Obligations.CrossingBounds : Prop :=
  ∀ (s : State) (k v : Int), s.cfg.Legal → s.ExtentsOk →
    let u := k * s.cfg.bs
    (s.cell (asr u s.cfg.bsLog2 + farSide false) (asr v s.cfg.bsLog2) ≠ .ok none ↔
      0 ≤ u ∧ u < s.x .worldw ∧ 0 ≤ v ∧ v < s.x .worldh) ∧
    (s.cell (asr u s.cfg.bsLog2 + farSide true) (asr v s.cfg.bsLog2) ≠ .ok none ↔
      s.cfg.bs ≤ u ∧ u ≤ s.x .worldw ∧ 0 ≤ v ∧ v < s.x .worldh) ∧
    (s.cell (asr v s.cfg.bsLog2) (asr u s.cfg.bsLog2 + farSide false) ≠ .ok none ↔
      0 ≤ v ∧ v < s.x .worldw ∧ 0 ≤ u ∧ u < s.x .worldh) ∧
    (s.cell (asr v s.cfg.bsLog2) (asr u s.cfg.bsLog2 + farSide true) ≠ .ok none ↔
      0 ≤ v ∧ v < s.x .worldw ∧ s.cfg.bs ≤ u ∧ u ≤ s.x .worldh)

/-- `VSRCH` (42_dda_search.md R137, R143): skipped, it reports no hit at the player. Otherwise it
passes empty cells up to some crossing `k`, `k` at most `MAPW` (R142), and ends there: outside the
map, at a solid cell, or with `MemFault` where the byte is not answered. -/
def Obligations.VsrchWalksVerticalLines : Prop :=
  encode .vsrch = 0x30000000 ∧
  (∀ s : State, s.skipv = true → ∃ t, exec .vsrch s = .next t ∧
    t.x .vfound = 0 ∧ t.x .lenv = s.x .worldw ∧ t.x .vx = s.x .px ∧ t.x .vy = s.x .py ∧
    t.x .vtype = 0 ∧ ChangesOnly [.vfound, .lenv, .vx, .vy, .vtype] s t) ∧
  (∀ s : State, s.skipv = false → ∃ k t, k ≤ (s.x .mapw).toNat ∧ exec .vsrch s = .next t ∧
    (∀ j < k, s.vCell j = .ok (some 0)) ∧
    match s.vCell k with
    | .error a => RecordsFault .memFault a.toNat s t
    | .ok none => t.x .vfound = 0 ∧ t.x .lenv = s.x .worldw ∧
        t.x .vx = Reg.vx.wrap (s.vCross k).1 ∧ t.x .vy = Reg.vy.wrap (s.vCross k).2 ∧
        t.x .vtype = 0 ∧ ChangesOnly [.vfound, .lenv, .vx, .vy, .vtype] s t
    | .ok (some b) => b ≠ 0 ∧ t.x .vfound = 1 ∧ t.x .vtype = b.toNat ∧
        t.x .lenv = (if s.x .cosm = 0 then 0
          else |(s.vCross k).1 - s.x .px| * 128 / s.x .cosm % 2 ^ 32) ∧
        t.x .vx = Reg.vx.wrap (s.vCross k).1 ∧ t.x .vy = Reg.vy.wrap (s.vCross k).2 ∧
        ChangesOnly [.vfound, .lenv, .vx, .vy, .vtype] s t)

/-- `HSRCH` (42_dda_search.md R138, R144): the same on the other axis; the sentinel is the world width
here too. -/
def Obligations.HsrchWalksHorizontalLines : Prop :=
  encode .hsrch = 0x31000000 ∧
  (∀ s : State, s.skiph = true → ∃ t, exec .hsrch s = .next t ∧
    t.x .hfound = 0 ∧ t.x .lenh = s.x .worldw ∧ t.x .hx = s.x .px ∧ t.x .hy = s.x .py ∧
    t.x .htype = 0 ∧ ChangesOnly [.hfound, .lenh, .hx, .hy, .htype] s t) ∧
  (∀ s : State, s.skiph = false → ∃ k t, k ≤ (s.x .maph).toNat ∧ exec .hsrch s = .next t ∧
    (∀ j < k, s.hCell j = .ok (some 0)) ∧
    match s.hCell k with
    | .error a => RecordsFault .memFault a.toNat s t
    | .ok none => t.x .hfound = 0 ∧ t.x .lenh = s.x .worldw ∧
        t.x .hx = Reg.hx.wrap (s.hCross k).1 ∧ t.x .hy = Reg.hy.wrap (s.hCross k).2 ∧
        t.x .htype = 0 ∧ ChangesOnly [.hfound, .lenh, .hx, .hy, .htype] s t
    | .ok (some b) => b ≠ 0 ∧ t.x .hfound = 1 ∧ t.x .htype = b.toNat ∧
        t.x .lenh = (if s.x .sinm = 0 then 0
          else |(s.hCross k).2 - s.x .py| * 128 / s.x .sinm % 2 ^ 32) ∧
        t.x .hx = Reg.hx.wrap (s.hCross k).1 ∧ t.x .hy = Reg.hy.wrap (s.hCross k).2 ∧
        ChangesOnly [.hfound, .lenh, .hx, .hy, .htype] s t)

/-- On an answered map the searches and the cast complete without a fault (42_dda_search.md R143, R144,
R148). -/
def Obligations.SearchesCompleteOnAnsweredMap : Prop :=
  ∀ s : State, s.MapAnswered →
    (∃ t, exec .vsrch s = .next t ∧ ChangesOnly [.vfound, .lenv, .vx, .vy, .vtype] s t) ∧
    (∃ t, exec .hsrch s = .next t ∧ ChangesOnly [.hfound, .lenh, .hx, .hy, .htype] s t) ∧
    (∃ t, exec .cast s = .next t ∧ ChangesOnly castRegs s t)

/-- `SELECT` (42_dda_search.md R145 to R147, R149): the horizontal hit wins when both are found and it
is not longer; the one found wins otherwise; with neither, the no-hit record. With legal build
parameters the sample column is the offset inside the block, reduced and mirrored. -/
def Obligations.SelectChoosesNearerHit : Prop :=
  encode .select = 0x32000000 ∧ ∀ s : State, ∃ t, exec .select s = .next t ∧
    (s.x .hfound = 1 ∧ (s.x .vfound = 0 ∨ s.x .lenh ≤ s.x .lenv) →
      t.x .hit = 1 ∧ t.x .side = 1 ∧ t.x .dist = s.x .lenh ∧ t.x .btype = s.x .htype ∧
      t.x .hitx = s.x .hx ∧ t.x .hity = s.x .hy ∧ (t.x .orient = 1 ↔ s.orh = true) ∧
      (s.cfg.Legal → t.x .sample =
        let q := s.x .hx % s.cfg.bs / 2 ^ s.cfg.texShift
        if s.orh then s.cfg.texSize - 1 - q else q)) ∧
    (s.x .vfound = 1 ∧ (s.x .hfound = 0 ∨ s.x .lenv < s.x .lenh) →
      t.x .hit = 1 ∧ t.x .side = 0 ∧ t.x .dist = s.x .lenv ∧ t.x .btype = s.x .vtype ∧
      t.x .hitx = s.x .vx ∧ t.x .hity = s.x .vy ∧ (t.x .orient = 1 ↔ s.orv = true) ∧
      (s.cfg.Legal → t.x .sample =
        let q := s.x .vy % s.cfg.bs / 2 ^ s.cfg.texShift
        if s.orv then s.cfg.texSize - 1 - q else q)) ∧
    (s.x .vfound = 0 ∧ s.x .hfound = 0 →
      t.x .hit = 0 ∧ t.x .side = 0 ∧ t.x .dist = s.x .worldw ∧ t.x .btype = 0 ∧
      t.x .sample = 0 ∧ t.x .orient = 0 ∧
      t.x .hitx = (if s.skiph then s.x .vx else s.x .hx) ∧
      t.x .hity = (if s.skiph then s.x .vy else s.x .hy)) ∧
    ChangesOnly [.hit, .side, .dist, .btype, .hitx, .hity, .sample, .orient] s t

/-- `CAST` (42_dda_search.md R148, 60_exceptions.md R232): its five parts in order; a part that raises
ends it, and the parts before keep their effects. -/
def Obligations.CastRunsItsPartsInOrder : Prop :=
  encode .cast = 0x33000000 ∧ ∀ s a b c d : State, s.x .status = 0 →
    exec .norm s = .next a → exec .decomp a = .next b → exec .vsrch b = .next c →
    exec .hsrch c = .next d →
    (c.x .status = 1 → exec .cast s = .next c) ∧
    (c.x .status = 0 → d.x .status = 1 → exec .cast s = .next d) ∧
    (c.x .status = 0 → d.x .status = 0 → exec .cast s = exec .select d)

/-- The result of `CAST` is a function of its inputs (42_dda_search.md R150): two states that agree on
the angle, the position, the active map, the build and the bytes of the map's cells leave the same
value in every register `CAST` writes, whatever else they hold. -/
def Obligations.CastDependsOnlyOnItsInputs : Prop :=
  ∀ s u : State, s.cfg = u.cfg →
    (∀ r ∈ [Reg.angle, .px, .py, .mapbase, .mapw, .maph, .worldw], s.x r = u.x r) →
    (∀ col row, 0 ≤ col → col < s.x .mapw → 0 ≤ row → row < s.x .maph →
      s.byteAt (s.cellAddr col row) = u.byteAt (s.cellAddr col row)) → s.MapAnswered →
    ∃ t v, exec .cast s = .next t ∧ exec .cast u = .next v ∧ ∀ r ∈ castRegs, t.x r = v.x r

/-- The ranges `CAST` maintains on an answered map with legal parameters (10_state.md R43). -/
def Obligations.CastKeepsItsRanges : Prop :=
  ∀ s : State, s.cfg.Legal → s.MapAnswered → ∃ t, exec .cast s = .next t ∧
    0 ≤ t.x .angn ∧ t.x .angn ≤ 359 ∧
    t.x .cosm ≤ 128 ∧ t.x .sinm ≤ 128 ∧ ¬ (t.x .cosm = 0 ∧ t.x .sinm = 0) ∧
    t.x .tanv ≤ 128 * s.cfg.bs / 2 ∧ t.x .tanh ≤ 128 * s.cfg.bs / 2 ∧
    t.x .lenv ≤ 4194240 ∧ t.x .lenh ≤ 4194240 ∧ t.x .dist ≤ 4194240 ∧
    0 ≤ t.x .sample ∧ t.x .sample < s.cfg.texSize

/-! ## Projector -/

/-- `FISH` (43_projector.md R161): the length times the cosine of the offset, over 128; never longer
than the raw length; `TrigIndex` more than 90 rays from the centre. -/
def Obligations.FishCorrectsTheLength : Prop :=
  encode .fish = 0x40000000 ∧ ∀ s : State, let d := |s.x .ray - s.cfg.centerRay|
    if d > 90 then Raises .fish s .trigIndex d
    else ∃ t, exec .fish s = .next t ∧ t.x .corr = s.x .dist * c128 d / 128 ∧
      t.x .corr ≤ s.x .dist ∧ ChangesOnly [.corr] s t

/-- `PROJ` (43_projector.md R162, R167): the projection constant over the corrected length, the
constant itself at length 0. -/
def Obligations.ProjDividesTheConstant : Prop :=
  encode .proj = 0x41000000 ∧ ∀ s : State, s.cfg.Legal → ∃ t, exec .proj s = .next t ∧
    (s.x .corr = 0 → t.x .height = s.cfg.projConst) ∧
    (s.x .corr ≠ 0 → t.x .height = s.cfg.projConst / s.x .corr) ∧
    0 ≤ t.x .height ∧ t.x .height ≤ s.cfg.projConst ∧
    (1 ≤ s.x .corr → t.x .height * s.x .corr ≤ s.cfg.projConst) ∧ ChangesOnly [.height] s t

/-- `SPAN` (43_projector.md R163): the column pair, the centred top, the span clipped to the screen. -/
def Obligations.SpanCentresAndClips : Prop :=
  encode .span = 0x42000000 ∧ ∀ s : State, s.cfg.Legal → ∃ t, exec .span s = .next t ∧
    t.x .col0 = 2 * s.x .ray ∧
    t.x .ytop = (s.cfg.screenH : Int) / 2 - s.x .height / 2 ∧
    t.x .y0 = max ((s.cfg.screenH : Int) / 2 - s.x .height / 2) 0 ∧
    t.x .y1 = min ((s.cfg.screenH : Int) / 2 - s.x .height / 2 + s.x .height) s.cfg.screenH ∧
    0 ≤ t.x .y0 ∧ t.x .y0 ≤ t.x .y1 ∧ t.x .y1 ≤ s.cfg.screenH ∧
    ChangesOnly [.col0, .ytop, .y0, .y1] s t

/-- `TSTEP` (43_projector.md R164): texture rows per screen row, 0 for a slice of height 0. -/
def Obligations.TstepDividesTheTexture : Prop :=
  encode .tstep = 0x43000000 ∧ ∀ s : State, s.cfg.Legal → ∃ t, exec .tstep s = .next t ∧
    (s.x .height = 0 → t.x .tstep = 0) ∧
    (s.x .height ≠ 0 → t.x .tstep = s.cfg.texSize * 2 ^ s.cfg.texFp / s.x .height) ∧
    t.x .tstep * s.x .height ≤ s.cfg.texSize * 2 ^ s.cfg.texFp ∧ ChangesOnly [.tstep] s t

/-- `TROW` (43_projector.md R165): the step times the offset from the unclipped top, shifted back with
a floor, stored mod 2^16. -/
def Obligations.TrowScalesTheOffset : Prop :=
  ∀ (imm : BitVec 16) (s : State),
    (encode (.trow imm)).toNat = 0x44000000 + imm.toNat ∧
    ∃ t, exec (.trow imm) s = .next t ∧
      t.x .trowr = (s.x .tstep * (imm.toInt - s.x .ytop)) / 2 ^ s.cfg.texFp % 2 ^ 16 ∧
      ChangesOnly [.trowr] s t

/-- A texture row is in range (43_projector.md R166): after `SPAN` and `TSTEP` on the same height,
every visible row maps to a row of the texture, and later rows to no earlier texture row. -/
def Obligations.VisibleRowsMapInsideTheTexture : Prop :=
  ∀ s : State, s.cfg.Legal → ∃ a b, exec .span s = .next a ∧ exec .tstep a = .next b ∧
    ∀ (m n : BitVec 16), b.x .y0 ≤ m.toInt → m.toInt ≤ n.toInt → n.toInt < b.x .y1 →
      ∃ u v, exec (.trow m) b = .next u ∧ exec (.trow n) b = .next v ∧
        0 ≤ m.toInt - b.x .ytop ∧ n.toInt - b.x .ytop < s.x .height ∧
        u.x .trowr ≤ v.x .trowr ∧
        v.x .trowr ≤
          s.cfg.texSize * 2 ^ s.cfg.texFp * (s.x .height - 1) / s.x .height / 2 ^ s.cfg.texFp ∧
        v.x .trowr < s.cfg.texSize

/-! ## Texel sampler -/

/-- `TEXEL` (45_texel.md R196, R198): outside the bitmap `TexelRange`; else the most-significant-first
bit of the byte at the linear index, or `MemFault` where that byte is not answered. -/
def Obligations.TexelDecodesOneBit : Prop :=
  encode .texel = 0x50000000 ∧ ∀ s : State,
    if s.x .txx ≥ s.x .txw ∨ s.x .txy ≥ s.x .txh then
      Raises .texel s .texelRange (s.x .txy * 2 ^ 16 + s.x .txx)
    else match s.texelAt (s.x .txbase) (s.x .txw) (s.x .txx) (s.x .txy) with
      | some b => ∃ t, exec .texel s = .next t ∧ t.x .txbit = (if b then 1 else 0) ∧
          ChangesOnly [.txbit] s t
      | none => Raises .texel s .memFault
          (s.x .txbase + (s.x .txy * s.x .txw + s.x .txx) / 8)

/-- `WTEXEL` (45_texel.md R199): `TexIndex` for block type 0 or an unpopulated slot, then `TexelRange`,
then the bit of the texture in slot `BTYPE - 1`, or `MemFault`. -/
def Obligations.WtexelFetchesTheWallTexel : Prop :=
  encode .wtexel = 0x51000000 ∧ ∀ s : State, s.cfg.Legal →
    if s.x .btype = 0 ∨ s.x .btype - 1 ≥ s.x .texcnt then
      Raises .wtexel s .texIndex (s.x .btype)
    else if s.x .sample ≥ s.cfg.texSize ∨ s.x .trowr ≥ s.cfg.texSize then
      Raises .wtexel s .texelRange (s.x .trowr * 2 ^ 16 + s.x .sample)
    else
      let base : Int := (s.texptrAt (BitVec.ofNat 8 ((s.x .btype).toNat - 1))).toNat
      match s.texelAt base s.cfg.texSize (s.x .sample) (s.x .trowr) with
      | some b => ∃ t, exec .wtexel s = .next t ∧ t.x .txbit = (if b then 1 else 0) ∧
          ChangesOnly [.txbit] s t
      | none => Raises .wtexel s .memFault
          (base + (s.x .trowr * s.cfg.texSize + s.x .sample) / 8)

/-! ## Render -/

/-- `DRAW` in the two top-down modes (44_render.md R183, R184): one debug line from the player to the
hit point, in both modes the same, hit or not; no register changes. -/
def Obligations.DrawEmitsDebugLineInTopDownModes : Prop :=
  encode .draw = 0x60000000 ∧ ∀ s : State, s.x .mode = 0 ∨ s.x .mode = 1 →
    ∃ t, exec .draw s = .next t ∧
      t.draw = s.draw ++ [.line (s.x .px) (s.x .py) (s.x .hitx) (s.x .hity) true] ∧
      ChangesOnlyAndDraws [] s t

/-- `DRAW` in the two 3-D modes without a hit draws nothing and changes nothing (44_render.md R184);
with a hit more than 90 rays off centre it raises `TrigIndex` and draws nothing. -/
def Obligations.DrawWithoutHitDrawsNothing : Prop :=
  ∀ s : State, s.x .mode = 2 ∨ s.x .mode = 3 →
    (s.x .hit = 0 → exec .draw s = .next s) ∧
    (s.x .hit = 1 → |s.x .ray - s.cfg.centerRay| > 90 →
      Raises .draw s .trigIndex |s.x .ray - s.cfg.centerRay|)

/-- `DRAW` in the solid mode (44_render.md R182, R184): the projection of the hit, and two foreground
vertical lines from the clipped top with the unclipped height. -/
def Obligations.DrawEmitsTwoLinesInSolidMode : Prop :=
  ∀ s : State, s.cfg.Legal → s.x .mode = 2 → s.x .hit = 1 → s.rayOffset ≤ 90 →
    ∃ t, exec .draw s = .next t ∧ Projects s t ∧
      t.draw = s.draw ++ [.vline (2 * s.x .ray) s.firstRow s.hitHeight true,
        .vline (2 * s.x .ray + 1) s.firstRow s.hitHeight true] ∧
      ChangesOnlyAndDraws [.corr, .height, .col0, .ytop, .y0, .y1] s t

/-- `DRAW` in the textured mode (44_render.md R182, R184, R185, 43_projector.md R166): with a populated
slot, a sample column inside the texture and the texel of every visible row answered, every visible row
gets two pixels of that row's texel, left column first, rows ascending; every such row maps inside the
texture; no fault can arise. -/
def Obligations.DrawEmitsEveryVisibleRowInTexturedMode : Prop :=
  ∀ s : State, s.DrawsTextured → s.HasTexture → s.x .sample < s.cfg.texSize →
    (∀ row, s.firstRow ≤ row → row < s.endRow → (s.hitTexel row).isSome) →
    ∃ (t : State) (bit : Int → Bool), exec .draw s = .next t ∧ Projects s t ∧
      t.x .tstep = s.hitStep ∧
      (∀ row, s.firstRow ≤ row → row < s.endRow →
        0 ≤ s.texRow row ∧ s.texRow row < s.cfg.texSize ∧ s.hitTexel row = some (bit row)) ∧
      t.draw = s.draw ++ s.hitPixels bit s.firstRow (s.endRow - s.firstRow).toNat ∧
      (s.firstRow < s.endRow → t.x .trowr = s.texRow (s.endRow - 1) ∧
        t.x .txbit = if bit (s.endRow - 1) then 1 else 0) ∧
      (s.firstRow = s.endRow → t.x .trowr = s.x .trowr ∧ t.x .txbit = s.x .txbit) ∧
      ChangesOnlyAndDraws [.corr, .height, .col0, .ytop, .y0, .y1, .tstep, .trowr, .txbit] s t

/-- `DRAW` in the textured mode whose texture is not answered from some visible row on (44_render.md
R184, 60_exceptions.md R232, R235): the rows before it keep their pixels, the row itself draws none,
`MemFault` is recorded with the byte's address, and the registers hold the values of that row. -/
def Obligations.DrawStopsAtFirstUnansweredTexel : Prop :=
  ∀ (s : State) (last : Int), s.DrawsTextured → s.HasTexture → s.x .sample < s.cfg.texSize →
    s.x .status = 0 → s.firstRow ≤ last → last < s.endRow →
    (∀ row, s.firstRow ≤ row → row < last → (s.hitTexel row).isSome) → s.hitTexel last = none →
    let base : Int := (s.texptrAt (BitVec.ofNat 8 ((s.x .btype).toNat - 1))).toNat
    ∃ (t : State) (bit : Int → Bool), exec .draw s = .next t ∧ Projects s t ∧
      t.x .tstep = s.hitStep ∧ t.x .trowr = s.texRow last ∧
      (∀ row, s.firstRow ≤ row → row < last → s.hitTexel row = some (bit row)) ∧
      t.draw = s.draw ++ s.hitPixels bit s.firstRow (last - s.firstRow).toNat ∧
      t.x .status = 1 ∧ t.x .fcause = 6 ∧
      t.x .finfo = (base + (s.texRow last * s.cfg.texSize + s.x .sample) / 8) % 2 ^ 32 ∧
      (s.firstRow < last → t.x .txbit = if bit (last - 1) then 1 else 0) ∧
      (s.firstRow = last → t.x .txbit = s.x .txbit) ∧
      ChangesOnlyAndDraws [.corr, .height, .col0, .ytop, .y0, .y1, .tstep, .trowr, .txbit, .status,
        .fcause, .finfo] s t

/-- `DRAW` in the textured mode with no texture for the block type (44_render.md R184 corner case e,
60_exceptions.md R231, R232): the projection and the step stand, no pixel is drawn; with a visible row
`TexIndex` is recorded, after the `TROW` of the first one; with none, no fault is. -/
def Obligations.DrawWithoutTextureRecordsTexIndex : Prop :=
  ∀ s : State, s.DrawsTextured → s.x .status = 0 → ¬ s.HasTexture →
    ∃ t, exec .draw s = .next t ∧ Projects s t ∧ t.x .tstep = s.hitStep ∧ t.draw = s.draw ∧
      (if 0 < min (s.hitTop + s.hitHeight) s.cfg.screenH - max s.hitTop 0 then
        t.x .trowr = s.texRow s.firstRow ∧ t.x .status = 1 ∧ t.x .fcause = 4 ∧
          t.x .finfo = s.x .btype
      else
        t.x .trowr = s.x .trowr ∧ t.x .status = 0 ∧ t.x .fcause = s.x .fcause ∧
          t.x .finfo = s.x .finfo) ∧
      ChangesOnlyAndDraws [.corr, .height, .col0, .ytop, .y0, .y1, .tstep, .trowr, .status, .fcause,
        .finfo] s t

/-- `DRAW` in the textured mode with a populated slot and a sample column outside the texture, which
only a host write can give (44_render.md R184, 45_texel.md R199 corner case d, 60_exceptions.md R234):
the projection and the step stand, no pixel is drawn; with a visible row `TexelRange` is recorded, after
the `TROW` of the first one; with none, no fault is. -/
def Obligations.DrawWithSampleOutsideRecordsTexelRange : Prop :=
  ∀ s : State, s.DrawsTextured → s.x .status = 0 → s.HasTexture → s.cfg.texSize ≤ s.x .sample →
    ∃ t, exec .draw s = .next t ∧ Projects s t ∧ t.x .tstep = s.hitStep ∧ t.draw = s.draw ∧
      (if 0 < min (s.hitTop + s.hitHeight) s.cfg.screenH - max s.hitTop 0 then
        t.x .trowr = s.texRow s.firstRow ∧ t.x .status = 1 ∧ t.x .fcause = 5 ∧
          t.x .finfo = s.texRow s.firstRow * 2 ^ 16 + s.x .sample
      else
        t.x .trowr = s.x .trowr ∧ t.x .status = 0 ∧ t.x .fcause = s.x .fcause ∧
          t.x .finfo = s.x .finfo) ∧
      ChangesOnlyAndDraws [.corr, .height, .col0, .ytop, .y0, .y1, .tstep, .trowr, .status, .fcause,
        .finfo] s t

/-- `RAY` (44_render.md R187, 60_exceptions.md R232): `CAST`, then `DRAW` unless the cast raised; on an
answered map in a top-down mode it completes with the debug line to the hit it found. -/
def Obligations.RayIsCastThenDraw : Prop :=
  encode .ray = 0x61000000 ∧
  (∀ s c : State, s.x .status = 0 → exec .cast s = .next c →
    exec .ray s = if c.x .status = 1 then .next c else exec .draw c) ∧
  (∀ s : State, s.MapAnswered → s.x .mode = 0 ∨ s.x .mode = 1 → ∃ t, exec .ray s = .next t ∧
    t.draw = s.draw ++ [.line (s.x .px) (s.x .py) (t.x .hitx) (t.x .hity) true] ∧
    ChangesOnlyAndDraws castRegs s t)
end

