-- ==== Sys2Proof/Laws/Arith.lean ====
section
/-! SUPPORT. The spec's operators on exact integers, and the ranges of the two ROM tables. -/

namespace Sys2Proof.Machine

theorem asr_eq_ediv (a : Int) (n : Nat) : asr a n = a / 2 ^ n := by simp [asr]

theorem shl_eq_mul (a : Int) (n : Nat) : shl a n = a * 2 ^ n := by simp [shl]

/-- Masking with `2^n - 1` is the remainder by `2^n`, for a non-negative value. -/
theorem andInt_mask {a : Int} (h : 0 ≤ a) (n : Nat) : andInt a (2 ^ n - 1) = a % 2 ^ n := by
  obtain ⟨k, rfl⟩ := Int.eq_ofNat_of_zero_le h
  have h1 : ((2 : Int) ^ n - 1).toNat = 2 ^ n - 1 := by
    have : ((2 : Int) ^ n - 1) = ((2 ^ n - 1 : Nat) : Int) := by
      have := Nat.one_le_two_pow (n := n); push_cast [this]; rfl
    rw [this]; rfl
  simp [andInt, h1, Nat.and_two_pow_sub_one_eq_mod]

/-- A half-word above another is their sum (46_system.md R207, 60_exceptions.md R234). -/
theorem shl16_or (a : Nat) {b : Nat} (h : b < 2 ^ 16) : a <<< 16 ||| b = a * 2 ^ 16 + b := by
  rw [Nat.shiftLeft_eq, Nat.mul_comm, Nat.two_pow_add_eq_or_of_lt h]

theorem bs_eq_two_pow (c : Config) : c.bs = 2 ^ c.bsLog2 := by simp [Config.bs]

theorem bs_pos (c : Config) : 0 < c.bs := by rw [bs_eq_two_pow]; positivity

/-- With legal parameters the texture size is a power of two (00_scope.md R7). -/
theorem texSize_eq_two_pow {c : Config} (h : c.texShift ≤ c.bsLog2) :
    c.texSize = 2 ^ (c.bsLog2 - c.texShift) := by
  rw [Config.texSize, asr_eq_ediv, bs_eq_two_pow]
  conv_lhs => rw [show c.bsLog2 = (c.bsLog2 - c.texShift) + c.texShift by omega, pow_add]
  exact Int.mul_ediv_cancel _ (by positivity)

theorem bit01_range (b : Bool) : 0 ≤ bit01 b ∧ bit01 b ≤ 1 := by cases b <;> decide

/-- The floored remainder by 360 (40_trig_rom.md R109). -/
theorem norm360_range (a : Int) : 0 ≤ norm360 a ∧ norm360 a < 360 := by unfold norm360; omega

/-- The 128-scale entries: 0 to 128, zero only at 90, and never 1 (40_trig_rom.md R102). -/
theorem c128_table : ∀ k : Fin 91, 0 ≤ c128 (k.val : Int) ∧ c128 (k.val : Int) ≤ 128 ∧
    (c128 (k.val : Int) = 0 ↔ k.val = 90) ∧ c128 (k.val : Int) ≠ 1 := by decide

theorem c128_facts {a : Int} (h0 : 0 ≤ a) (h1 : a ≤ 90) :
    0 ≤ c128 a ∧ c128 a ≤ 128 ∧ (c128 a = 0 ↔ a = 90) ∧ c128 a ≠ 1 := by
  obtain ⟨k, rfl⟩ := Int.eq_ofNat_of_zero_le h0
  have h := c128_table ⟨k, by omega⟩
  refine ⟨h.1, h.2.1, ?_, h.2.2.2⟩
  rw [h.2.2.1]
  show k = 90 ↔ (k : Int) = 90
  omega

/-- The 16-scale entries: -16 to 16 (40_trig_rom.md R101). -/
theorem c16_table : ∀ k : Fin 360, -16 ≤ c16 (k.val : Int) ∧ c16 (k.val : Int) ≤ 16 := by
  decide +kernel

theorem c16_range {a : Int} (h0 : 0 ≤ a) (h1 : a < 360) : -16 ≤ c16 a ∧ c16 a ≤ 16 := by
  obtain ⟨k, rfl⟩ := Int.eq_ofNat_of_zero_le h0
  exact c16_table ⟨k, by omega⟩

/-- The reflected index is a legal index of the 128-scale table (41_angle_decomp.md R122). -/
theorem reflected_range {a : Int} (h0 : 0 ≤ a) (h1 : a ≤ 359) :
    0 ≤ reflected a ∧ reflected a ≤ 90 := by
  unfold reflected; split_ifs <;> omega

end Sys2Proof.Machine
end

