-- ==== Sys2Proof/Laws/Memory.lean ====
section
/-! SUPPORT. The memory's read, write and canonical form. -/

namespace Sys2Proof.Machine

@[simp] theorem Memory.read_nil (a : Nat) : Memory.read [] a = Memory.unlisted := rfl

theorem Memory.read_cons (k : Nat) (v : Byte) (m : Memory) (a : Nat) :
    Memory.read ((k, v) :: m) a = if k = a then v else m.read a := rfl

/-- A read of an erased memory: the byte is the unlisted one there, the old one elsewhere. -/
theorem Memory.read_erase (m : Memory) (a k : Nat) :
    (m.erase a).read k = if k = a then Memory.unlisted else m.read k := by
  induction m with
  | nil => simp [Memory.erase]
  | cons kv m ih =>
    obtain ⟨k', v⟩ := kv
    unfold Memory.erase at ih ⊢
    rw [List.filter_cons, Memory.read_cons]
    by_cases h : k' = a
    · subst h
      by_cases hk : k = k'
      · simpa [hk] using ih
      · simpa [hk, show k' ≠ k from fun e => hk e.symm] using ih
    · by_cases hk : k' = k
      · subst hk; simp [h, Memory.read_cons]
      · simpa [h, hk, Memory.read_cons] using ih

/-- A read of a memory with a cell put in at an address it does not list. -/
theorem Memory.read_insert {m : Memory} {a : Nat} (h : ∀ c ∈ m, c.1 ≠ a) (b : Byte) (k : Nat) :
    (m.insert a b).read k = if k = a then b else m.read k := by
  induction m with
  | nil => simp [Memory.insert, Memory.read_cons, eq_comm]
  | cons kv m ih =>
    obtain ⟨k', v⟩ := kv
    have hk' : k' ≠ a := h (k', v) (by simp)
    have ih := ih fun c hc => h c (by simp [hc])
    unfold Memory.insert
    split
    · simp [Memory.read_cons, eq_comm]
    · rw [Memory.read_cons, ih, Memory.read_cons]
      by_cases e : k' = k
      · subst e; simp [hk']
      · simp [e]

/-- What the erased memory lists. -/
theorem Memory.mem_erase {m : Memory} {a : Nat} {c : Host.Cell} :
    c ∈ m.erase a ↔ c ∈ m ∧ c.1 ≠ a := by simp [Memory.erase]

/-- What a memory with a cell put in lists. -/
theorem Memory.mem_insert {m : Memory} {a : Nat} {b : Byte} {c : Host.Cell} :
    c ∈ m.insert a b ↔ c = (a, b) ∨ c ∈ m := by
  induction m with
  | nil => simp [Memory.insert]
  | cons kv m ih =>
    unfold Memory.insert
    split
    · simp
    · simp only [List.mem_cons, ih]; tauto

/-- A read after a write gives the byte written there, the old byte elsewhere. -/
theorem Memory.read_write (m : Memory) (a : Nat) (b : Byte) (k : Nat) :
    (m.write a b).read k = if k = a then b else m.read k := by
  unfold Memory.write
  split
  · next h => rw [Memory.read_erase, h]
  · rw [Memory.read_insert fun c hc => (Memory.mem_erase.1 hc).2, Memory.read_erase]
    by_cases e : k = a <;> simp [e]

/-- What a written memory lists: the cell written, unless its byte is the unlisted one, and the old
cells of other addresses. -/
theorem Memory.mem_write {m : Memory} {a : Nat} {b : Byte} {c : Host.Cell} :
    c ∈ m.write a b ↔ (c = (a, b) ∧ b ≠ Memory.unlisted) ∨ (c ∈ m ∧ c.1 ≠ a) := by
  unfold Memory.write
  split
  · next h => simp [Memory.mem_erase, h]
  · next h => simp [Memory.mem_insert, Memory.mem_erase, h]

/-- A cell put in keeps the addresses strictly rising. -/
theorem Memory.insert_rising {m : Memory} (hm : m.Pairwise fun c d => c.1 < d.1) {a : Nat}
    (h : ∀ c ∈ m, c.1 ≠ a) (b : Byte) : (m.insert a b).Pairwise fun c d => c.1 < d.1 := by
  induction m with
  | nil => simp [Memory.insert]
  | cons kv m ih =>
    obtain ⟨k, v⟩ := kv
    have hk : k ≠ a := h (k, v) (by simp)
    rw [List.pairwise_cons] at hm
    unfold Memory.insert
    split
    · next hlt =>
      refine List.pairwise_cons.2 ⟨fun c hc => ?_, List.pairwise_cons.2 hm⟩
      rcases List.mem_cons.1 hc with rfl | hc
      · exact hlt
      · exact hlt.trans (hm.1 c hc)
    · next hlt =>
      refine List.pairwise_cons.2 ⟨fun c hc => ?_, ih hm.2 fun c hc => h c (by simp [hc])⟩
      rcases Memory.mem_insert.1 hc with rfl | hc
      · show k < a; omega
      · exact hm.1 c hc

/-- The host's write keeps the canonical form. -/
theorem Memory.wf_write {m : Memory} (hm : Memory.wf m) {a : Nat} (ha : a < 2 ^ 32) (b : Byte) :
    Memory.wf (m.write a b) := by
  refine ⟨?_, fun c hc => ?_⟩
  · have he : (m.erase a).Pairwise fun c d => c.1 < d.1 := hm.1.filter _
    unfold Memory.write
    split
    · exact he
    · exact Memory.insert_rising he (fun c hc => (Memory.mem_erase.1 hc).2) b
  · rcases Memory.mem_write.1 hc with ⟨rfl, hb⟩ | ⟨hc, _⟩
    · exact ⟨ha, hb⟩
    · exact hm.2 c hc

/-- What the port answers after a host store: the byte stored where the address is answered, as before
everywhere else (20_memory.md R60, R67). -/
theorem State.byteAt_hostStore (s : State) (a : Word) (b : Byte) (k : Nat) :
    (s.hostStore a b).byteAt k =
      if k = a.toNat ∧ s.cfg.answers k = true then some b else s.byteAt k := by
  unfold State.hostStore
  split
  · next h =>
    simp only [State.byteAt, Memory.read_write]
    by_cases e : k = a.toNat
    · subst e; simp [h]
    · simp [e]
  · next h =>
    rw [if_neg]
    rintro ⟨rfl, h'⟩
    exact h h'

/-- What `MemRead` answers (20_memory.md R62). -/
theorem State.memRead_eq (s : State) (addr : Int) :
    s.memRead addr = match s.byteAt (portAddr addr).toNat with
      | some b => .ok b
      | none => .error (portAddr addr) := rfl

/-- The port's address is the exact address mod 2^32 (20_memory.md R61). -/
theorem portAddr_toNat (addr : Int) : ((portAddr addr).toNat : Int) = addr % 2 ^ 32 := by
  have : ((2 : Int) ^ 32) = ((2 ^ 32 : Nat) : Int) := by norm_num
  rw [portAddr, BitVec.toNat_ofInt, Int.toNat_of_nonneg (Int.emod_nonneg _ (by norm_num)), this]

end Sys2Proof.Machine
end

