-- ==== Sys2Proof/Laws/Registers.lean ====
section
/-! SUPPORT. What the register file answers: a read after a write, and the range
of a read (10_state.md R20 to R22). -/

namespace Sys2Proof

theorem Reg.mem_all (r : Reg) : r ∈ Reg.all := by cases r <;> decide

theorem Reg.width_pos (r : Reg) : 0 < r.width := by cases r <;> decide

theorem Reg.width_le (r : Reg) : r.width ≤ 32 := by cases r <;> decide

/-- A write to an unsigned register keeps a value of its range. -/
theorem Reg.wrap_unsigned {r : Reg} (hr : r.signed = false) {v : Int} (h0 : 0 ≤ v)
    (h1 : v < 2 ^ r.width) : r.wrap v = v := by
  simp only [Reg.wrap, hr, Bool.false_eq_true, if_false]
  exact Int.emod_eq_of_lt h0 h1

/-- A write to a signed register keeps a value of its range. -/
theorem Reg.wrap_signed {r : Reg} (hr : r.signed = true) {v : Int}
    (h0 : -2 ^ (r.width - 1) ≤ v) (h1 : v < 2 ^ (r.width - 1)) : r.wrap v = v := by
  have hw : (2 : Int) ^ r.width = 2 * 2 ^ (r.width - 1) := by
    have := r.width_pos
    conv_lhs => rw [show r.width = (r.width - 1) + 1 by omega]
    ring
  simp only [Reg.wrap, hr, if_true]
  refine Int.bmod_eq_of_le ?_ ?_ <;> push_cast <;> omega

/-- What a write stores is what the value mod 2^w would store. -/
theorem Reg.wrap_emod (r : Reg) (v : Int) : r.wrap (v % 2 ^ r.width) = r.wrap v := by
  unfold Reg.wrap
  split
  · have : ((2 ^ r.width : Nat) : Int) = 2 ^ r.width := by push_cast; rfl
    rw [← this]; exact Int.emod_bmod v _
  · exact Int.emod_emod_of_dvd _ (dvd_refl _)

theorem Reg.wrap_unsigned_eq {r : Reg} (hr : r.signed = false) (v : Int) :
    r.wrap v = v % 2 ^ r.width := by simp [Reg.wrap, hr]

namespace Machine

theorem Regs.get_put_same (rs : Regs) (r : Reg) (v : Int) : (rs.put r v).get r = r.wrap v := by
  cases r <;> simp [Regs.put, Regs.get, Reg.wrap, Reg.signed, Reg.width, BitVec.toInt_ofInt,
    BitVec.toNat_ofInt] <;> omega

theorem Regs.get_put_ne (rs : Regs) (r r' : Reg) (v : Int) (h : r' ≠ r) :
    (rs.put r v).get r' = rs.get r' := by
  cases r <;> cases r' <;> first | rfl | exact absurd rfl h

theorem Regs.get_zero (r : Reg) : Regs.zero.get r = 0 := by cases r <;> rfl

/-- An unsigned register reads as 0 to 2^w - 1 (10_state.md R22). -/
theorem Regs.get_range_unsigned (rs : Regs) {r : Reg} (hr : r.signed = false) :
    0 ≤ rs.get r ∧ rs.get r < 2 ^ r.width := by
  cases r <;> first
    | exact absurd hr (by decide)
    | exact ⟨Int.natCast_nonneg _, by
        simp only [Regs.get, Reg.width]; exact_mod_cast BitVec.isLt _⟩

/-- A signed register reads as -2^(w-1) to 2^(w-1) - 1 (10_state.md R22). -/
theorem Regs.get_range_signed (rs : Regs) {r : Reg} (hr : r.signed = true) :
    -2 ^ (r.width - 1) ≤ rs.get r ∧ rs.get r < 2 ^ (r.width - 1) := by
  cases r <;> first
    | exact absurd hr (by decide)
    | exact ⟨BitVec.le_toInt _, BitVec.toInt_lt⟩

/-- Writing back what a register reads as stores the same. -/
theorem Regs.wrap_get (rs : Regs) (r : Reg) : r.wrap (rs.get r) = rs.get r := by
  cases hs : r.signed
  · exact Reg.wrap_unsigned hs (rs.get_range_unsigned hs).1 (rs.get_range_unsigned hs).2
  · exact Reg.wrap_signed hs (rs.get_range_signed hs).1 (rs.get_range_signed hs).2

end Machine

end Sys2Proof
end

