-- ==== Sys2Proof/Laws/State.lean ====
section
/-! SUPPORT. One lemma per field per update of the state, and what a register reads as after each
update. -/

namespace Sys2Proof.Machine

/-! ## Register writes -/

@[simp] theorem State.x_set_same (s : State) (r : Reg) (v : Int) : (s.set r v).x r = r.wrap v :=
  Regs.get_put_same _ _ _

@[simp] theorem State.x_set_ne (s : State) {r r' : Reg} (v : Int) (h : r' ≠ r) :
    (s.set r v).x r' = s.x r' := Regs.get_put_ne _ _ _ _ h

theorem State.x_set (s : State) (r r' : Reg) (v : Int) :
    (s.set r v).x r' = if r' = r then r.wrap v else s.x r' := by
  split
  · next h => subst h; simp
  · next h => simp [h]

@[simp] theorem State.cfg_set (s : State) (r : Reg) (v : Int) : (s.set r v).cfg = s.cfg := rfl

@[simp] theorem State.texptr_set (s : State) (r : Reg) (v : Int) : (s.set r v).texptr = s.texptr := rfl

@[simp] theorem State.resp_set (s : State) (r : Reg) (v : Int) : (s.set r v).resp = s.resp := rfl

@[simp] theorem State.draw_set (s : State) (r : Reg) (v : Int) : (s.set r v).draw = s.draw := rfl

@[simp] theorem State.mem_set (s : State) (r : Reg) (v : Int) : (s.set r v).mem = s.mem := rfl

@[simp] theorem State.host_set (s : State) (r : Reg) (v : Int) : (s.set r v).host = s.host := rfl

/-! ## Output ports and the texture pointer table -/

@[simp] theorem State.cfg_emitResp (s : State) (v : Int) : (s.emitResp v).cfg = s.cfg := rfl

@[simp] theorem State.texptr_emitResp (s : State) (v : Int) : (s.emitResp v).texptr = s.texptr := rfl

@[simp] theorem State.draw_emitResp (s : State) (v : Int) : (s.emitResp v).draw = s.draw := rfl

@[simp] theorem State.mem_emitResp (s : State) (v : Int) : (s.emitResp v).mem = s.mem := rfl

@[simp] theorem State.host_emitResp (s : State) (v : Int) : (s.emitResp v).host = s.host := rfl

@[simp] theorem State.x_emitResp (s : State) (v : Int) (r : Reg) : (s.emitResp v).x r = s.x r := rfl

@[simp] theorem State.cfg_emitDraw (s : State) (e : DrawEvent) : (s.emitDraw e).cfg = s.cfg := rfl

@[simp] theorem State.texptr_emitDraw (s : State) (e : DrawEvent) : (s.emitDraw e).texptr = s.texptr := rfl

@[simp] theorem State.resp_emitDraw (s : State) (e : DrawEvent) : (s.emitDraw e).resp = s.resp := rfl

@[simp] theorem State.mem_emitDraw (s : State) (e : DrawEvent) : (s.emitDraw e).mem = s.mem := rfl

@[simp] theorem State.host_emitDraw (s : State) (e : DrawEvent) : (s.emitDraw e).host = s.host := rfl

@[simp] theorem State.x_emitDraw (s : State) (e : DrawEvent) (r : Reg) : (s.emitDraw e).x r = s.x r := rfl

@[simp] theorem State.cfg_setTexptr (s : State) (i : BitVec 8) (v : Word) : (s.setTexptr i v).cfg = s.cfg := rfl

@[simp] theorem State.resp_setTexptr (s : State) (i : BitVec 8) (v : Word) : (s.setTexptr i v).resp = s.resp := rfl

@[simp] theorem State.draw_setTexptr (s : State) (i : BitVec 8) (v : Word) : (s.setTexptr i v).draw = s.draw := rfl

@[simp] theorem State.mem_setTexptr (s : State) (i : BitVec 8) (v : Word) : (s.setTexptr i v).mem = s.mem := rfl

@[simp] theorem State.host_setTexptr (s : State) (i : BitVec 8) (v : Word) : (s.setTexptr i v).host = s.host := rfl

@[simp] theorem State.x_setTexptr (s : State) (i : BitVec 8) (v : Word) (r : Reg) : (s.setTexptr i v).x r = s.x r := rfl

@[simp] theorem State.resp_emitResp (s : State) (v : Int) :
    (s.emitResp v).resp = s.resp ++ [BitVec.ofInt 32 v] := rfl

@[simp] theorem State.draw_emitDraw (s : State) (e : DrawEvent) :
    (s.emitDraw e).draw = s.draw ++ [e] := rfl

theorem State.texptrAt_setTexptr_same (s : State) (i : BitVec 8) (v : Word) :
    (s.setTexptr i v).texptrAt i = v := by
  simp [State.texptrAt, State.setTexptr]

theorem State.texptrAt_setTexptr_ne (s : State) {i j : BitVec 8} (v : Word) (h : j ≠ i) :
    (s.setTexptr i v).texptrAt j = s.texptrAt j := by
  have : i.toNat ≠ j.toNat := fun e => h (BitVec.eq_of_toNat_eq e.symm)
  simp [State.texptrAt, State.setTexptr, Vector.getElem_set_ne, this]

/-! ## Reset -/

@[simp] theorem State.cfg_softReset (s : State) : s.softReset.cfg = s.cfg := rfl

@[simp] theorem State.resp_softReset (s : State) : s.softReset.resp = s.resp := rfl

@[simp] theorem State.draw_softReset (s : State) : s.softReset.draw = s.draw := rfl

@[simp] theorem State.mem_softReset (s : State) : s.softReset.mem = s.mem := rfl

@[simp] theorem State.host_softReset (s : State) : s.softReset.host = s.host := rfl

@[simp] theorem State.x_softReset (s : State) (r : Reg) : s.softReset.x r = 0 := Regs.get_zero r

@[simp] theorem State.texptrAt_softReset (s : State) (i : BitVec 8) :
    s.softReset.texptrAt i = 0 := by
  simp [State.texptrAt, State.softReset]

@[simp] theorem State.cfg_hardReset (s : State) : s.hardReset.cfg = s.cfg := rfl

@[simp] theorem State.mem_hardReset (s : State) : s.hardReset.mem = s.mem := rfl

@[simp] theorem State.host_hardReset (s : State) : s.hardReset.host = s.host := rfl

@[simp] theorem State.resp_hardReset (s : State) : s.hardReset.resp = [] := rfl

@[simp] theorem State.draw_hardReset (s : State) : s.hardReset.draw = [] := rfl

@[simp] theorem State.x_hardReset (s : State) (r : Reg) : s.hardReset.x r = 0 := Regs.get_zero r

@[simp] theorem State.x_resetOf (c : Config) (m : Memory) (r : Reg) : (State.resetOf c m).x r = 0 :=
  Regs.get_zero r

/-! ## The host's side -/

/-- Taking the host's next action touches no register. -/
@[simp] theorem State.x_withHost (s : State) (h : List HostInput) (r : Reg) :
    State.x { s with host := h } r = s.x r := rfl

/-! A host store touches the memory alone. -/

@[simp] theorem State.cfg_hostStore (s : State) (a : Word) (b : Byte) :
    (s.hostStore a b).cfg = s.cfg := by unfold State.hostStore; split <;> rfl

@[simp] theorem State.regs_hostStore (s : State) (a : Word) (b : Byte) :
    (s.hostStore a b).regs = s.regs := by unfold State.hostStore; split <;> rfl

@[simp] theorem State.texptr_hostStore (s : State) (a : Word) (b : Byte) :
    (s.hostStore a b).texptr = s.texptr := by unfold State.hostStore; split <;> rfl

@[simp] theorem State.resp_hostStore (s : State) (a : Word) (b : Byte) :
    (s.hostStore a b).resp = s.resp := by unfold State.hostStore; split <;> rfl

@[simp] theorem State.draw_hostStore (s : State) (a : Word) (b : Byte) :
    (s.hostStore a b).draw = s.draw := by unfold State.hostStore; split <;> rfl

@[simp] theorem State.host_hostStore (s : State) (a : Word) (b : Byte) :
    (s.hostStore a b).host = s.host := by unfold State.hostStore; split <;> rfl

@[simp] theorem State.x_hostStore (s : State) (a : Word) (b : Byte) (r : Reg) :
    (s.hostStore a b).x r = s.x r := by unfold State.hostStore; split <;> rfl

/-! ## What the memory port answers -/

@[simp] theorem State.byteAt_set (s : State) (r : Reg) (v : Int) (a : Nat) :
    (s.set r v).byteAt a = s.byteAt a := rfl

@[simp] theorem State.byteAt_emitResp (s : State) (v : Int) (a : Nat) :
    (s.emitResp v).byteAt a = s.byteAt a := rfl

@[simp] theorem State.byteAt_emitDraw (s : State) (e : DrawEvent) (a : Nat) :
    (s.emitDraw e).byteAt a = s.byteAt a := rfl

@[simp] theorem State.byteAt_setTexptr (s : State) (i : BitVec 8) (v : Word) (a : Nat) :
    (s.setTexptr i v).byteAt a = s.byteAt a := rfl

@[simp] theorem State.byteAt_softReset (s : State) (a : Nat) : s.softReset.byteAt a = s.byteAt a := rfl

@[simp] theorem State.byteAt_hardReset (s : State) (a : Nat) : s.hardReset.byteAt a = s.byteAt a := rfl

/-! ## Reads of a register -/

theorem State.x_range_unsigned (s : State) {r : Reg} (hr : r.signed = false) :
    0 ≤ s.x r ∧ s.x r < 2 ^ r.width := Regs.get_range_unsigned _ hr

theorem State.x_range_signed (s : State) {r : Reg} (hr : r.signed = true) :
    -2 ^ (r.width - 1) ≤ s.x r ∧ s.x r < 2 ^ (r.width - 1) := Regs.get_range_signed _ hr

@[simp] theorem State.wrap_x (s : State) (r : Reg) : r.wrap (s.x r) = s.x r := Regs.wrap_get _ _

/-- The stored bits of an unsigned register are its value. -/
theorem State.stored_unsigned (s : State) {r : Reg} (hr : r.signed = false) :
    (s.stored r : Int) = s.x r := by
  have h := s.x_range_unsigned hr
  rw [State.stored, Int.emod_eq_of_lt h.1 h.2, Int.toNat_of_nonneg h.1]

/-- The stored bits after a write are the value mod 2^w (10_state.md R21). -/
theorem State.stored_set (s : State) (r : Reg) (v : Int) :
    ((s.set r v).stored r : Int) = v % 2 ^ r.width := by
  have hp : (0 : Int) < 2 ^ r.width := by positivity
  have hb : (2 : Int) ^ r.width = ((2 ^ r.width : Nat) : Int) := by push_cast; rfl
  rw [State.stored, State.x_set_same, Int.toNat_of_nonneg (Int.emod_nonneg _ hp.ne')]
  unfold Reg.wrap
  split
  · rw [hb]; exact Int.bmod_emod
  · exact Int.emod_emod_of_dvd _ (dvd_refl _)

/-- A one-bit register reads 0 or 1. -/
theorem State.x_one_bit (s : State) {r : Reg} (hs : r.signed = false) (hw : r.width = 1) :
    s.x r = 0 ∨ s.x r = 1 := by
  have h := s.x_range_unsigned hs
  rw [hw] at h
  omega

end Sys2Proof.Machine
end

