-- ==== Sys2Proof/Laws/Frames.lean ====
section
/-! SUPPORT. Frames compose: the frame of one register write, of a sequence of them, of a fault, and
what a flow leaves. -/

namespace Sys2Proof.Machine

theorem ChangesOnly.refl (rs : List Reg) (s : State) : ChangesOnly rs s s :=
  ⟨fun _ _ => rfl, rfl, ⟨rfl, rfl⟩, fun _ => rfl, ⟨rfl, rfl⟩⟩

theorem ChangesOnly.mono {rs rs' : List Reg} {s t : State} (h : ChangesOnly rs s t)
    (hs : ∀ r ∈ rs, r ∈ rs') : ChangesOnly rs' s t :=
  ⟨fun r hr => h.1 r fun h' => hr (hs r h'), h.2⟩

theorem ChangesOnly.trans {rs : List Reg} {s t u : State} (h : ChangesOnly rs s t)
    (h' : ChangesOnly rs t u) : ChangesOnly rs s u := by
  obtain ⟨r1, x1, ⟨p1, d1⟩, m1, c1, o1⟩ := h
  obtain ⟨r2, x2, ⟨p2, d2⟩, m2, c2, o2⟩ := h'
  exact ⟨fun r hr => (r2 r hr).trans (r1 r hr), x2.trans x1, ⟨p2.trans p1, d2.trans d1⟩,
    fun a => (m2 a).trans (m1 a), ⟨c2.trans c1, o2.trans o1⟩⟩

/-- A further write to a listed register stays inside the frame. -/
theorem ChangesOnly.set {rs : List Reg} {s t : State} (h : ChangesOnly rs s t) {r : Reg}
    (hr : r ∈ rs) (v : Int) : ChangesOnly rs s (t.set r v) :=
  h.trans ⟨fun _ hr' => State.x_set_ne _ _ fun e => hr' (e ▸ hr), rfl, ⟨rfl, rfl⟩, fun _ => rfl,
    ⟨rfl, rfl⟩⟩

theorem ChangesOnlyAndDraws.refl (rs : List Reg) (s : State) : ChangesOnlyAndDraws rs s s :=
  ⟨fun _ _ => rfl, rfl, rfl, fun _ => rfl, ⟨rfl, rfl⟩⟩

theorem ChangesOnly.andDraws {rs : List Reg} {s t : State} (h : ChangesOnly rs s t) :
    ChangesOnlyAndDraws rs s t := ⟨h.1, h.2.1, h.2.2.1.1, h.2.2.2.1, h.2.2.2.2⟩

theorem ChangesOnlyAndDraws.mono {rs rs' : List Reg} {s t : State} (h : ChangesOnlyAndDraws rs s t)
    (hs : ∀ r ∈ rs, r ∈ rs') : ChangesOnlyAndDraws rs' s t :=
  ⟨fun r hr => h.1 r fun h' => hr (hs r h'), h.2⟩

theorem ChangesOnlyAndDraws.trans {rs : List Reg} {s t u : State} (h : ChangesOnlyAndDraws rs s t)
    (h' : ChangesOnlyAndDraws rs t u) : ChangesOnlyAndDraws rs s u := by
  obtain ⟨r1, x1, p1, m1, c1, o1⟩ := h
  obtain ⟨r2, x2, p2, m2, c2, o2⟩ := h'
  exact ⟨fun r hr => (r2 r hr).trans (r1 r hr), x2.trans x1, p2.trans p1,
    fun a => (m2 a).trans (m1 a), ⟨c2.trans c1, o2.trans o1⟩⟩

theorem ChangesOnlyAndDraws.emitDraw {rs : List Reg} {s t : State} (h : ChangesOnlyAndDraws rs s t)
    (e : DrawEvent) : ChangesOnlyAndDraws rs s (t.emitDraw e) :=
  h.trans ⟨fun _ _ => rfl, rfl, rfl, fun _ => rfl, ⟨rfl, rfl⟩⟩

/-- Everything the record of a fault does (60_exceptions.md R226). -/
theorem State.recordFault_records (s : State) (c : FaultCause) (info : Int) :
    RecordsFault c info s (s.recordFault c info) := by
  unfold State.recordFault
  split
  · next h =>
    refine ⟨fun _ => ⟨by simp [Reg.wrap, Reg.signed, Reg.width], ?_,
      by simp [Reg.wrap, Reg.signed, Reg.width]⟩, fun h' => absurd h h', ?_⟩
    · cases c <;> simp [Reg.wrap, Reg.signed, Reg.width, FaultCause.code]
    · exact (((ChangesOnly.refl _ _).set (by simp) _).set (by simp) _).set (by simp) _
  · next h => exact ⟨fun h' => absurd h' h, fun _ => ⟨rfl, rfl, rfl⟩, ChangesOnly.refl _ _⟩

@[simp] theorem State.raise_state (s : State) (c : FaultCause) (info : Int) :
    (s.raise c info).state = s.recordFault c info := rfl

@[simp] theorem Flow.state_done (s : State) : (Flow.done s).state = s := rfl

@[simp] theorem Flow.state_ended (s : State) : (Flow.ended s).state = s := rfl

@[simp] theorem Flow.andThen_done (s : State) (k : State → Flow) : (Flow.done s).andThen k = k s := rfl

@[simp] theorem Flow.andThen_ended (s : State) (k : State → Flow) :
    (Flow.ended s).andThen k = .ended s := rfl

@[simp] theorem State.raise_andThen (s : State) (c : FaultCause) (info : Int) (k : State → Flow) :
    (s.raise c info).andThen k = s.raise c info := rfl

/-- A composite of two parts completes when both do; it ends in the first part's fault or the
second's (60_exceptions.md R232). -/
theorem Flow.andThen_cases (f : Flow) (k : State → Flow) :
    (∃ s, f = .done s ∧ f.andThen k = k s) ∨ (∃ s, f = .ended s ∧ f.andThen k = .ended s) := by
  cases f with
  | done s => exact .inl ⟨s, rfl, rfl⟩
  | ended s => exact .inr ⟨s, rfl, rfl⟩

/-- A property of states that both parts keep, the composite keeps. -/
theorem Flow.andThen_state {P : State → Prop} {f : Flow} {k : State → Flow} (hf : P f.state)
    (hk : ∀ s, P s → P (k s).state) : P (f.andThen k).state := by
  cases f with
  | done s => exact hk s hf
  | ended s => exact hf

end Sys2Proof.Machine
end

