-- ==== Sys2Proof/Laws/Commands.lean ====
section
/-! SUPPORT. Per operation, everything it can leave: the frame of each primitive and composite, with or
without a fault. -/

namespace Sys2Proof.Machine

/-! ## Frames of flows -/

/-- What a flow from `s` leaves when its operation writes only the registers `rs`: that frame if it
completed; a fault recorded after some of those writes if it ended (60_exceptions.md R226, R232). -/
def Flow.Frame (rs : List Reg) (s : State) : Flow → Prop
  | .done t => ChangesOnly rs s t
  | .ended t => ∃ u c info, ChangesOnly rs s u ∧ RecordsFault c info u t

/-- From `s` to `t` only the registers `rs` change, and the draw port grows. -/
def ExtendsDraws (rs : List Reg) (s t : State) : Prop :=
  ChangesOnlyAndDraws rs s t ∧ ∃ es, t.draw = s.draw ++ es

/-- `Flow.Frame` for an operation that also appends draw events. -/
def Flow.DrawFrame (rs : List Reg) (s : State) : Flow → Prop
  | .done t => ExtendsDraws rs s t
  | .ended t => ∃ u c info, ExtendsDraws rs s u ∧ RecordsFault c info u t

theorem ChangesOnly.extendsDraws {rs : List Reg} {s t : State} (h : ChangesOnly rs s t) :
    ExtendsDraws rs s t := ⟨h.andDraws, [], by simp [h.2.2.1.2]⟩

theorem ExtendsDraws.trans {rs : List Reg} {s t u : State} (h : ExtendsDraws rs s t)
    (h' : ExtendsDraws rs t u) : ExtendsDraws rs s u := by
  obtain ⟨h1, es, he⟩ := h
  obtain ⟨h2, es', he'⟩ := h'
  exact ⟨h1.trans h2, es ++ es', by rw [he', he, List.append_assoc]⟩

theorem ExtendsDraws.emitDraw (rs : List Reg) (s : State) (e : DrawEvent) :
    ExtendsDraws rs s (s.emitDraw e) := ⟨(ChangesOnlyAndDraws.refl _ _).emitDraw _, [e], rfl⟩

theorem Flow.Frame.raise {rs : List Reg} {s t : State} (h : ChangesOnly rs s t) (c : FaultCause)
    (info : Int) : Flow.Frame rs s (t.raise c info) :=
  ⟨t, c, info, h, t.recordFault_records c info⟩

theorem Flow.Frame.mono {rs rs' : List Reg} {s : State} {f : Flow} (h : f.Frame rs s)
    (hs : ∀ r ∈ rs, r ∈ rs') : f.Frame rs' s := by
  cases f with
  | done t => exact ChangesOnly.mono h hs
  | ended t => obtain ⟨u, c, i, h1, h2⟩ := h; exact ⟨u, c, i, h1.mono hs, h2⟩

theorem Flow.Frame.after {rs : List Reg} {s t : State} (h : ChangesOnly rs s t) {f : Flow}
    (hf : f.Frame rs t) : f.Frame rs s := by
  cases f with
  | done u => exact ChangesOnly.trans h hf
  | ended u => obtain ⟨v, c, i, h1, h2⟩ := hf; exact ⟨v, c, i, h.trans h1, h2⟩

theorem Flow.Frame.andThen {rs : List Reg} {s : State} {f : Flow} {k : State → Flow}
    (h : f.Frame rs s) (hk : ∀ t, (k t).Frame rs t) : (f.andThen k).Frame rs s := by
  cases f with
  | ended t => exact h
  | done t => exact Flow.Frame.after h (hk t)

theorem Flow.Frame.draws {rs : List Reg} {s : State} {f : Flow} (h : f.Frame rs s) :
    f.DrawFrame rs s := by
  cases f with
  | done t => exact ChangesOnly.extendsDraws h
  | ended t => obtain ⟨u, c, i, h1, h2⟩ := h; exact ⟨u, c, i, h1.extendsDraws, h2⟩

theorem Flow.DrawFrame.after {rs : List Reg} {s t : State} (h : ExtendsDraws rs s t) {f : Flow}
    (hf : f.DrawFrame rs t) : f.DrawFrame rs s := by
  cases f with
  | done u => exact ExtendsDraws.trans h hf
  | ended u => obtain ⟨v, c, i, h1, h2⟩ := hf; exact ⟨v, c, i, h.trans h1, h2⟩

theorem Flow.DrawFrame.mono {rs rs' : List Reg} {s : State} {f : Flow} (h : f.DrawFrame rs s)
    (hs : ∀ r ∈ rs, r ∈ rs') : f.DrawFrame rs' s := by
  cases f with
  | done t => exact ⟨ChangesOnlyAndDraws.mono h.1 hs, h.2⟩
  | ended t => obtain ⟨u, c, i, h1, h2⟩ := h; exact ⟨u, c, i, ⟨h1.1.mono hs, h1.2⟩, h2⟩

theorem Flow.DrawFrame.andThen {rs : List Reg} {s : State} {f : Flow} {k : State → Flow}
    (h : f.DrawFrame rs s) (hk : ∀ t, (k t).DrawFrame rs t) : (f.andThen k).DrawFrame rs s := by
  cases f with
  | ended t => exact h
  | done t => exact Flow.DrawFrame.after h (hk t)

/-! ## System, ROM and angle operations -/

/-- A host write takes the value, or raises `BadReg` on an `RO` register. -/
theorem State.hostWrite_frame (s : State) (w : Word) (r : Reg) (v : Int) :
    (s.hostWrite w r v).Frame [r] s := by
  unfold State.hostWrite
  split
  · exact .raise (.refl _ _) _ _
  · exact (ChangesOnly.refl _ _).set (by simp) _

/-- A table lookup inside the table. -/
theorem State.lookup_inside (s : State) {a last : Int} (h0 : 0 ≤ a) (h1 : a ≤ last)
    (rom : Int → Int) : s.lookup a last rom = .done (s.set .trig (rom a)) :=
  if_neg (by omega)

/-- A table lookup outside the table. -/
theorem State.lookup_outside (s : State) {a last : Int} (h : a < 0 ∨ a > last) (rom : Int → Int) :
    s.lookup a last rom = s.raise .trigIndex a := if_pos h

/-- A host write to an `RW` register. -/
theorem State.hostWrite_writable (s : State) (w : Word) {r : Reg} (h : r.readOnly = false) (v : Int) :
    s.hostWrite w r v = .done (s.set r v) := if_neg (by simp [h])

/-- A host write to an `RO` register. -/
theorem State.hostWrite_readOnly (s : State) (w : Word) {r : Reg} (h : r.readOnly = true) (v : Int) :
    s.hostWrite w r v = s.raise .badReg w.toNat := if_pos h

theorem State.lookup_frame (s : State) (a last : Int) (rom : Int → Int) :
    (s.lookup a last rom).Frame [.trig] s := by
  unfold State.lookup
  split
  · exact .raise (.refl _ _) _ _
  · exact (ChangesOnly.refl _ _).set (by simp) _

theorem doNorm_frame (s : State) : (doNorm s).Frame [.angn] s :=
  (ChangesOnly.refl _ _).set (by simp) _

theorem State.writeDecomp_frame (s : State) (a : Int) :
    ChangesOnly [.quad, .cosm, .sinm, .tanv, .tanh, .dflags] s (s.writeDecomp a) :=
  ((((((ChangesOnly.refl _ _).set (by simp) _).set (by simp) _).set (by simp) _).set
    (by simp) _).set (by simp) _).set (by simp) _

theorem doDecomp_frame (s : State) :
    (doDecomp s).Frame [.quad, .cosm, .sinm, .tanv, .tanh, .dflags] s := by
  unfold doDecomp
  split
  · exact .raise (.refl _ _) _ _
  · exact s.writeDecomp_frame _

/-! ## Search and selection -/

theorem State.writeV_frame (s : State) (f l x y t : Int) :
    ChangesOnly [.vfound, .lenv, .vx, .vy, .vtype] s (s.writeV f l x y t) :=
  (((((ChangesOnly.refl _ _).set (by simp) _).set (by simp) _).set (by simp) _).set
    (by simp) _).set (by simp) _

theorem State.writeH_frame (s : State) (f l x y t : Int) :
    ChangesOnly [.hfound, .lenh, .hx, .hy, .htype] s (s.writeH f l x y t) :=
  (((((ChangesOnly.refl _ _).set (by simp) _).set (by simp) _).set (by simp) _).set
    (by simp) _).set (by simp) _

theorem doVsrch_frame (s : State) :
    (doVsrch s).Frame [.vfound, .lenv, .vx, .vy, .vtype] s := by
  unfold doVsrch
  split
  · exact s.writeV_frame _ _ _ _ _
  · split
    · exact .raise (.refl _ _) _ _
    · exact s.writeV_frame _ _ _ _ _
    · exact s.writeV_frame _ _ _ _ _

theorem doHsrch_frame (s : State) :
    (doHsrch s).Frame [.hfound, .lenh, .hx, .hy, .htype] s := by
  unfold doHsrch
  split
  · exact s.writeH_frame _ _ _ _ _
  · split
    · exact .raise (.refl _ _) _ _
    · exact s.writeH_frame _ _ _ _ _
    · exact s.writeH_frame _ _ _ _ _

theorem State.writeHit_frame (s : State) (h : RayHit) :
    ChangesOnly [.hit, .side, .dist, .btype, .hitx, .hity, .sample, .orient] s (s.writeHit h) :=
  ((((((((ChangesOnly.refl _ _).set (by simp) _).set (by simp) _).set (by simp) _).set
    (by simp) _).set (by simp) _).set (by simp) _).set (by simp) _).set (by simp) _

theorem doSelect_frame (s : State) :
    (doSelect s).Frame [.hit, .side, .dist, .btype, .hitx, .hity, .sample, .orient] s :=
  s.writeHit_frame _

theorem doCast_frame (s : State) : (doCast s).Frame castRegs s :=
  ((doNorm_frame s).mono (by simp [castRegs])).andThen fun t =>
    ((doDecomp_frame t).mono (by simp [castRegs])).andThen fun t =>
      ((doVsrch_frame t).mono (by simp [castRegs])).andThen fun t =>
        ((doHsrch_frame t).mono (by simp [castRegs])).andThen fun t =>
          (doSelect_frame t).mono (by simp [castRegs])

/-! ## Projector, texel sampler, render -/

theorem doFish_frame (s : State) : (doFish s).Frame [.corr] s := by
  unfold doFish
  split
  · exact .raise (.refl _ _) _ _
  · exact (ChangesOnly.refl _ _).set (by simp) _

theorem doProj_frame (s : State) : (doProj s).Frame [.height] s := by
  unfold doProj
  split <;> exact (ChangesOnly.refl _ _).set (by simp) _

theorem doSpan_frame (s : State) : (doSpan s).Frame [.col0, .ytop, .y0, .y1] s :=
  ((((ChangesOnly.refl _ _).set (by simp) _).set (by simp) _).set (by simp) _).set (by simp) _

theorem doTstep_frame (s : State) : (doTstep s).Frame [.tstep] s := by
  unfold doTstep
  split <;> exact (ChangesOnly.refl _ _).set (by simp) _

theorem doTrow_frame (row : Int) (s : State) : (doTrow row s).Frame [.trowr] s :=
  (ChangesOnly.refl _ _).set (by simp) _

theorem State.writeTexel_frame (s : State) (t : Except Word Bool) :
    (s.writeTexel t).Frame [.txbit] s := by
  unfold State.writeTexel
  split
  · exact .raise (.refl _ _) _ _
  · exact (ChangesOnly.refl _ _).set (by simp) _

theorem doTexel_frame (s : State) : (doTexel s).Frame [.txbit] s := by
  unfold doTexel
  split
  · exact .raise (.refl _ _) _ _
  · exact s.writeTexel_frame _

theorem doWtexel_frame (s : State) : (doWtexel s).Frame [.txbit] s := by
  unfold doWtexel
  split
  · exact .raise (.refl _ _) _ _
  · split
    · exact .raise (.refl _ _) _ _
    · exact s.writeTexel_frame _

theorem texturedRows_frame (n : Nat) (row : Int) (s : State) :
    (texturedRows n row s).DrawFrame [.trowr, .txbit] s := by
  induction n generalizing row s with
  | zero => exact (ChangesOnly.refl _ _).extendsDraws
  | succ n ih =>
    exact ((doTrow_frame row s).mono (by simp)).draws.andThen fun t =>
      ((doWtexel_frame t).mono (by simp)).draws.andThen fun u =>
        .after ((ExtendsDraws.emitDraw _ _ _).trans (ExtendsDraws.emitDraw _ _ _)) (ih _ _)

/-- The registers a `DRAW` can write (44_render.md R184). -/
def drawRegs : List Reg := [.corr, .height, .col0, .ytop, .y0, .y1, .tstep, .trowr, .txbit]

theorem texturedSlice_frame (s : State) : (texturedSlice s).DrawFrame drawRegs s :=
  ((doTstep_frame s).mono (by simp [drawRegs])).draws.andThen fun t =>
    (texturedRows_frame _ _ t).mono (by simp [drawRegs])

theorem doDraw_frame (s : State) : (doDraw s).DrawFrame drawRegs s := by
  unfold doDraw
  split
  · exact ExtendsDraws.emitDraw _ _ _
  · split
    · exact (ChangesOnly.refl _ _).extendsDraws
    · refine ((doFish_frame s).mono (by simp [drawRegs])).draws.andThen fun t =>
        ((doProj_frame t).mono (by simp [drawRegs])).draws.andThen fun t =>
          ((doSpan_frame t).mono (by simp [drawRegs])).draws.andThen fun t => ?_
      split
      · exact (ExtendsDraws.emitDraw _ _ _).trans (ExtendsDraws.emitDraw _ _ _)
      · exact texturedSlice_frame t

/-! ## No operation touches the memory -/

@[simp] theorem State.mem_recordFault (s : State) (c : FaultCause) (info : Int) :
    (s.recordFault c info).mem = s.mem := by unfold State.recordFault; split <;> rfl

theorem Flow.mem_andThen {m : Memory} {f : Flow} {k : State → Flow} (hf : f.state.mem = m)
    (hk : ∀ t, (k t).state.mem = t.mem) : (f.andThen k).state.mem = m :=
  Flow.andThen_state (P := fun t => t.mem = m) hf fun t ht => (hk t).trans ht

theorem hostWrite_mem (s : State) (w : Word) (r : Reg) (v : Int) :
    (s.hostWrite w r v).state.mem = s.mem := by
  unfold State.hostWrite; split <;> simp

theorem lookup_mem (s : State) (a last : Int) (rom : Int → Int) :
    (s.lookup a last rom).state.mem = s.mem := by unfold State.lookup; split <;> simp

theorem doDecomp_mem (s : State) : (doDecomp s).state.mem = s.mem := by
  unfold doDecomp; split <;> simp [State.writeDecomp]

theorem doVsrch_mem (s : State) : (doVsrch s).state.mem = s.mem := by
  unfold doVsrch; split
  · simp [State.writeV]
  · split <;> simp [State.writeV]

theorem doHsrch_mem (s : State) : (doHsrch s).state.mem = s.mem := by
  unfold doHsrch; split
  · simp [State.writeH]
  · split <;> simp [State.writeH]

theorem doNorm_mem (s : State) : (doNorm s).state.mem = s.mem := by simp [doNorm]

theorem doSelect_mem (s : State) : (doSelect s).state.mem = s.mem := by
  simp [doSelect, State.writeHit]

theorem doCast_mem (s : State) : (doCast s).state.mem = s.mem :=
  Flow.mem_andThen (doNorm_mem s) fun t => Flow.mem_andThen (doDecomp_mem t) fun t =>
    Flow.mem_andThen (doVsrch_mem t) fun t => Flow.mem_andThen (doHsrch_mem t) doSelect_mem

theorem doFish_mem (s : State) : (doFish s).state.mem = s.mem := by
  unfold doFish; split <;> simp

theorem doProj_mem (s : State) : (doProj s).state.mem = s.mem := by unfold doProj; split <;> simp

theorem doTstep_mem (s : State) : (doTstep s).state.mem = s.mem := by
  unfold doTstep; split <;> simp

theorem doSpan_mem (s : State) : (doSpan s).state.mem = s.mem := by simp [doSpan]

theorem doTrow_mem (row : Int) (s : State) : (doTrow row s).state.mem = s.mem := by simp [doTrow]

theorem writeTexel_mem (s : State) (t : Except Word Bool) :
    (s.writeTexel t).state.mem = s.mem := by unfold State.writeTexel; split <;> simp

theorem doTexel_mem (s : State) : (doTexel s).state.mem = s.mem := by
  unfold doTexel; split
  · simp
  · exact writeTexel_mem _ _

theorem doWtexel_mem (s : State) : (doWtexel s).state.mem = s.mem := by
  unfold doWtexel; split
  · simp
  · split
    · simp
    · exact writeTexel_mem _ _

theorem texturedRows_mem (n : Nat) (row : Int) (s : State) :
    (texturedRows n row s).state.mem = s.mem := by
  induction n generalizing row s with
  | zero => rfl
  | succ n ih =>
    exact Flow.mem_andThen (doTrow_mem row s) fun t => Flow.mem_andThen (doWtexel_mem t) fun u =>
      (ih _ _).trans (by simp [State.texturedPair])

theorem doDraw_mem (s : State) : (doDraw s).state.mem = s.mem := by
  unfold doDraw
  split
  · simp [State.debugLine]
  · split
    · simp
    · refine Flow.mem_andThen (doFish_mem s) fun t => Flow.mem_andThen (doProj_mem t) fun t =>
        Flow.mem_andThen (doSpan_mem t) fun t => ?_
      split
      · simp [State.solidSlice]
      · exact Flow.mem_andThen (doTstep_mem t) fun u => texturedRows_mem _ _ u

/-! ## What the groups of result registers hold after they are written -/

theorem State.writeV_results (s : State) (f l x y t : Int) :
    (s.writeV f l x y t).x .vfound = Reg.vfound.wrap f ∧
    (s.writeV f l x y t).x .lenv = Reg.lenv.wrap l ∧
    (s.writeV f l x y t).x .vx = Reg.vx.wrap x ∧ (s.writeV f l x y t).x .vy = Reg.vy.wrap y ∧
    (s.writeV f l x y t).x .vtype = Reg.vtype.wrap t := by
  simp [State.writeV]

theorem State.writeH_results (s : State) (f l x y t : Int) :
    (s.writeH f l x y t).x .hfound = Reg.hfound.wrap f ∧
    (s.writeH f l x y t).x .lenh = Reg.lenh.wrap l ∧
    (s.writeH f l x y t).x .hx = Reg.hx.wrap x ∧ (s.writeH f l x y t).x .hy = Reg.hy.wrap y ∧
    (s.writeH f l x y t).x .htype = Reg.htype.wrap t := by
  simp [State.writeH]

theorem State.writeHit_results (s : State) (h : RayHit) :
    (s.writeHit h).x .hit = bit01 h.hit ∧ (s.writeHit h).x .side = bit01 h.side ∧
    (s.writeHit h).x .dist = Reg.dist.wrap h.dist ∧
    (s.writeHit h).x .btype = Reg.btype.wrap h.btype ∧
    (s.writeHit h).x .hitx = Reg.hitx.wrap h.hitx ∧
    (s.writeHit h).x .hity = Reg.hity.wrap h.hity ∧
    (s.writeHit h).x .sample = Reg.sample.wrap h.sample ∧
    (s.writeHit h).x .orient = bit01 h.orient := by
  simp [State.writeHit]
  refine ⟨?_, ?_, ?_⟩
  · cases h.hit <;> decide
  · cases h.side <;> decide
  · cases h.orient <;> decide

/-- The six flags `DECOMP` packs are the six bits of the value (10_state.md R31). -/
theorem packDflags_bits : ∀ sxn syn skipv skiph : Bool,
    let v := packDflags sxn syn skipv skiph
    0 ≤ v ∧ v < 64 ∧ v.toNat.testBit 0 = sxn ∧ v.toNat.testBit 1 = syn ∧
      v.toNat.testBit 2 = sxn ∧ v.toNat.testBit 3 = !syn ∧ v.toNat.testBit 4 = skipv ∧
      v.toNat.testBit 5 = skiph := by decide

/-- A flag of `DFLAGS` after a write to it. -/
theorem State.dflag_set (s : State) {v : Int} (k : Nat) (h0 : 0 ≤ v) (h1 : v < 64) :
    (s.set .dflags v).dflag k = v.toNat.testBit k := by
  have h := s.stored_set .dflags v
  simp only [Reg.width] at h
  rw [Int.emod_eq_of_lt h0 (by omega)] at h
  unfold State.dflag
  congr 1; omega

end Sys2Proof.Machine
end

