-- ==== Sys2Proof/Laws/Encoding.lean ====
section
/-! SUPPORT. The fields of an encoded command word, and the register index. -/

namespace Sys2Proof

theorem opField_commandWord (op a : BitVec 8) (imm : BitVec 16) :
    opField (commandWord op a imm) = op := by
  apply BitVec.eq_of_getLsbD_eq
  intro i hi
  simp only [opField, commandWord, BitVec.getLsbD_extractLsb', BitVec.getLsbD_append]
  simp [hi, show ¬ 24 + i < 16 by omega, show ¬ 24 + i - 16 < 8 by omega,
    show 24 + i - 16 - 8 = i by omega]

theorem aField_commandWord (op a : BitVec 8) (imm : BitVec 16) :
    aField (commandWord op a imm) = a := by
  apply BitVec.eq_of_getLsbD_eq
  intro i hi
  simp only [aField, commandWord, BitVec.getLsbD_extractLsb', BitVec.getLsbD_append]
  simp [hi, show ¬ 16 + i < 16 by omega, show 16 + i - 16 = i by omega]

theorem immField_commandWord (op a : BitVec 8) (imm : BitVec 16) :
    immField (commandWord op a imm) = imm := by
  apply BitVec.eq_of_getLsbD_eq
  intro i hi
  simp only [immField, commandWord, BitVec.getLsbD_extractLsb', BitVec.getLsbD_append]
  simp [hi]

/-- The value of a command word from its fields (30_encoding.md R82). -/
theorem commandWord_toNat (op a : BitVec 8) (imm : BitVec 16) :
    (commandWord op a imm).toNat = op.toNat * 2 ^ 24 + a.toNat * 2 ^ 16 + imm.toNat := by
  have e1 := congrArg BitVec.toNat (opField_commandWord op a imm)
  have e2 := congrArg BitVec.toNat (aField_commandWord op a imm)
  have e3 := congrArg BitVec.toNat (immField_commandWord op a imm)
  have := (commandWord op a imm).isLt
  simp [opField, aField, immField, BitVec.extractLsb'_toNat, Nat.shiftRight_eq_div_pow] at e1 e2 e3
  omega

theorem opField_encode (i : Instr) : opField (encode i) = i.opcode := opField_commandWord _ _ _

theorem aField_encode (i : Instr) : aField (encode i) = i.aOperand := aField_commandWord _ _ _

theorem immField_encode (i : Instr) : immField (encode i) = i.immOperand :=
  immField_commandWord _ _ _

/-- A word is made of its three fields. -/
theorem commandWord_fields (w : Word) : commandWord (opField w) (aField w) (immField w) = w := by
  apply BitVec.eq_of_getLsbD_eq
  intro i hi
  simp only [opField, aField, immField, commandWord, BitVec.getLsbD_extractLsb',
    BitVec.getLsbD_append]
  by_cases h1 : i < 16
  · simp [h1]
  · by_cases h2 : i - 16 < 8
    · simp [h1, h2, show 16 + (i - 16) = i by omega]
    · simp [h1, h2, show 24 + (i - 16 - 8) = i by omega, show i - 16 - 8 < 8 by omega]

theorem Reg.ofIndex_index (r : Reg) : Reg.ofIndex r.index = some r := by cases r <;> decide

theorem Reg.index_of_ofIndex {i : BitVec 8} {r : Reg} (h : Reg.ofIndex i = some r) :
    r.index = i := by
  have := List.find?_some h
  simpa using this

/-- An index is a register's, or no register has it. -/
theorem Reg.ofIndex_none {i : BitVec 8} (h : Reg.ofIndex i = none) (r : Reg) : r.index ≠ i := by
  intro e
  rw [← e, Reg.ofIndex_index] at h
  exact absurd h (by simp)

end Sys2Proof
end

