-- ==== Sys2Proof/Laws/PerInstr.lean ====
section
/-! SUPPORT. The per-instruction families: the opcode byte of every command's word. -/

namespace Sys2Proof.Laws.EncodedOpcode

/-- The word of a command carries the command's opcode in bits 31:24, and that opcode is assigned: the
decoder does not answer `unassignedOpcode` (30_encoding.md R82, R88). -/
def Statement (i : Instr) : Prop :=
  opField (encode i) = i.opcode ∧ decode (encode i) ≠ .error .unassignedOpcode

/-- A format's decoder never answers `unassignedOpcode`. -/
theorem decodeN_assigned (w : Word) (i : Instr) : decodeN w i ≠ .error .unassignedOpcode := by
  unfold decodeN; split <;> simp

theorem decodeI_assigned (w : Word) (i : BitVec 16 → Instr) :
    decodeI w i ≠ .error .unassignedOpcode := by
  unfold decodeI; split <;> simp

theorem decodeS_assigned (w : Word) (i : BitVec 8 → Instr) :
    decodeS w i ≠ .error .unassignedOpcode := by
  unfold decodeS; split <;> simp

theorem decodeWrite_assigned (w : Word) (i : Reg → BitVec 16 → Instr) :
    decodeWrite w i ≠ .error .unassignedOpcode := by
  unfold decodeWrite; split
  · simp
  · split <;> simp

theorem decodeRead_assigned (w : Word) (i : Reg → Instr) :
    decodeRead w i ≠ .error .unassignedOpcode := by
  unfold decodeRead; split
  · split <;> simp
  · simp

theorem nop : Statement (.nop) :=
  ⟨opField_encode _, by rw [decode, opField_encode]; exact decodeN_assigned _ _⟩

theorem wrl (r : Reg) (imm : BitVec 16) : Statement (.wrl r imm) :=
  ⟨opField_encode _, by rw [decode, opField_encode]; exact decodeWrite_assigned _ _⟩

theorem wrh (r : Reg) (imm : BitVec 16) : Statement (.wrh r imm) :=
  ⟨opField_encode _, by rw [decode, opField_encode]; exact decodeWrite_assigned _ _⟩

theorem rd (r : Reg) : Statement (.rd r) :=
  ⟨opField_encode _, by rw [decode, opField_encode]; exact decodeRead_assigned _ _⟩

theorem loadmap : Statement (.loadmap) :=
  ⟨opField_encode _, by rw [decode, opField_encode]; exact decodeN_assigned _ _⟩

theorem settex (slot : BitVec 8) : Statement (.settex slot) :=
  ⟨opField_encode _, by rw [decode, opField_encode]; exact decodeS_assigned _ _⟩

theorem gettex (slot : BitVec 8) : Statement (.gettex slot) :=
  ⟨opField_encode _, by rw [decode, opField_encode]; exact decodeS_assigned _ _⟩

theorem srst : Statement (.srst) :=
  ⟨opField_encode _, by rw [decode, opField_encode]; exact decodeN_assigned _ _⟩

theorem cos16 (imm : BitVec 16) : Statement (.cos16 imm) :=
  ⟨opField_encode _, by rw [decode, opField_encode]; exact decodeI_assigned _ _⟩

theorem sin16 (imm : BitVec 16) : Statement (.sin16 imm) :=
  ⟨opField_encode _, by rw [decode, opField_encode]; exact decodeI_assigned _ _⟩

theorem cos128 (imm : BitVec 16) : Statement (.cos128 imm) :=
  ⟨opField_encode _, by rw [decode, opField_encode]; exact decodeI_assigned _ _⟩

theorem norm : Statement (.norm) :=
  ⟨opField_encode _, by rw [decode, opField_encode]; exact decodeN_assigned _ _⟩

theorem decomp : Statement (.decomp) :=
  ⟨opField_encode _, by rw [decode, opField_encode]; exact decodeN_assigned _ _⟩

theorem vsrch : Statement (.vsrch) :=
  ⟨opField_encode _, by rw [decode, opField_encode]; exact decodeN_assigned _ _⟩

theorem hsrch : Statement (.hsrch) :=
  ⟨opField_encode _, by rw [decode, opField_encode]; exact decodeN_assigned _ _⟩

theorem select : Statement (.select) :=
  ⟨opField_encode _, by rw [decode, opField_encode]; exact decodeN_assigned _ _⟩

theorem cast : Statement (.cast) :=
  ⟨opField_encode _, by rw [decode, opField_encode]; exact decodeN_assigned _ _⟩

theorem fish : Statement (.fish) :=
  ⟨opField_encode _, by rw [decode, opField_encode]; exact decodeN_assigned _ _⟩

theorem proj : Statement (.proj) :=
  ⟨opField_encode _, by rw [decode, opField_encode]; exact decodeN_assigned _ _⟩

theorem span : Statement (.span) :=
  ⟨opField_encode _, by rw [decode, opField_encode]; exact decodeN_assigned _ _⟩

theorem tstep : Statement (.tstep) :=
  ⟨opField_encode _, by rw [decode, opField_encode]; exact decodeN_assigned _ _⟩

theorem trow (imm : BitVec 16) : Statement (.trow imm) :=
  ⟨opField_encode _, by rw [decode, opField_encode]; exact decodeI_assigned _ _⟩

theorem texel : Statement (.texel) :=
  ⟨opField_encode _, by rw [decode, opField_encode]; exact decodeN_assigned _ _⟩

theorem wtexel : Statement (.wtexel) :=
  ⟨opField_encode _, by rw [decode, opField_encode]; exact decodeN_assigned _ _⟩

theorem draw : Statement (.draw) :=
  ⟨opField_encode _, by rw [decode, opField_encode]; exact decodeN_assigned _ _⟩

theorem ray : Statement (.ray) :=
  ⟨opField_encode _, by rw [decode, opField_encode]; exact decodeN_assigned _ _⟩

end Sys2Proof.Laws.EncodedOpcode
end

