-- ==== Sys2Proof/Laws/Search.lean ====
section
/-! SUPPORT. The cell lookup and the walk of the searches: everything they can answer, and that the
bound on the walk's iterations is never what ends it (42_dda_search.md R136, R142). -/

namespace Sys2Proof.Machine

/-! ## The cell lookup -/

/-- `OUT` exactly when an index is outside the map (42_dda_search.md R136). -/
theorem State.cell_out_iff (s : State) (col row : Int) :
    s.cell col row = .ok none ↔
      col < 0 ∨ col ≥ s.x .mapw ∨ row < 0 ∨ row ≥ s.x .maph := by
  unfold State.cell
  split
  · next h => simp [h]
  · next h =>
    simp only [h, iff_false]
    cases s.memRead (s.x .mapbase + row * s.x .mapw + col) <;> simp [Except.map]

/-- In bounds, the cell is the byte at its address, or that address is not answered
(42_dda_search.md R136, 20_memory.md R64). -/
theorem State.cell_in (s : State) {col row : Int} (h0 : 0 ≤ col) (h1 : col < s.x .mapw)
    (h2 : 0 ≤ row) (h3 : row < s.x .maph) :
    s.cell col row = match s.byteAt (s.cellAddr col row) with
      | some b => .ok (some b)
      | none => .error (portAddr (s.x .mapbase + row * s.x .mapw + col)) := by
  have ha : s.cellAddr col row = (portAddr (s.x .mapbase + row * s.x .mapw + col)).toNat := by
    have := portAddr_toNat (s.x .mapbase + row * s.x .mapw + col)
    unfold State.cellAddr; omega
  rw [State.cell, if_neg (by omega), State.memRead_eq, ha]
  cases s.byteAt (portAddr (s.x .mapbase + row * s.x .mapw + col)).toNat <;> simp [Except.map]

/-- On an answered map no lookup fails. -/
theorem State.cell_answered {s : State} (h : s.MapAnswered) (col row : Int) (a : Word) :
    s.cell col row ≠ .error a := by
  by_cases hb : 0 ≤ col ∧ col < s.x .mapw ∧ 0 ≤ row ∧ row < s.x .maph
  · obtain ⟨h0, h1, h2, h3⟩ := hb
    have hs := h col row h0 h1 h2 h3
    rw [s.cell_in h0 h1 h2 h3]
    cases hr : s.byteAt (s.cellAddr col row) with
    | none => simp [hr] at hs
    | some b => simp
  · rw [(s.cell_out_iff col row).2 (by omega)]; simp

/-! ## The walk -/

/-- The cell a walk examines at its `k`-th crossing. -/
def State.walkCell (s : State) (ac ar dx dy cx cy : Int) (k : Nat) : Except Word (Option Byte) :=
  s.cell (asr (cx + k * dx) s.cfg.bsLog2 + ac) (asr (cy + k * dy) s.cfg.bsLog2 + ar)

theorem State.walkCell_succ (s : State) (ac ar dx dy cx cy : Int) (k : Nat) :
    s.walkCell ac ar dx dy cx cy (k + 1) = s.walkCell ac ar dx dy (cx + dx) (cy + dy) k := by
  have hx : cx + ((k + 1 : Nat) : Int) * dx = cx + dx + k * dx := by push_cast; ring
  have hy : cy + ((k + 1 : Nat) : Int) * dy = cy + dy + k * dy := by push_cast; ring
  simp only [State.walkCell, hx, hy]

/-- What a walk of `n` iterations answers, at its `k`-th crossing. -/
def State.WalkEndsAt (s : State) (ac ar dx dy : Int) (n : Nat) (cx cy : Int) (k : Nat) :
    Except Word WalkEnd → Prop
  | .error a => k < n ∧ s.walkCell ac ar dx dy cx cy k = .error a
  | .ok e => e.cx = cx + k * dx ∧ e.cy = cy + k * dy ∧
      match e.hit with
      | none => k = n ∨ s.walkCell ac ar dx dy cx cy k = .ok none
      | some t => k < n ∧ t ≠ 0 ∧ s.walkCell ac ar dx dy cx cy k = .ok (some t)

/-- Everything a walk can do: it passes empty cells up to some crossing and ends there, in a byte that
is not answered, a cell that is `OUT`, a solid cell, or its bound. -/
theorem State.walk_spec (s : State) (ac ar dx dy : Int) (n : Nat) (cx cy : Int) :
    ∃ k ≤ n, (∀ j < k, s.walkCell ac ar dx dy cx cy j = .ok (some 0)) ∧
      s.WalkEndsAt ac ar dx dy n cx cy k (s.walk ac ar dx dy n cx cy) := by
  induction n generalizing cx cy with
  | zero => exact ⟨0, le_refl _, by omega, by simp [State.walk, State.WalkEndsAt]⟩
  | succ n ih =>
    have h0 : s.walkCell ac ar dx dy cx cy 0 =
        s.cell (asr cx s.cfg.bsLog2 + ac) (asr cy s.cfg.bsLog2 + ar) := by
      simp [State.walkCell]
    simp only [State.walk]
    rw [← h0]
    cases hc : s.walkCell ac ar dx dy cx cy 0 with
    | error a => exact ⟨0, by omega, by omega, by simp [State.WalkEndsAt, hc]⟩
    | ok o =>
      cases o with
      | none => exact ⟨0, by omega, by omega, by simp [State.WalkEndsAt, hc]⟩
      | some t =>
        by_cases ht : t = 0
        · subst ht
          obtain ⟨k, hk, hj, hend⟩ := ih (cx + dx) (cy + dy)
          refine ⟨k + 1, by omega, ?_, ?_⟩
          · intro j hjk
            cases j with
            | zero => exact hc
            | succ j => rw [State.walkCell_succ]; exact hj j (by omega)
          · simp only [if_true]
            have hx : cx + ((k + 1 : Nat) : Int) * dx = cx + dx + k * dx := by push_cast; ring
            have hy : cy + ((k + 1 : Nat) : Int) * dy = cy + dy + k * dy := by push_cast; ring
            revert hend
            cases s.walk ac ar dx dy n (cx + dx) (cy + dy) with
            | error a =>
              simp only [State.WalkEndsAt, State.walkCell_succ]
              rintro ⟨h1, h2⟩; exact ⟨by omega, h2⟩
            | ok e =>
              simp only [State.WalkEndsAt, State.walkCell_succ, hx, hy]
              rintro ⟨h1, h2, h3⟩
              refine ⟨h1, h2, ?_⟩
              cases he : e.hit with
              | none => rw [he] at h3; simpa using h3
              | some t =>
                rw [he] at h3
                exact ⟨by have := h3.1; omega, h3.2⟩
        · refine ⟨0, by omega, by omega, ?_⟩
          simp only [if_neg ht, State.WalkEndsAt]
          exact ⟨by simp, by simp, by omega, ht, hc⟩

/-- A walk whose bound is past a crossing where it must stop does not depend on the bound. -/
theorem State.walk_bound_irrelevant (s : State) (ac ar dx dy : Int) :
    ∀ (k n m : Nat) (cx cy : Int), s.walkCell ac ar dx dy cx cy k ≠ .ok (some 0) → k < n → k < m →
      s.walk ac ar dx dy n cx cy = s.walk ac ar dx dy m cx cy := by
  intro k
  induction k with
  | zero =>
    intro n m cx cy h hn hm
    obtain ⟨n, rfl⟩ : ∃ n', n = n' + 1 := ⟨n - 1, by omega⟩
    obtain ⟨m, rfl⟩ : ∃ m', m = m' + 1 := ⟨m - 1, by omega⟩
    have h0 : s.walkCell ac ar dx dy cx cy 0 =
        s.cell (asr cx s.cfg.bsLog2 + ac) (asr cy s.cfg.bsLog2 + ar) := by
      simp [State.walkCell]
    simp only [State.walk]
    rw [← h0]
    split
    · rfl
    · rfl
    · next t ht =>
      have h1 : t ≠ 0 := fun e => h (e ▸ ht)
      rw [if_neg h1, if_neg h1]
  | succ k ih =>
    intro n m cx cy h hn hm
    obtain ⟨n, rfl⟩ : ∃ n', n = n' + 1 := ⟨n - 1, by omega⟩
    obtain ⟨m, rfl⟩ : ∃ m', m = m' + 1 := ⟨m - 1, by omega⟩
    simp only [State.walk]
    rw [ih n m (cx + dx) (cy + dy) (by rwa [← State.walkCell_succ]) (by omega) (by omega)]

/-- Whole blocks move the cell index by whole cells. -/
theorem asr_add_blocks (c : Config) (a : Int) (k : Nat) (neg : Bool) :
    asr (a + k * blockStep c neg) c.bsLog2 = asr a c.bsLog2 + k * signOf neg := by
  have hp : (0 : Int) < 2 ^ c.bsLog2 := by positivity
  rw [asr_eq_ediv, asr_eq_ediv, blockStep, bs_eq_two_pow]
  cases neg with
  | false => simp [signOf, Int.add_mul_ediv_right _ _ hp.ne']
  | true =>
    have : a + k * -(2 : Int) ^ c.bsLog2 = a + (-k) * 2 ^ c.bsLog2 := by ring
    simp only [if_true, signOf, this, Int.add_mul_ediv_right _ _ hp.ne']
    ring

/-- An index that moves by one cell an iteration leaves a span of `w` cells within `w` iterations. -/
theorem index_leaves_span (i w : Int) (hw : 0 ≤ w) (neg : Bool) :
    ∃ k : Nat, k ≤ w.toNat ∧ (i + k * signOf neg < 0 ∨ i + k * signOf neg ≥ w) := by
  by_cases h : i < 0 ∨ i ≥ w
  · exact ⟨0, by omega, by simpa using h⟩
  · cases neg with
    | false => exact ⟨(w - i).toNat, by omega, .inr (by simp [signOf]; omega)⟩
    | true => exact ⟨(i + 1).toNat, by omega, .inl (by simp [signOf])⟩

/-- The vertical-line search meets a cell that is `OUT` within `MAPW + 1` crossings
(42_dda_search.md R142). -/
theorem State.vCell_leaves (s : State) : ∃ k ≤ (s.x .mapw).toNat, s.vCell k = .ok none := by
  obtain ⟨k, hk, h⟩ := index_leaves_span
    (asr (firstLine s.cfg (s.x .px) s.sxn) s.cfg.bsLog2 + farSide s.sxn) (s.x .mapw)
    (s.x_range_unsigned rfl).1 s.sxn
  refine ⟨k, hk, (s.cell_out_iff _ _).2 ?_⟩
  have hx : (s.vCross k).1 = firstLine s.cfg (s.x .px) s.sxn + k * blockStep s.cfg s.sxn := rfl
  rw [hx, asr_add_blocks]
  rcases h with h | h
  · exact .inl (by linarith)
  · exact .inr (.inl (by linarith))

/-- The horizontal-line search meets a cell that is `OUT` within `MAPH + 1` crossings
(42_dda_search.md R142). -/
theorem State.hCell_leaves (s : State) : ∃ k ≤ (s.x .maph).toNat, s.hCell k = .ok none := by
  obtain ⟨k, hk, h⟩ := index_leaves_span
    (asr (firstLine s.cfg (s.x .py) s.syn) s.cfg.bsLog2 + farSide s.syn) (s.x .maph)
    (s.x_range_unsigned rfl).1 s.syn
  refine ⟨k, hk, (s.cell_out_iff _ _).2 ?_⟩
  have hy : (s.hCross k).2 = firstLine s.cfg (s.x .py) s.syn + k * blockStep s.cfg s.syn := rfl
  rw [hy, asr_add_blocks]
  rcases h with h | h
  · exact .inr (.inr (.inl (by linarith)))
  · exact .inr (.inr (.inr (by linarith)))

/-- The vertical-line search's bound is never what ends it: any larger bound gives the same answer. -/
theorem State.vWalk_bound_irrelevant (s : State) {m : Nat} (hm : (s.x .mapw).toNat < m) :
    s.vWalk = s.walk (farSide s.sxn) 0 (blockStep s.cfg s.sxn) (signOf s.syn * s.x .tanv) m
      (s.vCross 0).1 (s.vCross 0).2 := by
  obtain ⟨k, hk, h⟩ := s.vCell_leaves
  have hc : s.walkCell (farSide s.sxn) 0 (blockStep s.cfg s.sxn) (signOf s.syn * s.x .tanv)
      (s.vCross 0).1 (s.vCross 0).2 k = s.vCell k := by
    simp [State.walkCell, State.vCell, State.vCross]
  have := s.walk_bound_irrelevant (farSide s.sxn) 0 (blockStep s.cfg s.sxn)
    (signOf s.syn * s.x .tanv) k ((s.x .mapw).toNat + 1) m (s.vCross 0).1 (s.vCross 0).2
    (by rw [hc, h]; simp) (by omega) (by omega)
  rw [← this]
  simp [State.vWalk, State.vCross]

/-- The horizontal-line search's bound is never what ends it. -/
theorem State.hWalk_bound_irrelevant (s : State) {m : Nat} (hm : (s.x .maph).toNat < m) :
    s.hWalk = s.walk 0 (farSide s.syn) (signOf s.sxn * s.x .tanh) (blockStep s.cfg s.syn) m
      (s.hCross 0).1 (s.hCross 0).2 := by
  obtain ⟨k, hk, h⟩ := s.hCell_leaves
  have hc : s.walkCell 0 (farSide s.syn) (signOf s.sxn * s.x .tanh) (blockStep s.cfg s.syn)
      (s.hCross 0).1 (s.hCross 0).2 k = s.hCell k := by
    simp [State.walkCell, State.hCell, State.hCross]
  have := s.walk_bound_irrelevant 0 (farSide s.syn) (signOf s.sxn * s.x .tanh)
    (blockStep s.cfg s.syn) k ((s.x .maph).toNat + 1) m (s.hCross 0).1 (s.hCross 0).2
    (by rw [hc, h]; simp) (by omega) (by omega)
  rw [← this]
  simp [State.hWalk, State.hCross]

/-- What a search answers whose walk stops at the cursor `c`, given the cell examined there. -/
def endAt (c : Int × Int) : Except Word (Option Byte) → Except Word WalkEnd
  | .error a => .error a
  | .ok o => .ok ⟨c.1, c.2, o⟩

/-- A walk that leaves the map before its bound ends at the first cell that is not empty. -/
theorem State.walk_ends (s : State) (ac ar dx dy : Int) (n : Nat) (cx cy : Int)
    (hn : ∃ k < n, s.walkCell ac ar dx dy cx cy k = .ok none) :
    ∃ k < n, (∀ j < k, s.walkCell ac ar dx dy cx cy j = .ok (some 0)) ∧
      s.walkCell ac ar dx dy cx cy k ≠ .ok (some 0) ∧
      s.walk ac ar dx dy n cx cy =
        endAt (cx + k * dx, cy + k * dy) (s.walkCell ac ar dx dy cx cy k) := by
  obtain ⟨k0, hk0, h0⟩ := hn
  obtain ⟨k, hk, hj, hend⟩ := s.walk_spec ac ar dx dy n cx cy
  have hk2 : k < n := by
    by_contra h
    have := hj k0 (by omega)
    rw [h0] at this; simp at this
  refine ⟨k, hk2, hj, ?_⟩
  revert hend
  cases hw : s.walk ac ar dx dy n cx cy with
  | error a => rintro ⟨_, h⟩; rw [h]; exact ⟨by simp, rfl⟩
  | ok e =>
    obtain ⟨ex, ey, eh⟩ := e
    rintro ⟨h1, h2, h3⟩
    simp only at h1 h2
    subst h1 h2
    cases eh with
    | none =>
      rcases h3 with h3 | h3
      · omega
      · rw [h3]; exact ⟨by simp, rfl⟩
    | some t =>
      rw [h3.2.2]
      exact ⟨by simpa using h3.2.1, rfl⟩

/-- Everything the vertical-line walk answers: it ends at the first crossing, at most `MAPW`, whose
cell is not empty. -/
theorem State.vWalk_spec (s : State) :
    ∃ k ≤ (s.x .mapw).toNat, (∀ j < k, s.vCell j = .ok (some 0)) ∧ s.vCell k ≠ .ok (some 0) ∧
      s.vWalk = endAt (s.vCross k) (s.vCell k) := by
  have hc : ∀ k, s.walkCell (farSide s.sxn) 0 (blockStep s.cfg s.sxn) (signOf s.syn * s.x .tanv)
      (s.vCross 0).1 (s.vCross 0).2 k = s.vCell k := fun k => by
    simp [State.walkCell, State.vCell, State.vCross]
  obtain ⟨k0, hk0, h0⟩ := s.vCell_leaves
  obtain ⟨k, hk, hj, hne, hw⟩ := s.walk_ends (farSide s.sxn) 0 (blockStep s.cfg s.sxn)
    (signOf s.syn * s.x .tanv) ((s.x .mapw).toNat + 1) (s.vCross 0).1 (s.vCross 0).2
    ⟨k0, by omega, by rw [hc, h0]⟩
  simp only [hc] at hj hne hw
  refine ⟨k, by omega, hj, hne, ?_⟩
  rw [s.vWalk_bound_irrelevant (Nat.lt_succ_self _), hw]
  simp [State.vCross]

/-- Everything the horizontal-line walk answers. -/
theorem State.hWalk_spec (s : State) :
    ∃ k ≤ (s.x .maph).toNat, (∀ j < k, s.hCell j = .ok (some 0)) ∧ s.hCell k ≠ .ok (some 0) ∧
      s.hWalk = endAt (s.hCross k) (s.hCell k) := by
  have hc : ∀ k, s.walkCell 0 (farSide s.syn) (signOf s.sxn * s.x .tanh) (blockStep s.cfg s.syn)
      (s.hCross 0).1 (s.hCross 0).2 k = s.hCell k := fun k => by
    simp [State.walkCell, State.hCell, State.hCross]
  obtain ⟨k0, hk0, h0⟩ := s.hCell_leaves
  obtain ⟨k, hk, hj, hne, hw⟩ := s.walk_ends 0 (farSide s.syn) (signOf s.sxn * s.x .tanh)
    (blockStep s.cfg s.syn) ((s.x .maph).toNat + 1) (s.hCross 0).1 (s.hCross 0).2
    ⟨k0, by omega, by rw [hc, h0]⟩
  simp only [hc] at hj hne hw
  refine ⟨k, by omega, hj, hne, ?_⟩
  rw [s.hWalk_bound_irrelevant (Nat.lt_succ_self _), hw]
  simp [State.hCross]

end Sys2Proof.Machine
end

