-- ==== Sys2Proof/Laws/Step.lean ====
section
/-! SUPPORT. The step and the command port: everything each of the host's actions can lead to. -/

namespace Sys2Proof.Machine

/-- No action: the block waits. -/
theorem step_idle {s : State} (h : s.host = []) : step s = .next s := by
  simp [step, State.takeInput, h]

/-- The host writes a byte. -/
theorem step_store {s : State} {a : Word} {b : Byte} {rest : List HostInput}
    (h : s.host = .store a b :: rest) :
    step s = .next (State.hostStore { s with host := rest } a b) := by
  simp [step, State.takeInput, h]

/-- The hardware reset. -/
theorem step_hardReset {s : State} {rest : List HostInput} (h : s.host = .hardReset :: rest) :
    step s = .next (State.hardReset { s with host := rest }) := by
  simp [step, State.takeInput, h]

/-- A command word. -/
theorem step_command {s : State} {w : Word} {rest : List HostInput}
    (h : s.host = .command w :: rest) :
    step s = match State.accept { s with host := rest } w with
      | .settle t => .next t
      | .perform i t => exec i t := by
  have e : s.takeInput = State.accept { s with host := rest } w := by simp [State.takeInput, h]
  exact congrArg (fun p : PortAction => match p with
    | .settle t => Host.Outcome.next t
    | .perform i t => exec i t) e

/-- A word is dropped exactly while `F = 1`, and unless it is `RD`, `GETTEX` or `SRST`
(30_encoding.md R89 step 1). -/
theorem State.drops_iff (s : State) (w : Word) :
    s.drops w = true ↔
      s.x .status = 1 ∧ opField w ≠ 0x03 ∧ opField w ≠ 0x06 ∧ opField w ≠ 0x07 := by
  simp [State.drops, State.bit, and_assoc]

/-- Everything the port does with a word: drop it, record the decoder's fault, or perform it. -/
theorem State.accept_cases (s : State) (w : Word) :
    (s.drops w = true ∧ s.accept w = .settle s) ∨
    (s.drops w = false ∧ ∃ e, decode w = .error e ∧
      s.accept w = .settle (s.recordFault (rejectCause e) w.toNat)) ∨
    (s.drops w = false ∧ ∃ i, decode w = .ok i ∧ s.accept w = .perform i s) := by
  unfold State.accept
  cases hd : s.drops w with
  | true => exact .inl ⟨rfl, by simp⟩
  | false =>
    cases hw : decode w with
    | error e => exact .inr (.inl ⟨rfl, e, rfl, rfl⟩)
    | ok i => exact .inr (.inr ⟨rfl, i, rfl, rfl⟩)

end Sys2Proof.Machine
end

