-- ==== Sys2Proof/Laws/Texel.lean ====
section
/-! SUPPORT. The texel decode: the mask of 45_texel.md R196 is bit `7 - index mod 8`, and what a texel
fetch answers. -/

namespace Sys2Proof.Machine

/-- The mask `128 >> k` picks bit `7 - k` of a byte, for every byte and every `k` in 0 to 7. -/
theorem mask_picks_bit : ∀ (b : BitVec 8) (k : Fin 8),
    ((b.toNat &&& (128 / 2 ^ k.val) : Nat) != 0) = b.getLsbD (7 - k.val) := by decide +kernel

theorem texelBit_eq (b : Byte) {i : Int} (h : 0 ≤ i) :
    texelBit b i = b.getLsbD (7 - (i % 8).toNat) := by
  have h8 : andInt i 7 = i % 8 := andInt_mask h 3
  have hk : 0 ≤ i % 8 ∧ i % 8 < 8 := by omega
  unfold texelBit
  rw [h8, asr_eq_ediv]
  obtain ⟨k, hk'⟩ := Int.eq_ofNat_of_zero_le hk.1
  rw [hk']
  have ht := mask_picks_bit b ⟨k, by omega⟩
  simp only [Int.toNat_natCast] at ht ⊢
  rw [← ht]
  have e : ((128 : Int) / 2 ^ k).toNat = 128 / 2 ^ k := by
    have : (128 : Int) / 2 ^ k = ((128 / 2 ^ k : Nat) : Int) := by push_cast; rfl
    rw [this]; rfl
  simp [andInt, e]
  by_cases hz : b.toNat &&& 128 / 2 ^ k = 0 <;> simp [hz]

/-- Everything a texel fetch answers: the texel, or the address of the byte that is not answered. -/
theorem State.getTexel_eq (s : State) (base width x y : Int) (h : 0 ≤ y * width + x) :
    s.getTexel base width x y = match s.texelAt base width x y with
      | some b => .ok b
      | none => .error (portAddr (base + (y * width + x) / 8)) := by
  unfold State.getTexel State.texelAt texelIndex
  rw [State.memRead_eq, asr_eq_ediv]
  have e : (portAddr (base + (y * width + x) / 2 ^ 3)).toNat =
      ((base + (y * width + x) / 8) % 2 ^ 32).toNat := by
    have := portAddr_toNat (base + (y * width + x) / 2 ^ 3)
    norm_num at this ⊢; omega
  rw [e]
  cases s.byteAt _ with
  | none => simp [Except.map]
  | some b => simp [Except.map, texelBit_eq b h]

end Sys2Proof.Machine
end

