-- ==== Sys2Proof/Tests/Slice0.lean ====
section
/-! SUPPORT. Tests of the model on the spec's own words, examples and corner cases, and for every
obligation with hypotheses a state that meets them. -/

namespace Sys2Proof.Tests

open Sys2Proof.Machine

/-! ## Helpers -/

/-- A platform whose memory answers these cells and no other address. -/
def answering (cells : List Host.Cell) (c : Config := .refcfg) : Config :=
  { c with memValid := cells.map fun p => ⟨p.1, 1⟩ }

/-- The reset state with some registers, the given cells as all the memory there is, and host
actions. -/
def st (rs : List (Reg × Int)) (cells : List Host.Cell := []) (host : List HostInput := []) : State :=
  rs.foldl (fun s p => s.set p.1 p.2)
    { State.reset with
      cfg := answering cells, mem := cells.filter (fun p => p.2 != Memory.unlisted), host := host }

/-- A register after one command. -/
def after (i : Instr) (s : State) (r : Reg) : Option Int :=
  match exec i s with
  | .next t => some (t.x r)
  | .fault f => nomatch f
  | .refused _ => none

/-- Several registers after one command. -/
def afters (i : Instr) (s : State) (rs : List Reg) : List (Option Int) := rs.map (after i s)

/-- The state after one command. -/
def run (i : Instr) (s : State) : State :=
  match exec i s with
  | .next t => t
  | .fault f => nomatch f
  | .refused _ => s

/-- The state after one step. -/
def run1 (s : State) : State :=
  match step s with
  | .next t => t
  | .fault f => nomatch f
  | .refused _ => s

/-- MAP-A of 95_test_vectors.md at address 0x1000: bytes 01 01 01 00. -/
def mapA : List Host.Cell := [(0x1000, 1), (0x1001, 1), (0x1002, 1), (0x1003, 0)]

/-- The registers of a loaded MAP-A with the player at (96, 96). -/
def poseA (angle : Int) : List (Reg × Int) :=
  [(.mapbase, 0x1000), (.mapw, 2), (.maph, 2), (.worldw, 128), (.worldh, 128), (.px, 96), (.py, 96),
   (.angle, angle), (.ray, 32)]

/-! ## Well-formedness: a host write to an `RO` register is the one ill-formed command -/

theorem test_wellFormed_refuses_wrl_readOnly : (Instr.wrl .mapw 4).wellFormed = false := by decide

theorem test_wellFormed_refuses_wrh_readOnly : (Instr.wrh .status 1).wellFormed = false := by decide

theorem test_wellFormed_accepts_rd_readOnly : (Instr.rd .status).wellFormed = true := by decide

theorem test_readOnly_registers : Reg.all.filter Reg.readOnly =
    [.status, .fcause, .finfo, .mapbase, .mapw, .maph, .worldw, .worldh] := by decide

/-! ## Decoding: every command's word written out from 30_encoding.md R82 to R88 -/

/-- R205. -/
theorem test_decode_nop :
    decode 0b00000000_00000000_0000000000000000 = .ok .nop := by decide

/-- R107 example. -/
theorem test_decode_wrl :
    decode 0b00000001_00000010_1111111110100110 = .ok (.wrl .angle 0xFFA6) := by decide

/-- R207 example. -/
theorem test_decode_wrh :
    decode 0b00000010_00000101_0000000000000001 = .ok (.wrh .lmbase 1) := by decide

/-- R208 example. -/
theorem test_decode_rd :
    decode 0b00000011_00110011_0000000000000000 = .ok (.rd .ytop) := by decide

/-- R209. -/
theorem test_decode_loadmap :
    decode 0b00000100_00000000_0000000000000000 = .ok .loadmap := by decide

/-- R86. -/
theorem test_decode_settex :
    decode 0b00000101_00000000_0000000011111111 = .ok (.settex 255) := by decide

/-- R211 example. -/
theorem test_decode_gettex :
    decode 0b00000110_00000000_0000000011111111 = .ok (.gettex 255) := by decide

/-- R212. -/
theorem test_decode_srst :
    decode 0b00000111_00000000_0000000000000000 = .ok .srst := by decide

/-- R104 example. -/
theorem test_decode_cos16 :
    decode 0b00010000_00000000_0000000000111100 = .ok (.cos16 60) := by decide

/-- R105 example. -/
theorem test_decode_sin16 :
    decode 0b00010001_00000000_0000000000011110 = .ok (.sin16 30) := by decide

/-- R106 example. -/
theorem test_decode_cos128 :
    decode 0b00010010_00000000_0000000000101101 = .ok (.cos128 45) := by decide

/-- R107. -/
theorem test_decode_norm :
    decode 0b00010011_00000000_0000000000000000 = .ok .norm := by decide

/-- R121. -/
theorem test_decode_decomp :
    decode 0b00100000_00000000_0000000000000000 = .ok .decomp := by decide

/-- R143. -/
theorem test_decode_vsrch :
    decode 0b00110000_00000000_0000000000000000 = .ok .vsrch := by decide

/-- R144. -/
theorem test_decode_hsrch :
    decode 0b00110001_00000000_0000000000000000 = .ok .hsrch := by decide

/-- R146. -/
theorem test_decode_select :
    decode 0b00110010_00000000_0000000000000000 = .ok .select := by decide

/-- R148. -/
theorem test_decode_cast :
    decode 0b00110011_00000000_0000000000000000 = .ok .cast := by decide

/-- R161. -/
theorem test_decode_fish :
    decode 0b01000000_00000000_0000000000000000 = .ok .fish := by decide

/-- R162. -/
theorem test_decode_proj :
    decode 0b01000001_00000000_0000000000000000 = .ok .proj := by decide

/-- R163. -/
theorem test_decode_span :
    decode 0b01000010_00000000_0000000000000000 = .ok .span := by decide

/-- R164. -/
theorem test_decode_tstep :
    decode 0b01000011_00000000_0000000000000000 = .ok .tstep := by decide

/-- R165. -/
theorem test_decode_trow :
    decode 0b01000100_00000000_1111111111111101 = .ok (.trow 0xFFFD) := by decide

/-- R198. -/
theorem test_decode_texel :
    decode 0b01010000_00000000_0000000000000000 = .ok .texel := by decide

/-- R199. -/
theorem test_decode_wtexel :
    decode 0b01010001_00000000_0000000000000000 = .ok .wtexel := by decide

/-- R184. -/
theorem test_decode_draw :
    decode 0b01100000_00000000_0000000000000000 = .ok .draw := by decide

/-- R187. -/
theorem test_decode_ray :
    decode 0b01100001_00000000_0000000000000000 = .ok .ray := by decide

/-- 30_encoding.md R88: 0x08 is unassigned. -/
theorem test_decode_refuses_unassigned : decode 0x08000000 = .error .unassignedOpcode := by decide

/-- 60_exceptions.md R245 (c): a low bit of a format N word. -/
theorem test_decode_refuses_formatN : decode 0x33000001 = .error .mustBeZero := by decide

/-- 30_encoding.md R84: field `A` of a format I word. -/
theorem test_decode_refuses_formatI : decode 0x1001003C = .error .mustBeZero := by decide

/-- 30_encoding.md R86: bit 8 of a format S word. -/
theorem test_decode_refuses_formatS : decode 0x05000100 = .error .mustBeZero := by decide

/-- 60_exceptions.md R245 (f): the immediate of `RD` is tested before its register. -/
theorem test_decode_rd_tests_imm_first : decode 0x03FF0001 = .error .mustBeZero := by decide

/-- 60_exceptions.md R245 (e): index 0x0F is no register. -/
theorem test_decode_refuses_gap : decode 0x030F0000 = .error .noSuchRegister := by decide

/-- 60_exceptions.md R245 (d): `MAPW` is `RO`. -/
theorem test_decode_refuses_readOnly : decode 0x01410004 = .error .readOnlyRegister := by decide

/-- The table's numbering: a 32-bit word as it stands. -/
theorem test_decodeTableWord : decodeTableWord 32 0x1000003C = some (.cos16 60) := by decide

/-! ## One command: the examples and corner cases of the rules (REFCFG) -/

theorem test_nop : exec .nop (st [(.px, 7)]) = .next (st [(.px, 7)]) := rfl

/-- R206: `wrl MODE, 7` stores 3; `wrl ANGLE, 0xFFA6` reads as -90. -/
theorem test_wrl : after (.wrl .mode 7) (st []) .mode = some 3 ∧
    after (.wrl .angle 0xFFA6) (st []) .angle = some (-90) := by decide

/-- R206: the upper half is cleared. -/
theorem test_wrl_clears_upper :
    after (.wrl .lmbase 0x2000) (st [(.lmbase, 0x12345678)]) .lmbase = some 0x2000 := by decide

/-- R207: the two examples. -/
theorem test_wrh : after (.wrh .lmbase 1) (st [(.lmbase, 0x2000)]) .lmbase = some 0x12000 ∧
    after (.wrh .vx 0xFFFF) (st [(.vx, 0xFF9B)]) .vx = some (-101) := by decide

/-- R207: a 16-bit register keeps its value. -/
theorem test_wrh_narrow : after (.wrh .px 5) (st [(.px, 96)]) .px = some 96 := by decide

/-- R208: the sign-extended example. -/
theorem test_rd : (run (.rd .ytop) (st [(.ytop, -32)])).resp = [0xFFFFFFE0] := by decide

/-- R209: the example. -/
theorem test_loadmap : afters .loadmap (st [(.lmbase, 0x2000), (.lmw, 8), (.lmh, 8)])
    [.mapbase, .mapw, .maph, .worldw, .worldh] =
    [some 0x2000, some 8, some 8, some 512, some 512] := by decide

/-- R210, R211: the example. -/
theorem test_settex_gettex :
    (run (.gettex 0) (run (.settex 0) (st [(.tdata, 0x4000)]))).resp = [0x4000] := by decide

/-- R211: slot 255 is 0 after reset. -/
theorem test_gettex_reset : (run (.gettex 255) (st [])).resp = [0] := by decide

/-- R212: the fault is cleared and the ports are not. -/
theorem test_srst : (run .srst (run (.rd .px) (st [(.px, 5), (.status, 1)]))).resp = [5] ∧
    after .srst (st [(.px, 5), (.status, 1)]) .status = some 0 := by decide

/-- R104: `cos16 60` and the two ends of the range. -/
theorem test_cos16 : after (.cos16 60) (st []) .trig = some 8 ∧
    after (.cos16 180) (st []) .trig = some (-16) ∧
    after (.cos16 360) (st []) .fcause = some 3 := by decide

/-- R245 (g): `cos16 -1`. -/
theorem test_cos16_negative : after (.cos16 0xFFFF) (st []) .finfo = some 0xFFFFFFFF := by decide

/-- R105: the example and three corner cases. -/
theorem test_sin16 : after (.sin16 30) (st []) .trig = some 8 ∧
    after (.sin16 0) (st []) .trig = some 0 ∧ after (.sin16 90) (st []) .trig = some 16 ∧
    after (.sin16 270) (st []) .trig = some (-16) := by decide

/-- R106: the example and the ends of the table. -/
theorem test_cos128 : after (.cos128 45) (st []) .trig = some 91 ∧
    after (.cos128 0) (st []) .trig = some 128 ∧ after (.cos128 90) (st []) .trig = some 0 := by
  decide

/-- R245 (a): `cos128 91`. -/
theorem test_cos128_past_end : afters (.cos128 91) (st []) [.status, .fcause, .finfo, .trig] =
    [some 1, some 3, some 91, some 0] := by decide

/-- R107: corner cases. -/
theorem test_norm : after .norm (st [(.angle, -90)]) .angn = some 270 ∧
    after .norm (st [(.angle, -32768)]) .angn = some 352 ∧
    after .norm (st [(.angle, 725)]) .angn = some 5 := by decide

/-- R128: the rows of 30 and 225 degrees. -/
theorem test_decomp :
    afters .decomp (st [(.angn, 30)]) [.quad, .cosm, .sinm, .tanv, .tanh, .dflags] =
      [some 0, some 111, some 64, some 36, some 111, some 0x08] ∧
    afters .decomp (st [(.angn, 225)]) [.quad, .cosm, .sinm, .tanv, .tanh, .dflags] =
      [some 2, some 91, some 91, some 64, some 64, some 0x07] := by decide

/-- R128: 180 and 270 degrees. -/
theorem test_decomp_cardinal :
    afters .decomp (st [(.angn, 180)]) [.quad, .tanv, .tanh, .dflags] =
      [some 1, some 0, some 0, some 0x2D] ∧
    afters .decomp (st [(.angn, 270)]) [.quad, .tanv, .tanh, .dflags] =
      [some 3, some 0, some 0, some 0x12] := by decide

/-- R143: the example, MAP-A after `DECOMP` of 180. -/
theorem test_vsrch : afters .vsrch (run .decomp (st ((.angn, 180) :: poseA 180) mapA))
    [.vfound, .vtype, .lenv, .vx, .vy] = [some 1, some 1, some 32, some 64, some 96] := by decide

/-- R252: straight after reset. -/
theorem test_vsrch_after_reset : afters .vsrch (st []) [.vfound, .lenv, .vx, .vy, .status] =
    [some 0, some 0, some 64, some 0, some 0] := by decide

/-- R144: the example, MAP-A after `DECOMP` of 270. -/
theorem test_hsrch : afters .hsrch (run .decomp (st ((.angn, 270) :: poseA 270) mapA))
    [.hfound, .htype, .lenh, .hx, .hy] = [some 1, some 1, some 32, some 96, some 64] := by decide

/-- R146: the tie of the example. -/
theorem test_select_tie : afters .select (st [(.hfound, 1), (.vfound, 1), (.lenh, 45), (.lenv, 45),
      (.hx, 64), (.hy, 64), (.vx, 64), (.vy, 64), (.htype, 1), (.vtype, 1), (.dflags, 0x07)])
    [.hit, .side, .dist, .btype, .hitx, .hity, .sample, .orient] =
    [some 1, some 1, some 45, some 1, some 64, some 64, some 0, some 0] := by decide

/-- R146 corner case (d): a negative host-written coordinate is masked as its bits. -/
theorem test_select_negative :
    after .select (st [(.hfound, 1), (.hx, -1)]) .sample = some 31 := by decide

/-- R148: the example. -/
theorem test_cast : afters .cast (st (poseA 180) mapA)
    [.angn, .hit, .side, .dist, .btype, .hitx, .hity, .sample, .orient] =
    [some 180, some 1, some 0, some 32, some 1, some 64, some 96, some 15, some 1] := by
  decide +kernel

/-- R245 (h): an unanswered map at 30 degrees; the first cell read is that of column 1, row 0. -/
theorem test_cast_memFault : afters .cast
      (st [(.mapbase, 0x1000), (.mapw, 2), (.maph, 2), (.px, 32), (.py, 32), (.angle, 30), (.dist, 9)])
    [.status, .fcause, .finfo, .cosm, .dflags, .vfound, .dist] =
    [some 1, some 6, some 0x1001, some 111, some 8, some 0, some 9] := by decide +kernel

/-- R168: rows of the table. -/
theorem test_fish : after .fish (st [(.dist, 100), (.ray, 0)]) .corr = some 85 ∧
    after .fish (st [(.dist, 100), (.ray, 122)]) .corr = some 0 ∧
    after .fish (st [(.dist, 100), (.ray, 123)]) .finfo = some 91 := by decide

/-- R162: the source's example. -/
theorem test_proj : after .proj (st [(.corr, 64)]) .height = some 64 ∧
    after .proj (st [(.corr, 0)]) .height = some 4096 ∧
    after .proj (st [(.corr, 4097)]) .height = some 0 := by decide

/-- R163: the example; R168: height 3. -/
theorem test_span : afters .span (st [(.height, 4096), (.ray, 255)]) [.col0, .ytop, .y0, .y1] =
      [some 510, some (-2016), some 0, some 64] ∧
    afters .span (st [(.height, 3)]) [.ytop, .y0, .y1] = [some 31, some 31, some 34] := by decide

/-- R164: the example and height 0. -/
theorem test_tstep : after .tstep (st [(.height, 40)]) .tstep = some 204 ∧
    after .tstep (st [(.height, 0), (.tstep, 7)]) .tstep = some 0 := by decide

/-- R165: the example and corner case (b). -/
theorem test_trow : after (.trow 51) (st [(.tstep, 204), (.ytop, 12)]) .trowr = some 31 ∧
    after (.trow 0xFFFD) (st [(.tstep, 128)]) .trowr = some 65534 := by decide

/-- R201: a bitmap five texels wide. -/
theorem test_texel : (List.map (fun p : Int × Int =>
      after .texel (st [(.txbase, 0x4300), (.txw, 5), (.txh, 3), (.txx, p.1), (.txy, p.2)]
        [(0x4300, 0xB4), (0x4301, 0x80)]) .txbit)
      [(0, 0), (4, 0), (0, 1), (3, 1), (4, 1), (4, 2)]) =
    [some 1, some 0, some 1, some 1, some 0, some 0] := by decide

/-- R198: the range fault of the example. -/
theorem test_texel_range : afters .texel (st [(.txbase, 0x5000), (.txw, 8), (.txh, 1), (.txy, 1)])
    [.fcause, .finfo] = [some 5, some 0x10000] := by decide

/-- R199: TEX2's bytes 1 and 127 in slot 1. -/
theorem test_wtexel : (List.map (fun p : Int × Int =>
      after .wtexel ((st [(.texcnt, 2), (.btype, 2), (.sample, p.1), (.trowr, p.2)]
        [(0x4101, 1), (0x417F, 0x7F)]).setTexptr 1 0x4100) .txbit)
      [(15, 0), (8, 0), (25, 31)]) = [some 1, some 0, some 1] := by decide

/-- R199: block type 3 is not populated. -/
theorem test_wtexel_texIndex : afters .wtexel (st [(.texcnt, 2), (.btype, 3)]) [.fcause, .finfo] =
    [some 4, some 3] := by decide

/-- R184: the example in modes 2 and 0. -/
theorem test_draw : (run .draw (st [(.dist, 32), (.hit, 1), (.ray, 32), (.mode, 2)])).draw =
      [.vline 64 0 128 true, .vline 65 0 128 true] ∧
    (run .draw (st [(.px, 96), (.py, 96), (.hitx, 64), (.hity, 96)])).draw =
      [.line 96 96 64 96 true] := by decide

/-- R184 mode 3 on a slice of one row, one texel column and one answered byte. -/
theorem test_draw_textured : (run .draw ((st [(.dist, 4096), (.hit, 1), (.ray, 32), (.mode, 3),
      (.btype, 1), (.texcnt, 1), (.sample, 3)] [(0x4000, 0x10)]).setTexptr 0 0x4000)).draw =
    [.pixel 64 32 true, .pixel 65 32 true] := by decide

/-- R187 with R148's example in mode 0. -/
theorem test_ray : (run .ray (st (poseA 180) mapA)).draw = [.line 96 96 64 96 true] := by
  decide +kernel

/-- R151: the source's heading-0 ray finds no hit. -/
theorem test_ray_no_hit : (run .ray (st (poseA 0) mapA)).draw = [.line 96 96 128 96 true] := by
  decide +kernel

/-! ## The port, the fault state and reset -/

/-- R245 (b): an unassigned opcode. -/
theorem test_step_illegal :
    (run1 (State.reset.withFetchWord 32 0x08000000)).x .finfo = 0x08000000 := by decide

/-- R245 (a): a command after the fault is dropped. -/
theorem test_step_dropped :
    (run1 ((st [(.status, 1)]).withFetchWord 32 0x1200002D)).x .trig = 0 := by decide

/-- R245 (i): a bad `RD` while `F = 1` keeps the first fault. -/
theorem test_step_keeps_first_fault : (run1 ((st [(.status, 1), (.fcause, 3), (.finfo, 91)]).withFetchWord
    32 0x03FF0000)).x .fcause = 3 := by decide

/-- R255: with no command the block waits. -/
theorem test_step_waits : step State.reset = .next State.reset := rfl

/-- R60: the host's byte is what the block then reads; a zero is not listed. -/
theorem test_step_store : (run1 (st [] mapA [.store 0x1003 7])).byteAt 0x1003 = some 7 ∧
    (run1 (st [] mapA [.store 0x1001 0])).mem = [(0x1000, 1), (0x1002, 1)] := by decide

/-- R67: `MemValid` is a constant of the build; a store outside it changes nothing. -/
theorem test_step_store_outside : (run1 (st [] mapA [.store 0x2000 7])).byteAt 0x2000 = none ∧
    (run1 (st [] mapA [.store 0x2000 7])).mem = (st [] mapA).mem ∧
    State.reset.byteAt 0xFFFFFFFF = some 0 := by decide

/-- R250: the hardware reset empties the ports. -/
theorem test_step_hardReset : (run1 { st [(.px, 5)] with resp := [1], host := [.hardReset] }).resp = []
    := by decide

/-- R95: the words of a `VLine` with a negative row. -/
theorem test_draw_words : (DrawEvent.vline 3 (-1) 2 true).words = [0x20000001, 3, 0xFFFFFFFF, 2, 0] := by
  decide

/-! ## Witnesses: states and operands that meet the hypotheses of the obligations -/

/-- A state whose host gives the word `w`, with `STATUS.F = f`. -/
def give (w : Word) (f : Int := 0) : State := st [(.status, f)] [] [.command w]

theorem test_witness_StepRunsDecodedCommand : (give 0x33000000).host = [.command 0x33000000] ∧
    (give 0x33000000).x .status = 0 ∧ decode 0x33000000 = .ok .cast := by decide

theorem test_witness_StepRunsDecodedCommand_faulted :
    (give 0x03330000 1).x .status = 1 ∧ opField 0x03330000 = 0x03 ∧
    decode 0x03330000 = .ok (.rd .ytop) ∧ opField 0x060000FF = 0x06 ∧
    decode 0x060000FF = .ok (.gettex 255) ∧ opField 0x07000000 = 0x07 ∧
    decode 0x07000000 = .ok .srst := by decide

theorem test_witness_DecodeOfEncode : (Instr.wrl .trig 0xFFFF).wellFormed = true ∧
    (Instr.rd .worldh).wellFormed = true := by decide

theorem test_witness_EncodeOfDecode : decode 0x02050001 = .ok (.wrh .lmbase 1) := by decide

/-- One word for each branch of the decode order, in order. -/
theorem test_witness_CommandPortFollowsDecodeOrder :
    ((give 0x1200002D 1).x .status = 1 ∧ opField 0x1200002D ≠ 0x03 ∧ opField 0x1200002D ≠ 0x06 ∧
      opField 0x1200002D ≠ 0x07) ∧
    opcodeAssigned (opField 0x62000000) = false ∧
    (opcodeAssigned (opField 0x07000001) = true ∧ mustBeZeroClear 0x07000001 = false) ∧
    (mustBeZeroClear 0x030F0000 = true ∧ opField 0x030F0000 = 0x03 ∧
      namesRegister 0x030F0000 = false) ∧
    (namesRegister 0x01440004 = true ∧ opField 0x01440004 = 0x01 ∧
      namesReadOnly 0x01440004 = true) ∧
    (opcodeAssigned (opField 0x01390004) = true ∧ mustBeZeroClear 0x01390004 = true ∧
      namesRegister 0x01390004 = true ∧ namesReadOnly 0x01390004 = false) := by decide

theorem test_witness_FaultStateDropsCommands : (give 0x08000000 1).host = [.command 0x08000000] ∧
    (give 0x08000000 1).x .status = 1 ∧ opField 0x08000000 ≠ 0x03 ∧ opField 0x08000000 ≠ 0x06 ∧
    opField 0x08000000 ≠ 0x07 := by decide

theorem test_witness_BlockWaits : State.reset.host = [] := rfl

theorem test_witness_HardwareReset :
    (st [(.status, 1)] [] [.hardReset, .command 0]).host = .hardReset :: [.command 0] := by decide

theorem test_witness_ResetHasInvariant :
    Memory.wf (st [] mapA).mem ∧ (∀ c ∈ (st [] mapA).mem, (answering mapA).answers c.1 = true) ∧
    Memory.wf [(0xFFFFFFFF, 1)] ∧ Config.refcfg.answers 0xFFFFFFFF = true := by decide

/-- A store to an answered address and one to an address that is not. -/
theorem test_witness_EveryStep : (st [] mapA [.store 0x1003 7]).cfg.answers 0x1003 = true ∧
    (st [] mapA [.store 0x2000 7]).cfg.answers 0x2000 = false := by decide

/-- States whose host action is none of those that change the map or the table. -/
theorem test_witness_OnlyLoadmap : (give 0x01050001).host.head? ≠ some (.command 0x04000000) ∧
    (give 0x01050001).host.head? ≠ some (.command 0x07000000) ∧
    (give 0x01050001).host.head? ≠ some .hardReset ∧
    (∀ slot : BitVec 8, (give 0x01050001).host.head? ≠
      some (.command (0x05000000 + slot.setWidth 32))) := by decide

/-- A faulted state with a loaded map, about to take a host store. -/
def faulted : State :=
  st [(.status, 1), (.fcause, 6), (.finfo, 5), (.mapw, 255), (.worldw, 16320)] mapA [.store 0x1003 1]

theorem test_witness_StepKeepsInvariant : faulted.Inv ∧ ∃ t, step faulted = .next t :=
  ⟨⟨⟨by decide, by decide⟩, ⟨by decide, by decide⟩, by decide, by decide⟩, _, rfl⟩

theorem test_witness_OnlyResetsClear : (give 0x07000000 1).x .status = 1 ∧
    (give 0x07000000 1).host.head? = some (.command 0x07000000) ∧
    (run1 (give 0x07000000 1)).x .status = 0 := by decide

theorem test_witness_OnlyResetsClear_hardReset : (st [(.status, 1)] [] [.hardReset]).x .status = 1 ∧
    (st [(.status, 1)] [] [.hardReset]).host.head? = some .hardReset ∧
    (run1 (st [(.status, 1)] [] [.hardReset])).x .status = 0 := by decide

theorem test_witness_DrawEventPacks : (-2 ^ 31 : Int) ≤ -2147483648 ∧ (2147483647 : Int) < 2 ^ 31 := by
  decide

/-- One word for each class of refused words. -/
theorem test_witness_Refuses :
    (opField 0x00000001 = 0x00 ∧ mustBeZeroClear 0x00000001 = false) ∧
    (opField 0x01FF0000 = 0x01 ∧ namesRegister 0x01FF0000 = false) ∧
    (opField 0x013C0000 = 0x01 ∧ namesReadOnly 0x013C0000 = true) ∧
    (opField 0x020F0000 = 0x02 ∧ namesRegister 0x020F0000 = false) ∧
    (opField 0x02400000 = 0x02 ∧ namesReadOnly 0x02400000 = true) ∧
    (opField 0x03000001 = 0x03 ∧ mustBeZeroClear 0x03000001 = false) ∧
    (opField 0x03450000 = 0x03 ∧ mustBeZeroClear 0x03450000 = true ∧
      namesRegister 0x03450000 = false) ∧
    (opField 0x05000100 = 0x05 ∧ mustBeZeroClear 0x05000100 = false) ∧
    (opField 0x06800000 = 0x06 ∧ mustBeZeroClear 0x06800000 = false) ∧
    (opField 0x07000001 = 0x07 ∧ mustBeZeroClear 0x07000001 = false) ∧
    (give 0x07000001 1).x .status = 1 ∧ (give 0x00000001).x .status = 0 := by decide

theorem test_witness_host_writes : Reg.status.readOnly = true ∧ Reg.trig.readOnly = false ∧
    Reg.trig.width ≤ 16 ∧ Reg.vx.readOnly = false ∧ ¬ Reg.vx.width ≤ 16 := by decide

/-- The ends of the legal ranges. -/
theorem test_witness_Legal : Config.refcfg.Legal ∧ Config.Legal ⟨0, 0, 0, 1, 0, 1, 1, []⟩ ∧
    Config.Legal ⟨8, 8, 16, 2 ^ 31 - 1, 255, 65535, 256, [⟨0, 1⟩, ⟨2 ^ 32 - 1, 1⟩]⟩ := by decide

/-- Immediates at the ends of the tables and one past them. -/
theorem test_witness_lookups : ((0 : BitVec 16).toInt = 0 ∧ (359 : BitVec 16).toInt = 359) ∧
    (0xFFFF : BitVec 16).toInt < 0 ∧ (360 : BitVec 16).toInt > 359 ∧ (90 : BitVec 16).toInt = 90 ∧
    (89 : BitVec 16).toInt < 90 ∧ (91 : BitVec 16).toInt > 90 := by decide

/-- `ANGN` at both ends of every quadrant and past the table. -/
theorem test_witness_Decomp : (st [(.angn, 0)]).x .angn ≤ 90 ∧ (st [(.angn, 90)]).x .angn ≤ 90 ∧
    (90 < (st [(.angn, 91)]).x .angn ∧ (st [(.angn, 180)]).x .angn ≤ 180) ∧
    (180 < (st [(.angn, 181)]).x .angn ∧ (st [(.angn, 269)]).x .angn < 270) ∧
    (270 ≤ (st [(.angn, 270)]).x .angn ∧ (st [(.angn, 359)]).x .angn ≤ 359) ∧
    (st [(.angn, 360)]).x .angn > 359 := by decide

/-- The two results of the quadrant boundaries. -/
theorem test_witness_Decomp_boundaries : List.map (fun a => after .decomp (st [(.angn, a)]) .quad)
    [90, 91, 180, 181, 269, 270] = [some 0, some 1, some 1, some 2, some 2, some 3] := by decide

/-- A player on a line, one unit before it and one after. -/
theorem test_witness_FirstGridLine : (0 : Int) ≤ 63 ∧ firstLine .refcfg 63 false = 64 ∧
    firstLine .refcfg 64 false = 128 ∧ firstLine .refcfg 64 true = 64 ∧
    firstLine .refcfg 63 true = 0 := by decide

theorem test_witness_CrossingBounds : (st (poseA 0)).cfg.Legal ∧ (st (poseA 0)).ExtentsOk :=
  ⟨by decide, by decide, by decide⟩

/-- On the line at each end of the map the four clauses of the bounds. -/
theorem test_witness_CrossingBounds_ends :
    (st (poseA 0) mapA).cell 0 0 ≠ .ok none ∧ (st (poseA 0) mapA).cell 1 1 ≠ .ok none ∧
    (st (poseA 0) mapA).cell 2 0 = .ok none ∧ (st (poseA 0) mapA).cell (-1) 0 = .ok none ∧
    (st (poseA 0) mapA).cell 0 2 = .ok none := by decide

/-- A skipped and a run search on each axis. -/
theorem test_witness_searches : (st [(.dflags, 0x10)]).skipv = true ∧ (st []).skipv = false ∧
    (st [(.dflags, 0x20)]).skiph = true ∧ (st []).skiph = false := by decide

/-- The three ends of a vertical search: out, solid, not answered. -/
theorem test_witness_vCell : (st (poseA 0) mapA).vCell 0 = .ok none ∧
    (st ((.dflags, 0x0D) :: poseA 180) mapA).vCell 0 = .ok (some 1) ∧
    (st ((.dflags, 0x0D) :: poseA 180)).vCell 0 = .error 0x1002 := by decide

/-- The three ends of a horizontal search. -/
theorem test_witness_hCell : (st (poseA 90) mapA).hCell 0 = .ok none ∧
    (st ((.dflags, 0x02) :: poseA 270) mapA).hCell 0 = .ok (some 1) ∧
    (st ((.dflags, 0x02) :: poseA 270)).hCell 0 = .error 0x1001 := by decide

/-- MAP-A is answered. -/
theorem test_witness_MapAnswered (angle : Int) : (st (poseA angle) mapA).MapAnswered := by
  intro col row h0 h1 h2 h3
  have hw : (st (poseA angle) mapA).x .mapw = 2 := by simp [st, poseA, Reg.wrap, Reg.signed, Reg.width]
  have hh : (st (poseA angle) mapA).x .maph = 2 := by simp [st, poseA, Reg.wrap, Reg.signed, Reg.width]
  have hb : (st (poseA angle) mapA).x .mapbase = 0x1000 := by
    simp [st, poseA, Reg.wrap, Reg.signed, Reg.width]
  have hm (a : Nat) : (st (poseA angle) mapA).byteAt a = (st [] mapA).byteAt a := by
    simp [st, poseA]
  rw [hw] at h1
  rw [hh] at h3
  simp only [State.cellAddr, hw, hb, hm]
  interval_cases col <;> interval_cases row <;> decide

/-- The three branches of the choice, the first two also at equal lengths and with one hit alone. -/
theorem test_witness_Select :
    ((st [(.hfound, 1), (.vfound, 1), (.lenh, 45), (.lenv, 45)]).x .lenh ≤
      (st [(.hfound, 1), (.vfound, 1), (.lenh, 45), (.lenv, 45)]).x .lenv) ∧
    ((st [(.hfound, 1), (.lenh, 9)]).x .hfound = 1 ∧ (st [(.hfound, 1), (.lenh, 9)]).x .vfound = 0) ∧
    ((st [(.hfound, 1), (.vfound, 1), (.lenh, 45), (.lenv, 44)]).x .lenv <
      (st [(.hfound, 1), (.vfound, 1), (.lenh, 45), (.lenv, 44)]).x .lenh) ∧
    ((st [(.vfound, 1)]).x .vfound = 1 ∧ (st [(.vfound, 1)]).x .hfound = 0) ∧
    ((st []).x .vfound = 0 ∧ (st []).x .hfound = 0) ∧ (st []).cfg.Legal := by decide

/-- The chain of a cast from a state, up to the vertical search. -/
def castC (s : State) : State := run .vsrch (run .decomp (run .norm s))

/-- A cast whose vertical search raises, one whose horizontal search raises, one that completes. -/
theorem test_witness_CastRunsItsPartsInOrder :
    ((st (poseA 180)).x .status = 0 ∧ (castC (st (poseA 180))).x .status = 1) ∧
    ((castC (st (poseA 270))).x .status = 0 ∧
      (run .hsrch (castC (st (poseA 270)))).x .status = 1) ∧
    ((castC (st (poseA 225) mapA)).x .status = 0 ∧
      (run .hsrch (castC (st (poseA 225) mapA))).x .status = 0) := by decide +kernel

/-- Two states that agree on the inputs of a cast and on nothing else that it reads. -/
theorem test_witness_CastDependsOnlyOnItsInputs :
    (st (poseA 225) mapA).cfg = (st (poseA 225 ++ [(.vfound, 1), (.dflags, 63)]) mapA).cfg ∧
    (∀ r ∈ [Reg.angle, .px, .py, .mapbase, .mapw, .maph, .worldw],
      (st (poseA 225) mapA).x r = (st (poseA 225 ++ [(.vfound, 1), (.dflags, 63)]) mapA).x r) ∧
    (∀ a, (st (poseA 225) mapA).byteAt a =
      (st (poseA 225 ++ [(.vfound, 1), (.dflags, 63)]) mapA).byteAt a) :=
  ⟨by decide, by decide, fun _ => rfl⟩

theorem test_witness_CastKeepsItsRanges : (st (poseA 225) mapA).cfg.Legal := by decide

/-- The last ray the correction accepts on each side, and the first it does not. -/
theorem test_witness_Fish : |(st [(.ray, 122)]).x .ray - (st []).cfg.centerRay| = 90 ∧
    |(st [(.ray, 0)]).x .ray - (st []).cfg.centerRay| = 32 ∧
    |(st [(.ray, 123)]).x .ray - (st []).cfg.centerRay| > 90 := by decide

theorem test_witness_Proj : (st []).cfg.Legal ∧ (st []).x .corr = 0 ∧ (st [(.corr, 1)]).x .corr ≠ 0 ∧
    1 ≤ (st [(.corr, 1)]).x .corr := by decide

theorem test_witness_Span_Tstep : (st []).cfg.Legal ∧ (st []).x .height = 0 ∧
    (st [(.height, 0xFFFFFFFF)]).x .height ≠ 0 := by decide

/-- A slice clipped at both ends, its first and its last visible row. -/
theorem test_witness_VisibleRows : (st [(.height, 65)]).cfg.Legal ∧
    (run .tstep (run .span (st [(.height, 65)]))).x .y0 ≤ (0 : BitVec 16).toInt ∧
    (0 : BitVec 16).toInt ≤ (63 : BitVec 16).toInt ∧
    (63 : BitVec 16).toInt < (run .tstep (run .span (st [(.height, 65)]))).x .y1 := by decide

/-- The last texel of a bitmap, the first past each edge, and a byte that is not answered. -/
theorem test_witness_Texel :
    ((st [(.txw, 5), (.txh, 3), (.txx, 5)]).x .txx ≥ (st [(.txw, 5), (.txh, 3), (.txx, 5)]).x .txw) ∧
    ((st [(.txw, 5), (.txh, 3), (.txy, 3)]).x .txy ≥ (st [(.txw, 5), (.txh, 3), (.txy, 3)]).x .txh) ∧
    (st [] [(0x4301, 0x80)]).texelAt 0x4300 5 4 2 = some false ∧
    (st []).texelAt 0x4300 5 4 2 = none := by decide

/-- Block type 0, the first unpopulated type, a column and a row past the texture, and the rest. -/
theorem test_witness_Wtexel : (st []).cfg.Legal ∧ (st []).x .btype = 0 ∧
    ((st [(.btype, 3), (.texcnt, 2)]).x .btype - 1 ≥ (st [(.btype, 3), (.texcnt, 2)]).x .texcnt) ∧
    ((st [(.sample, 32)]).x .sample ≥ (st []).cfg.texSize) ∧
    ((st [(.trowr, 32)]).x .trowr ≥ (st []).cfg.texSize) ∧
    ¬ ((st [(.btype, 2), (.texcnt, 2)]).x .btype = 0 ∨
      (st [(.btype, 2), (.texcnt, 2)]).x .btype - 1 ≥ (st [(.btype, 2), (.texcnt, 2)]).x .texcnt) ∧
    ¬ ((st [(.sample, 31)]).x .sample ≥ (st []).cfg.texSize) := by decide

theorem test_witness_Draw_topDown : (st []).x .mode = 0 ∧ (st [(.mode, 1)]).x .mode = 1 := by decide

theorem test_witness_Draw_withoutHit : (st [(.mode, 2)]).x .mode = 2 ∧ (st [(.mode, 2)]).x .hit = 0 ∧
    (st [(.mode, 3), (.hit, 1), (.ray, 123)]).x .mode = 3 ∧
    (st [(.mode, 3), (.hit, 1), (.ray, 123)]).x .hit = 1 ∧
    |(st [(.mode, 3), (.hit, 1), (.ray, 123)]).x .ray -
      (st [(.mode, 3), (.hit, 1), (.ray, 123)]).cfg.centerRay| > 90 := by decide

theorem test_witness_Draw_solid : (st [(.mode, 2), (.hit, 1), (.ray, 122)]).cfg.Legal ∧
    (st [(.mode, 2), (.hit, 1), (.ray, 122)]).x .mode = 2 ∧
    (st [(.mode, 2), (.hit, 1), (.ray, 122)]).x .hit = 1 ∧
    (st [(.mode, 2), (.hit, 1), (.ray, 122)]).rayOffset = 90 := by decide

/-- A hit of length `dist`, sampled at `sample`, drawn textured on a screen of two rows by a build whose
texture is eight texels square, one byte a row, at 0x4000 in slot 0. A hit of length 1 has height 16, so
that its two visible rows show the texture rows 3 and 4. -/
def textured (btype dist sample : Int) (cells : List Host.Cell := []) : State :=
  { (st [(.mode, 3), (.hit, 1), (.ray, 1), (.dist, dist), (.btype, btype), (.texcnt, 1),
      (.sample, sample), (.trowr, 9)]).setTexptr 0 0x4000 with
    cfg := answering cells ⟨3, 0, 8, 16, 1, 2, 4, []⟩, mem := cells }

/-- The two bytes that the visible rows show. -/
def rows34 : List Host.Cell := [(0x4003, 0x10), (0x4004, 0x01)]

theorem test_textured_rows : (textured 1 1 3).hitHeight = 16 ∧ (textured 1 1 3).firstRow = 0 ∧
    (textured 1 1 3).endRow = 2 ∧ (textured 1 1 3).texRow 0 = 3 ∧ (textured 1 1 3).texRow 1 = 4 ∧
    (textured 1 17 3).hitHeight = 0 ∧ (textured 1 17 3).firstRow = (textured 1 17 3).endRow := by decide

/-- A texture answered in the visible rows alone, its sample in the first and in the last column. -/
theorem test_witness_Draw_textured : (textured 1 1 3 rows34).DrawsTextured ∧
    (textured 1 1 3 rows34).HasTexture ∧
    (textured 1 1 0 rows34).x .sample < (textured 1 1 0 rows34).cfg.texSize ∧
    (textured 1 1 7 rows34).x .sample < (textured 1 1 7 rows34).cfg.texSize ∧
    (textured 1 1 3 rows34).hitTexel 0 = some true ∧ (textured 1 1 3 rows34).hitTexel 1 = some false :=
  ⟨⟨by decide, by decide, by decide, by decide⟩, ⟨by decide, by decide⟩, by decide⟩

theorem test_witness_Draw_textured_answered : ∀ row : Int, (textured 1 1 3 rows34).firstRow ≤ row →
    row < (textured 1 1 3 rows34).endRow → ((textured 1 1 3 rows34).hitTexel row).isSome := by
  intro row h0 h1
  have e : (textured 1 1 3 rows34).firstRow = 0 ∧ (textured 1 1 3 rows34).endRow = 2 := by decide
  rw [e.1] at h0
  rw [e.2] at h1
  interval_cases row <;> decide

/-- What it draws. -/
theorem test_draw_textured_rows : (run .draw (textured 1 1 3 rows34)).draw =
    [.pixel 2 0 true, .pixel 3 0 true, .pixel 2 1 false, .pixel 3 1 false] ∧
    afters .draw (textured 1 1 3 rows34) [.status, .trowr, .txbit] = [some 0, some 4, some 0] := by decide

/-- A hit with no visible row. -/
theorem test_witness_Draw_noRow : (textured 1 17 3).DrawsTextured ∧ (textured 1 17 3).HasTexture ∧
    (run .draw (textured 1 17 3)).draw = [] ∧
    afters .draw (textured 1 17 3) [.status, .trowr] = [some 0, some 9] :=
  ⟨⟨by decide, by decide, by decide, by decide⟩, ⟨by decide, by decide⟩, by decide⟩

/-- With no byte answered the first visible row already fails. -/
theorem test_witness_Draw_unanswered : (textured 1 1 3).DrawsTextured ∧ (textured 1 1 3).HasTexture ∧
    (textured 1 1 3).x .status = 0 ∧ (textured 1 1 3).hitTexel (textured 1 1 3).firstRow = none ∧
    afters .draw (textured 1 1 3) [.status, .fcause, .finfo, .trowr] =
      [some 1, some 6, some 0x4003, some 3] :=
  ⟨⟨by decide, by decide, by decide, by decide⟩, ⟨by decide, by decide⟩, by decide⟩

/-- With the first visible row answered the last one fails, after one pair of pixels. -/
theorem test_witness_Draw_unanswered_later :
    ((textured 1 1 3 [(0x4003, 0x10)]).hitTexel 0).isSome ∧
    (textured 1 1 3 [(0x4003, 0x10)]).hitTexel 1 = none ∧
    (textured 1 1 3 [(0x4003, 0x10)]).endRow = 2 ∧
    (run .draw (textured 1 1 3 [(0x4003, 0x10)])).draw.length = 2 ∧
    afters .draw (textured 1 1 3 [(0x4003, 0x10)]) [.fcause, .finfo, .trowr, .txbit] =
      [some 6, some 0x4004, some 4, some 1] := by decide

/-- Block type 0 and the first unpopulated type, each with and without a visible row. -/
theorem test_witness_Draw_noTexture : (textured 0 1 3).DrawsTextured ∧ (textured 0 17 3).DrawsTextured ∧
    (textured 2 1 3).DrawsTextured ∧ (textured 2 17 3).DrawsTextured ∧
    ¬ (textured 0 1 3).HasTexture ∧ ¬ (textured 2 1 3).HasTexture ∧ (textured 0 1 3).x .status = 0 ∧
    afters .draw (textured 2 1 3) [.status, .fcause, .finfo, .trowr, .tstep] =
      [some 1, some 4, some 2, some 3, some 128] ∧
    afters .draw (textured 0 17 3) [.status, .trowr, .tstep] = [some 0, some 9, some 0] :=
  ⟨⟨by decide, by decide, by decide, by decide⟩, ⟨by decide, by decide, by decide, by decide⟩,
    ⟨by decide, by decide, by decide, by decide⟩, ⟨by decide, by decide, by decide, by decide⟩,
    fun h => absurd h.1 (by decide), fun h => absurd h.2 (by decide), by decide⟩

/-- The first sample column outside the texture, with and without a visible row. -/
theorem test_witness_Draw_sampleOutside : (textured 1 1 8).DrawsTextured ∧
    (textured 1 17 8).DrawsTextured ∧ (textured 1 1 8).HasTexture ∧ (textured 1 17 8).HasTexture ∧
    (textured 1 1 8).cfg.texSize ≤ (textured 1 1 8).x .sample ∧ (textured 1 1 8).x .status = 0 ∧
    afters .draw (textured 1 1 8) [.status, .fcause, .finfo, .trowr] =
      [some 1, some 5, some 0x30008, some 3] ∧
    afters .draw (textured 1 17 8) [.status, .trowr] = [some 0, some 9] :=
  ⟨⟨by decide, by decide, by decide, by decide⟩, ⟨by decide, by decide, by decide, by decide⟩,
    ⟨by decide, by decide⟩, ⟨by decide, by decide⟩, by decide⟩

theorem test_witness_Ray : (st (poseA 180) mapA).x .status = 0 ∧ (st (poseA 180) mapA).x .mode = 0 ∧
    (run .cast (st (poseA 180))).x .status = 1 ∧ (run .cast (st (poseA 180) mapA)).x .status = 0 := by
  decide +kernel

end Sys2Proof.Tests
end

/-! SUPPORT. What no command can touch, the memory, the build parameters and the host's list, and
from it that every step takes one of the host's actions. -/

namespace Sys2Proof.Machine

/-- From `s` to `t` all that lies outside the block is the same: what every address answers, the build
parameters and the host's further actions (20_memory.md R63, 00_scope.md R7). -/
def KeepsPlatform (s t : State) : Prop := KeepsMem s t ∧ KeepsHost s t

theorem KeepsPlatform.refl (s : State) : KeepsPlatform s s := ⟨fun _ => rfl, rfl, rfl⟩

theorem KeepsPlatform.trans {s t u : State} (h : KeepsPlatform s t) (h' : KeepsPlatform t u) :
    KeepsPlatform s u := by
  obtain ⟨mem, cfg, host⟩ := h
  obtain ⟨mem', cfg', host'⟩ := h'
  exact ⟨fun a => (mem' a).trans (mem a), cfg'.trans cfg, host'.trans host⟩

theorem ChangesOnly.keepsPlatform {rs : List Reg} {s t : State} (h : ChangesOnly rs s t) :
    KeepsPlatform s t := by
  obtain ⟨-, -, -, platform⟩ := h
  exact platform

theorem ExtendsDraws.keepsPlatform {rs : List Reg} {s t : State} (h : ExtendsDraws rs s t) :
    KeepsPlatform s t := by
  obtain ⟨⟨-, -, -, platform⟩, -⟩ := h
  exact platform

theorem RecordsFault.keepsPlatform {c : FaultCause} {info : Int} {s t : State}
    (h : RecordsFault c info s t) : KeepsPlatform s t := by
  obtain ⟨-, -, frame⟩ := h
  exact frame.keepsPlatform

/-! ## Commands -/

theorem Flow.DrawFrame.keepsPlatform {rs : List Reg} {s : State} {f : Flow} (h : f.DrawFrame rs s) :
    KeepsPlatform s f.state := by
  cases f with
  | done t => exact ExtendsDraws.keepsPlatform h
  | ended t =>
    obtain ⟨u, c, info, extended, records⟩ := h
    exact extended.keepsPlatform.trans records.keepsPlatform

/-- A command given by a flow with a frame completes, faulted or not, and keeps the platform. -/
theorem Flow.DrawFrame.outcome_next {rs : List Reg} {s : State} {f : Flow} (h : f.DrawFrame rs s) :
    ∃ t, f.outcome = .next t ∧ KeepsPlatform s t :=
  ⟨f.state, rfl, h.keepsPlatform⟩

theorem Flow.Frame.outcome_next {rs : List Reg} {s : State} {f : Flow} (h : f.Frame rs s) :
    ∃ t, f.outcome = .next t ∧ KeepsPlatform s t :=
  h.draws.outcome_next

/-- The frame of `RAY`, which is `CAST` and then `DRAW` (44_render.md R187). -/
theorem castThenDraw_frame (s : State) :
    ((doCast s).andThen doDraw).DrawFrame (castRegs ++ drawRegs) s :=
  ((doCast_frame s).mono fun _ => List.mem_append_left _).draws.andThen fun t =>
    (doDraw_frame t).mono fun _ => List.mem_append_right _

/-- The frame of `LOADMAP` (46_system.md R209). -/
theorem execLoadmap_frame (s : State) :
    ∃ t, execLoadmap s = .next t ∧ ChangesOnly mapRegs s t :=
  ⟨_, rfl, (((((ChangesOnly.refl _ _).set (by simp [mapRegs]) _).set (by simp [mapRegs]) _).set
    (by simp [mapRegs]) _).set (by simp [mapRegs]) _).set (by simp [mapRegs]) _⟩

/-- Every command completes and leaves all that lies outside the block as it is. -/
theorem exec_next_keepsPlatform (i : Instr) (s : State) :
    ∃ t, exec i s = .next t ∧ KeepsPlatform s t := by
  cases i with
  | nop => exact ⟨s, rfl, .refl s⟩
  | wrl r imm => exact (s.hostWrite_frame _ r _).outcome_next
  | wrh r imm => exact (s.hostWrite_frame _ r _).outcome_next
  | rd r => exact ⟨_, rfl, s.byteAt_emitResp _, rfl, rfl⟩
  | loadmap =>
    obtain ⟨t, next, frame⟩ := execLoadmap_frame s
    exact ⟨t, next, frame.keepsPlatform⟩
  | settex slot => exact ⟨_, rfl, s.byteAt_setTexptr slot _, rfl, rfl⟩
  | gettex slot => exact ⟨_, rfl, s.byteAt_emitResp _, rfl, rfl⟩
  | srst => exact ⟨_, rfl, s.byteAt_softReset, rfl, rfl⟩
  | cos16 imm => exact (s.lookup_frame _ _ _).outcome_next
  | sin16 imm => exact (s.lookup_frame _ _ _).outcome_next
  | cos128 imm => exact (s.lookup_frame _ _ _).outcome_next
  | norm => exact (doNorm_frame s).outcome_next
  | decomp => exact (doDecomp_frame s).outcome_next
  | vsrch => exact (doVsrch_frame s).outcome_next
  | hsrch => exact (doHsrch_frame s).outcome_next
  | select => exact (doSelect_frame s).outcome_next
  | cast => exact (doCast_frame s).outcome_next
  | fish => exact (doFish_frame s).outcome_next
  | proj => exact (doProj_frame s).outcome_next
  | span => exact (doSpan_frame s).outcome_next
  | tstep => exact (doTstep_frame s).outcome_next
  | trow imm => exact (doTrow_frame _ s).outcome_next
  | texel => exact (doTexel_frame s).outcome_next
  | wtexel => exact (doWtexel_frame s).outcome_next
  | draw => exact (doDraw_frame s).outcome_next
  | ray => exact (castThenDraw_frame s).outcome_next

/-! ## Steps -/

/-- A step that takes a command word completes and, but for the word taken, keeps the platform:
whether the port drops the word, refuses it or performs it. -/
theorem step_command_keepsPlatform {s : State} {w : Word} {rest : List HostInput}
    (h : s.host = .command w :: rest) :
    ∃ t, step s = .next t ∧ KeepsPlatform { s with host := rest } t := by
  rw [step_command h]
  rcases State.accept_cases { s with host := rest } w with
    ⟨-, dropped⟩ | ⟨-, e, -, refused⟩ | ⟨-, i, -, performed⟩
  · rw [dropped]
    exact ⟨_, rfl, .refl _⟩
  · rw [refused]
    exact ⟨_, rfl, (State.recordFault_records _ _ _).keepsPlatform⟩
  · rw [performed]
    exact exec_next_keepsPlatform i _

/-- Settles O7, by the host's next action: none, a command word, a store, the hardware reset. -/
theorem everyStepTakesOneHostAction : Obligations.EveryStepTakesOneHostAction := by
  unfold Obligations.EveryStepTakesOneHostAction
  intro s
  cases h : s.host with
  | nil => exact ⟨s, step_idle h, rfl, h, fun _ => rfl⟩
  | cons action rest =>
    cases action with
    | command w =>
      obtain ⟨t, next, mem, cfg, host⟩ := step_command_keepsPlatform h
      exact ⟨t, next, cfg, host, mem⟩
    | store a b =>
      exact ⟨_, step_store h, State.cfg_hostStore _ a b, State.host_hostStore _ a b,
        State.byteAt_hostStore { s with host := rest } a b⟩
    | hardReset =>
      exact ⟨_, step_hardReset h, State.cfg_hardReset _, State.host_hardReset _,
        State.byteAt_hardReset { s with host := rest }⟩

end Sys2Proof.Machine

/-! SUPPORT. The word of a decoded command, and the commands that only compute. -/

namespace Sys2Proof

/-! ## The word of a decoded command -/

/-- The value of a field of a word (30_encoding.md R82). -/
theorem extractLsb'_value (w : Word) (start len : Nat) :
    (w.extractLsb' start len).toNat = w.toNat / 2 ^ start % 2 ^ len := by
  rw [BitVec.extractLsb'_toNat, Nat.shiftRight_eq_div_pow]

/-- A command is encoded by a word whose three fields are the command's. -/
theorem encode_of_fields {i : Instr} {w : Word} (op : (opField w).toNat = i.opcode.toNat)
    (a : aField w = i.aOperand) (imm : immField w = i.immOperand) : encode i = w := by
  rw [encode, ← BitVec.eq_of_toNat_eq op, ← a, ← imm, commandWord_fields]

/-- Format N: a word that decodes is the command's own (30_encoding.md R83). -/
theorem encode_of_decodeN {w : Word} {i j : Instr} (h : decodeN w j = .ok i)
    (op : (opField w).toNat = j.opcode.toNat) (operands : j.aOperand = 0 ∧ j.immOperand = 0) :
    encode i = w := by
  unfold decodeN at h
  split at h
  · next zero =>
    cases h
    have low : w.toNat / 2 ^ 0 % 2 ^ 24 = 0 :=
      (extractLsb'_value w 0 24).symm.trans (congrArg BitVec.toNat zero)
    refine encode_of_fields op (BitVec.eq_of_toNat_eq ?_) (BitVec.eq_of_toNat_eq ?_)
    · rw [operands.1, aField, extractLsb'_value]
      show _ = 0
      omega
    · rw [operands.2, immField, extractLsb'_value]
      show _ = 0
      omega
  · cases h

theorem encode_of_decodeI {w : Word} {i : Instr} {j : BitVec 16 → Instr} (h : decodeI w j = .ok i)
    (op : (opField w).toNat = (j (immField w)).opcode.toNat)
    (operands : (j (immField w)).aOperand = 0 ∧ (j (immField w)).immOperand = immField w) :
    encode i = w := by
  unfold decodeI at h
  split at h
  · next zero =>
    cases h
    exact encode_of_fields op (zero.trans operands.1.symm) operands.2.symm
  · cases h

theorem encode_of_decodeS {w : Word} {i : Instr} {j : BitVec 8 → Instr} (h : decodeS w j = .ok i)
    (op : (opField w).toNat = (j (slotField w)).opcode.toNat)
    (operands : (j (slotField w)).aOperand = 0 ∧
      (j (slotField w)).immOperand = (slotField w).setWidth 16) : encode i = w := by
  unfold decodeS at h
  split at h
  · next zero =>
    cases h
    have middle : w.toNat / 2 ^ 8 % 2 ^ 16 = 0 :=
      (extractLsb'_value w 8 16).symm.trans (congrArg BitVec.toNat zero)
    refine encode_of_fields op (BitVec.eq_of_toNat_eq ?_) (BitVec.eq_of_toNat_eq ?_)
    · rw [operands.1, aField, extractLsb'_value]
      show _ = 0
      omega
    · rw [operands.2, BitVec.toNat_setWidth, immField, slotField, extractLsb'_value,
        extractLsb'_value]
      omega
  · cases h

theorem encode_of_decodeWrite {w : Word} {i : Instr} {j : Reg → BitVec 16 → Instr}
    (h : decodeWrite w j = .ok i)
    (op : ∀ r, (opField w).toNat = (j r (immField w)).opcode.toNat)
    (operands : ∀ r, (j r (immField w)).aOperand = r.index ∧
      (j r (immField w)).immOperand = immField w) : encode i = w := by
  unfold decodeWrite at h
  split at h
  · cases h
  · next r named =>
    split at h
    · cases h
    · cases h
      exact encode_of_fields (op r)
        ((Reg.index_of_ofIndex named).symm.trans (operands r).1.symm) (operands r).2.symm

theorem encode_of_decodeRead {w : Word} {i : Instr} {j : Reg → Instr}
    (h : decodeRead w j = .ok i) (op : ∀ r, (opField w).toNat = (j r).opcode.toNat)
    (operands : ∀ r, (j r).aOperand = r.index ∧ (j r).immOperand = 0) : encode i = w := by
  unfold decodeRead at h
  split at h
  · next zero =>
    split at h
    · cases h
    · next r named =>
      cases h
      exact encode_of_fields (op r)
        ((Reg.index_of_ofIndex named).symm.trans (operands r).1.symm)
        (zero.trans (operands r).2.symm)
  · cases h

/-- A word that decodes is the word of the command it decodes to. -/
theorem encode_of_decode {w : Word} {i : Instr} (h : decode w = .ok i) : encode i = w := by
  unfold decode at h
  split at h
  case h_1 op | h_5 op | h_8 op | h_12 op | h_13 op | h_14 op | h_15 op | h_16 op | h_17 op |
      h_18 op | h_19 op | h_20 op | h_21 op | h_23 op | h_24 op | h_25 op | h_26 op =>
    exact encode_of_decodeN h op ⟨rfl, rfl⟩
  case h_9 op | h_10 op | h_11 op | h_22 op => exact encode_of_decodeI h op ⟨rfl, rfl⟩
  case h_6 op | h_7 op => exact encode_of_decodeS h op ⟨rfl, rfl⟩
  case h_2 op | h_3 op => exact encode_of_decodeWrite h (fun _ => op) fun _ => ⟨rfl, rfl⟩
  case h_4 op => exact encode_of_decodeRead h (fun _ => op) fun _ => ⟨rfl, rfl⟩
  case h_27 => cases h

/-- The word of `SETTEX` for a slot (30_encoding.md R86, R88). -/
theorem encode_settex (slot : BitVec 8) :
    encode (.settex slot) = 0x05000000 + slot.setWidth 32 := by
  have word := commandWord_toNat 0x05 0 (slot.setWidth 16)
  change (encode (.settex slot)).toNat = _ at word
  bv_omega

/-! ## The classes of commands -/

/-- The commands that only compute, register to register: all but the five that reach the response
port, the active map, the texture table or every register, and the two that draw. -/
def Instr.computes : Instr → Bool
  | .rd _ | .loadmap | .settex _ | .gettex _ | .srst | .draw | .ray => false
  | _ => true

end Sys2Proof

/-! SUPPORT. What the block's state keeps: the resets, everything a command can do and everything a
step can do, and from them the output ports, the active map, the texture table, the invariant and the
ranges of `CAST`. -/

namespace Sys2Proof.Machine

/-! ## The resets -/

/-- A block right after reset, whatever its build and its memory (10_state.md R42,
70_reset_and_hazards.md R250). -/
theorem State.resetOf_allZero (c : Config) (m : Memory) :
    (∀ r, (State.resetOf c m).x r = 0) ∧ (∀ i, (State.resetOf c m).texptrAt i = 0) ∧
      (State.resetOf c m).resp = [] ∧ (State.resetOf c m).draw = [] :=
  ⟨State.x_resetOf c m, fun i => by simp [State.texptrAt, State.resetOf], rfl, rfl⟩

/-- Settles O9, by the register and table lemmas of the two resets. -/
theorem resetStateIsAllZero : Obligations.ResetStateIsAllZero := by
  unfold Obligations.ResetStateIsAllZero
  exact ⟨State.resetOf_allZero, fun s => ⟨s.softReset, rfl, s.x_softReset, s.texptrAt_softReset⟩⟩

/-- Where every register is 0, no fault is recorded and both extents of the empty map are 0
(60_exceptions.md R226, 10_state.md R37). -/
theorem State.inv_of_zero {s : State} (zero : ∀ r, s.x r = 0) (memory : s.MemoryOk) : s.Inv :=
  ⟨memory, ⟨fun _ => ⟨zero _, zero _⟩, fun faulted => absurd (zero _) faulted⟩,
    by simp [State.ExtentsOk, zero]⟩

/-- Settles O11: all registers are 0, and the memory is canonical, by hypothesis or because it lists
nothing. -/
theorem resetHasInvariant : Obligations.ResetHasInvariant := by
  unfold Obligations.ResetHasInvariant
  have inv : ∀ (c : Config) (m : Memory), Memory.wf m →
      (∀ cell ∈ m, c.answers cell.1 = true) → (State.resetOf c m).Inv :=
    fun c m canonical answered => State.inv_of_zero (State.x_resetOf c m) ⟨canonical, answered⟩
  exact ⟨inv _ _ (by simp [Memory.wf]) (by simp), inv⟩

/-! ## What a flow leaves, faulted or not -/

/-- The registers a fault is recorded in (10_state.md R36). -/
def faultRegs : List Reg := [.status, .fcause, .finfo]

/-- The registers the host can write (10_state.md R20). -/
def writableRegs : List Reg := Reg.all.filter fun r => !r.readOnly

theorem mem_writableRegs {r : Reg} : r ∈ writableRegs ↔ r.readOnly = false := by
  simp [writableRegs, Reg.mem_all]

/-- Completed or faulted, a flow with a frame changes the framed registers and the fault record. -/
theorem Flow.Frame.changesOnly {rs : List Reg} {s : State} {f : Flow} (h : f.Frame rs s) :
    ChangesOnly (rs ++ faultRegs) s f.state := by
  cases f with
  | done t => exact ChangesOnly.mono h fun _ => List.mem_append_left _
  | ended t =>
    obtain ⟨u, c, info, changed, -, -, recorded⟩ := h
    exact (changed.mono fun _ => List.mem_append_left _).trans
      (recorded.mono fun _ => List.mem_append_right _)

/-- The same of a flow that also draws. -/
theorem Flow.DrawFrame.extendsDraws {rs : List Reg} {s : State} {f : Flow} (h : f.DrawFrame rs s) :
    ExtendsDraws (rs ++ faultRegs) s f.state := by
  cases f with
  | done t => exact ⟨h.1.mono fun _ => List.mem_append_left _, h.2⟩
  | ended t =>
    obtain ⟨u, c, info, ⟨changed, drawn⟩, -, -, recorded⟩ := h
    have before : ExtendsDraws (rs ++ faultRegs) s u :=
      ⟨changed.mono fun _ => List.mem_append_left _, drawn⟩
    exact before.trans (recorded.mono fun _ => List.mem_append_right _).extendsDraws

/-! ## The commands that only compute, and those that draw -/

/-- A host write changes writable registers only: a write to any other is refused (R229). -/
theorem State.hostWrite_frame_writable (s : State) (w : Word) (r : Reg) (v : Int) :
    (s.hostWrite w r v).Frame writableRegs s := by
  cases readOnly : r.readOnly with
  | true =>
    rw [s.hostWrite_readOnly w readOnly]
    exact .raise (.refl _ _) _ _
  | false =>
    exact (s.hostWrite_frame w r v).mono (by simpa [mem_writableRegs] using readOnly)

/-- A command that only computes is a flow that writes writable registers, or faults on the way, and
leaves the memory's list as it is. -/
theorem exec_of_computes {i : Instr} (hi : i.computes = true) (s : State) :
    ∃ f : Flow, exec i s = f.outcome ∧ f.Frame writableRegs s ∧ f.state.mem = s.mem := by
  cases i with
  | nop => exact ⟨.done s, rfl, ChangesOnly.refl _ s, rfl⟩
  | wrl r imm => exact ⟨_, rfl, s.hostWrite_frame_writable _ r _, hostWrite_mem s _ r _⟩
  | wrh r imm => exact ⟨_, rfl, s.hostWrite_frame_writable _ r _, hostWrite_mem s _ r _⟩
  | cos16 imm => exact ⟨_, rfl, (s.lookup_frame _ _ _).mono (by decide), lookup_mem s _ _ _⟩
  | sin16 imm => exact ⟨_, rfl, (s.lookup_frame _ _ _).mono (by decide), lookup_mem s _ _ _⟩
  | cos128 imm => exact ⟨_, rfl, (s.lookup_frame _ _ _).mono (by decide), lookup_mem s _ _ _⟩
  | norm => exact ⟨_, rfl, (doNorm_frame s).mono (by decide), doNorm_mem s⟩
  | decomp => exact ⟨_, rfl, (doDecomp_frame s).mono (by decide), doDecomp_mem s⟩
  | vsrch => exact ⟨_, rfl, (doVsrch_frame s).mono (by decide), doVsrch_mem s⟩
  | hsrch => exact ⟨_, rfl, (doHsrch_frame s).mono (by decide), doHsrch_mem s⟩
  | select => exact ⟨_, rfl, (doSelect_frame s).mono (by decide), doSelect_mem s⟩
  | cast => exact ⟨_, rfl, (doCast_frame s).mono (by decide), doCast_mem s⟩
  | fish => exact ⟨_, rfl, (doFish_frame s).mono (by decide), doFish_mem s⟩
  | proj => exact ⟨_, rfl, (doProj_frame s).mono (by decide), doProj_mem s⟩
  | span => exact ⟨_, rfl, (doSpan_frame s).mono (by decide), doSpan_mem s⟩
  | tstep => exact ⟨_, rfl, (doTstep_frame s).mono (by decide), doTstep_mem s⟩
  | trow imm => exact ⟨_, rfl, (doTrow_frame _ s).mono (by decide), doTrow_mem _ s⟩
  | texel => exact ⟨_, rfl, (doTexel_frame s).mono (by decide), doTexel_mem s⟩
  | wtexel => exact ⟨_, rfl, (doWtexel_frame s).mono (by decide), doWtexel_mem s⟩
  | rd _ | loadmap | settex _ | gettex _ | srst | draw | ray => cases hi

/-- The same of the two commands that draw: their flow extends the draw port besides. -/
theorem exec_of_draws {i : Instr} (hi : i = .draw ∨ i = .ray) (s : State) :
    ∃ f : Flow, exec i s = f.outcome ∧ f.DrawFrame writableRegs s ∧ f.state.mem = s.mem := by
  rcases hi with rfl | rfl
  · exact ⟨_, rfl, (doDraw_frame s).mono (by decide), doDraw_mem s⟩
  · exact ⟨_, rfl, (castThenDraw_frame s).mono (by decide),
      Flow.mem_andThen (doCast_mem s) doDraw_mem⟩

/-- Everything a command can do: write writable registers by a flow, which may draw and may fault;
send one word to the host; or be one of the three that reach the active map and the texture table. -/
theorem exec_cases (i : Instr) (s : State) :
    (∃ f : Flow, exec i s = f.outcome ∧ f.DrawFrame writableRegs s ∧ f.state.mem = s.mem) ∨
    (∃ v, exec i s = .next (s.emitResp v)) ∨
    i = .loadmap ∨ (∃ slot, i = .settex slot) ∨ i = .srst := by
  cases hi : i.computes with
  | true =>
    obtain ⟨f, next, frame, mem⟩ := exec_of_computes hi s
    exact .inl ⟨f, next, frame.draws, mem⟩
  | false =>
    cases i with
    | draw => exact .inl (exec_of_draws (.inl rfl) s)
    | ray => exact .inl (exec_of_draws (.inr rfl) s)
    | rd r => exact .inr (.inl ⟨_, rfl⟩)
    | gettex slot => exact .inr (.inl ⟨_, rfl⟩)
    | loadmap => exact .inr (.inr (.inl rfl))
    | settex slot => exact .inr (.inr (.inr (.inl ⟨slot, rfl⟩)))
    | srst => exact .inr (.inr (.inr (.inr rfl)))
    | _ => cases hi

/-! ## The output ports -/

/-- Settles O14: the commands that compute keep both ports, and of the others each port grows by what
`RD` and `GETTEX`, or `DRAW` and `RAY`, append to it. -/
theorem commandsOnlyExtendThePorts : Obligations.CommandsOnlyExtendThePorts := by
  unfold Obligations.CommandsOnlyExtendThePorts
  intro i s
  cases hi : i.computes with
  | true =>
    obtain ⟨f, next, frame, -⟩ := exec_of_computes hi s
    obtain ⟨-, -, ⟨resp, draw⟩, -⟩ := frame.changesOnly
    refine ⟨f.state, next, ?_, ?_⟩
    · split
      · cases hi
      · cases hi
      · exact resp
    · split
      · cases hi
      · cases hi
      · exact draw
  | false =>
    cases i with
    | rd r => exact ⟨_, rfl, ⟨_, s.resp_emitResp _⟩, s.draw_emitResp _⟩
    | gettex slot => exact ⟨_, rfl, ⟨_, s.resp_emitResp _⟩, s.draw_emitResp _⟩
    | loadmap =>
      obtain ⟨t, next, -, -, ports, -⟩ := execLoadmap_frame s
      exact ⟨t, next, ports⟩
    | settex slot => exact ⟨_, rfl, s.resp_setTexptr slot _, s.draw_setTexptr slot _⟩
    | srst => exact ⟨_, rfl, s.resp_softReset, s.draw_softReset⟩
    | draw =>
      obtain ⟨f, next, frame, -⟩ := exec_of_draws (.inl rfl) s
      obtain ⟨⟨-, -, resp, -⟩, drawn⟩ := frame.extendsDraws
      exact ⟨f.state, next, resp, drawn⟩
    | ray =>
      obtain ⟨f, next, frame, -⟩ := exec_of_draws (.inr rfl) s
      obtain ⟨⟨-, -, resp, -⟩, drawn⟩ := frame.extendsDraws
      exact ⟨f.state, next, resp, drawn⟩
    | _ => cases hi

/-! ## Steps, by the host's next action -/

/-- What a step that takes a command word leaves: the word is dropped, refused or performed. -/
theorem step_command_cases {s t : State} {w : Word} {rest : List HostInput}
    (h : s.host = .command w :: rest) (next : step s = .next t) :
    t = { s with host := rest } ∨
    (∃ c, t = State.recordFault { s with host := rest } c w.toNat) ∨
    ∃ i, encode i = w ∧ exec i { s with host := rest } = .next t := by
  rw [step_command h] at next
  rcases State.accept_cases { s with host := rest } w with
    ⟨-, dropped⟩ | ⟨-, e, -, refused⟩ | ⟨-, i, decoded, performed⟩
  · rw [dropped] at next
    cases next
    exact .inl rfl
  · rw [refused] at next
    cases next
    exact .inr (.inl ⟨rejectCause e, rfl⟩)
  · rw [performed] at next
    exact .inr (.inr ⟨i, encode_of_decode decoded, next⟩)

/-! ## The active map and the texture table -/

/-- From `s` to `t` the active map is the same (10_state.md R37). -/
def KeepsMap (s t : State) : Prop := ∀ r ∈ mapRegs, t.x r = s.x r

theorem mapRegs_not_written : ∀ r ∈ mapRegs, r ∉ writableRegs ++ faultRegs := by decide

theorem State.recordFault_keepsMap (s : State) (c : FaultCause) (info : Int) :
    KeepsMap s (s.recordFault c info) := by
  obtain ⟨-, -, keepsRegs, -⟩ := s.recordFault_records c info
  exact fun r hr => keepsRegs r fun fault => mapRegs_not_written r hr (List.mem_append_right _ fault)

theorem State.recordFault_texptr (s : State) (c : FaultCause) (info : Int) :
    (s.recordFault c info).texptr = s.texptr := by
  obtain ⟨-, -, -, table, -⟩ := s.recordFault_records c info
  exact table

theorem Flow.DrawFrame.keepsMap {s : State} {f : Flow} (h : f.DrawFrame writableRegs s) :
    KeepsMap s f.state := by
  obtain ⟨⟨keepsRegs, -⟩, -⟩ := h.extendsDraws
  exact fun r hr => keepsRegs r (mapRegs_not_written r hr)

theorem Flow.DrawFrame.texptr_eq {rs : List Reg} {s : State} {f : Flow} (h : f.DrawFrame rs s) :
    f.state.texptr = s.texptr := by
  obtain ⟨⟨-, table, -⟩, -⟩ := h.extendsDraws
  exact table

/-- `LOADMAP` copies the dimensions and recomputes the extents from them (46_system.md R209); of the
registers it changes the active map alone. -/
theorem exec_loadmap_spec (s : State) :
    ∃ t, exec .loadmap s = .next t ∧ ChangesOnly mapRegs s t ∧ t.mem = s.mem ∧ t.ExtentsOk := by
  obtain ⟨t, next, frame⟩ := execLoadmap_frame s
  refine ⟨t, next, frame, ?_⟩
  rw [← Host.Outcome.next.inj next]
  have lmw : Reg.mapw.wrap (s.x .lmw) = s.x .lmw := s.wrap_x .lmw
  have lmh : Reg.maph.wrap (s.x .lmh) = s.x .lmh := s.wrap_x .lmh
  have extents : ∀ r : Reg, r.signed = false → r.width = 16 → ∀ v, r.wrap v = v % 2 ^ 16 :=
    fun r unsigned width v => width ▸ Reg.wrap_unsigned_eq unsigned v
  constructor
  · simp
  · simp [State.ExtentsOk, shl_eq_mul, bs_eq_two_pow, lmw, lmh, extents .worldw rfl rfl,
      extents .worldh rfl rfl]

/-- A command other than `LOADMAP` and `SRST` keeps the active map. -/
theorem exec_keepsMap {i : Instr} {s t : State} (next : exec i s = .next t) (load : i ≠ .loadmap)
    (reset : i ≠ .srst) : KeepsMap s t := by
  rcases exec_cases i s with ⟨f, flow, frame, -⟩ | ⟨v, sent⟩ | loads | ⟨slot, rfl⟩ | resets
  · cases flow.symm.trans next
    exact frame.keepsMap
  · cases sent.symm.trans next
    exact fun r _ => s.x_emitResp v r
  · exact absurd loads load
  · cases next
    exact fun r _ => s.x_setTexptr slot _ r
  · exact absurd resets reset

/-- A command other than `SETTEX` and `SRST` keeps the texture table. -/
theorem exec_texptr {i : Instr} {s t : State} (next : exec i s = .next t)
    (settex : ∀ slot, i ≠ .settex slot) (reset : i ≠ .srst) : t.texptr = s.texptr := by
  rcases exec_cases i s with ⟨f, flow, frame, -⟩ | ⟨v, sent⟩ | rfl | ⟨slot, sets⟩ | resets
  · cases flow.symm.trans next
    exact frame.texptr_eq
  · cases sent.symm.trans next
    exact s.texptr_emitResp v
  · obtain ⟨u, loaded, ⟨-, table, -⟩, -⟩ := exec_loadmap_spec s
    cases loaded.symm.trans next
    exact table
  · exact absurd sets (settex slot)
  · exact absurd resets reset

/-- A step keeps the active map and the texture table unless the host's action is one of the words, or
the hardware reset, that changes them (10_state.md R37, R38). -/
theorem step_keepsMap_and_texptr {s t : State} (next : step s = .next t)
    (srst : s.host.head? ≠ some (.command 0x07000000))
    (hardReset : s.host.head? ≠ some .hardReset) :
    (s.host.head? ≠ some (.command 0x04000000) → KeepsMap s t) ∧
    ((∀ slot : BitVec 8, s.host.head? ≠ some (.command (0x05000000 + slot.setWidth 32))) →
      t.texptr = s.texptr) := by
  cases h : s.host with
  | nil =>
    cases (step_idle h).symm.trans next
    exact ⟨fun _ _ _ => rfl, fun _ => rfl⟩
  | cons action rest =>
    rw [h] at srst hardReset
    cases action with
    | command w =>
      rcases step_command_cases h next with rfl | ⟨c, rfl⟩ | ⟨i, rfl, performed⟩
      · exact ⟨fun _ _ _ => rfl, fun _ => rfl⟩
      · exact ⟨fun _ => State.recordFault_keepsMap _ c _, fun _ => State.recordFault_texptr _ c _⟩
      · have notReset : i ≠ .srst := fun e => srst (by rw [e]; rfl)
        constructor
        · intro notLoadmap
          have notLoad : i ≠ .loadmap := fun e => notLoadmap (by rw [e]; rfl)
          have kept := exec_keepsMap performed notLoad notReset
          exact kept
        · intro notSettex
          have notSet : ∀ slot, i ≠ .settex slot := fun slot e =>
            notSettex slot (by rw [e, encode_settex]; rfl)
          exact (exec_texptr performed notSet notReset).trans rfl
    | store a b =>
      cases (step_store h).symm.trans next
      exact ⟨fun _ r _ => State.x_hostStore _ a b r, fun _ => State.texptr_hostStore _ a b⟩
    | hardReset => exact absurd rfl hardReset

/-- Settles O56: by the effects of a command, and by the host's next action. -/
theorem onlyLoadmapChangesTheMap : Obligations.OnlyLoadmapChangesTheMap := by
  unfold Obligations.OnlyLoadmapChangesTheMap
  refine ⟨fun i s => ?_, fun s t next srst hardReset => step_keepsMap_and_texptr next srst hardReset⟩
  obtain ⟨t, next, -⟩ := exec_next_keepsPlatform i s
  exact ⟨t, next, exec_keepsMap next, exec_texptr next⟩

/-! ## The invariant -/

theorem State.MemoryOk.of_eq {s t : State} (h : s.MemoryOk) (mem : t.mem = s.mem)
    (cfg : t.cfg = s.cfg) : t.MemoryOk := by
  unfold State.MemoryOk
  rwa [mem, cfg]

/-- The host's store keeps the memory canonical, and puts a byte only where one is answered. -/
theorem State.MemoryOk.hostStore {s : State} (h : s.MemoryOk) (a : Word) (b : Byte) :
    (s.hostStore a b).MemoryOk := by
  obtain ⟨canonical, inside⟩ := h
  unfold State.hostStore
  split
  · next answered =>
    refine ⟨Memory.wf_write canonical a.isLt b, fun cell listed => ?_⟩
    rcases Memory.mem_write.1 listed with ⟨rfl, -⟩ | ⟨old, -⟩
    · exact answered
    · exact inside cell old
  · exact ⟨canonical, inside⟩

theorem State.ExtentsOk.of_keepsMap {s t : State} (h : s.ExtentsOk) (map : KeepsMap s t)
    (cfg : t.cfg = s.cfg) : t.ExtentsOk := by
  unfold State.ExtentsOk
  rw [map .worldw (by decide), map .worldh (by decide), map .mapw (by decide),
    map .maph (by decide), cfg]
  exact h

theorem State.FaultRecordOk.of_eq {s t : State} (h : s.FaultRecordOk)
    (same : ∀ r ∈ faultRegs, t.x r = s.x r) : t.FaultRecordOk := by
  unfold State.FaultRecordOk
  rw [same .status (by decide), same .fcause (by decide), same .finfo (by decide)]
  exact h

theorem FaultCause.code_range (c : FaultCause) : 1 ≤ c.code ∧ c.code ≤ 6 := by
  cases c <;> decide

/-- A raised fault leaves a record of its own cause, or the one that stands there. -/
theorem State.FaultRecordOk.records {c : FaultCause} {info : Int} {s t : State}
    (h : s.FaultRecordOk) (raised : RecordsFault c info s t) : t.FaultRecordOk := by
  obtain ⟨first, later, -⟩ := raised
  by_cases clear : s.x .status = 0
  · obtain ⟨status, fcause, -⟩ := first clear
    refine ⟨fun e => absurd (status.symm.trans e) (by decide), fun _ => ?_⟩
    rw [fcause]
    exact c.code_range
  · obtain ⟨status, fcause, finfo⟩ := later clear
    exact h.of_eq (by simp [faultRegs, status, fcause, finfo])

theorem faultRegs_not_writable : ∀ r ∈ faultRegs, r ∉ writableRegs := by decide

theorem faultRegs_not_mapRegs : ∀ r ∈ faultRegs, r ∉ mapRegs := by decide

/-- A flow that writes writable registers keeps the fault record sound, whether it faults or not. -/
theorem Flow.DrawFrame.faultRecordOk {s : State} {f : Flow} (frame : f.DrawFrame writableRegs s)
    (h : s.FaultRecordOk) : f.state.FaultRecordOk := by
  cases f with
  | done t =>
    obtain ⟨⟨keepsRegs, -⟩, -⟩ := frame
    exact h.of_eq fun r hr => keepsRegs r (faultRegs_not_writable r hr)
  | ended t =>
    obtain ⟨u, c, info, ⟨⟨keepsRegs, -⟩, -⟩, records⟩ := frame
    exact (h.of_eq fun r hr => keepsRegs r (faultRegs_not_writable r hr)).records records

theorem State.Inv.recordFault {s : State} (h : s.Inv) (c : FaultCause) (info : Int) :
    (s.recordFault c info).Inv := by
  obtain ⟨memory, fault, extents⟩ := h
  have records := s.recordFault_records c info
  obtain ⟨-, cfg, -⟩ := records.keepsPlatform
  exact ⟨memory.of_eq (s.mem_recordFault c info) cfg, fault.records records,
    extents.of_keepsMap (s.recordFault_keepsMap c info) cfg⟩

/-- Every command keeps the invariant, by what it can reach. -/
theorem exec_keepsInv {i : Instr} {s t : State} (inv : s.Inv) (next : exec i s = .next t) : t.Inv := by
  rcases exec_cases i s with ⟨f, flow, frame, mem⟩ | ⟨v, sent⟩ | rfl | ⟨slot, rfl⟩ | rfl
  · cases flow.symm.trans next
    obtain ⟨memory, fault, extents⟩ := inv
    obtain ⟨-, cfg, -⟩ := frame.keepsPlatform
    exact ⟨memory.of_eq mem cfg, frame.faultRecordOk fault,
      extents.of_keepsMap frame.keepsMap cfg⟩
  · cases sent.symm.trans next
    exact inv
  · obtain ⟨memory, fault, -⟩ := inv
    obtain ⟨u, loaded, ⟨keepsRegs, -, -, -, cfg, -⟩, mem, extents⟩ := exec_loadmap_spec s
    cases loaded.symm.trans next
    exact ⟨memory.of_eq mem cfg,
      fault.of_eq fun r hr => keepsRegs r (faultRegs_not_mapRegs r hr), extents⟩
  · cases next
    exact inv
  · cases next
    obtain ⟨memory, -⟩ := inv
    exact State.inv_of_zero s.x_softReset memory

/-- Settles O12, by the host's next action. -/
theorem stepKeepsInvariant : Obligations.StepKeepsInvariant := by
  unfold Obligations.StepKeepsInvariant
  intro s t inv next
  cases h : s.host with
  | nil =>
    cases (step_idle h).symm.trans next
    exact inv
  | cons action rest =>
    have taken : State.Inv { s with host := rest } := inv
    cases action with
    | command w =>
      rcases step_command_cases h next with rfl | ⟨c, rfl⟩ | ⟨i, -, performed⟩
      · exact taken
      · exact taken.recordFault c _
      · exact exec_keepsInv taken performed
    | store a b =>
      cases (step_store h).symm.trans next
      obtain ⟨memory, fault, extents⟩ := taken
      exact ⟨memory.hostStore a b, fault.of_eq fun r _ => State.x_hostStore _ a b r,
        extents.of_keepsMap (fun r _ => State.x_hostStore _ a b r) (State.cfg_hostStore _ a b)⟩
    | hardReset =>
      cases (step_hardReset h).symm.trans next
      obtain ⟨memory, -⟩ := taken
      exact State.inv_of_zero (State.x_hardReset _) memory

/-! ## The ranges of `CAST` -/

/-- A write of a non-negative value to an unsigned register never stores more than that value
(10_state.md R21). -/
theorem wrap_range {r : Reg} (unsigned : r.signed = false) {v : Int} (h : 0 ≤ v) :
    0 ≤ r.wrap v ∧ r.wrap v ≤ v := by
  rw [Reg.wrap_unsigned_eq unsigned]
  have size : (0 : Int) < 2 ^ r.width := by positivity
  refine ⟨Int.emod_nonneg _ size.ne', ?_⟩
  have quotient := Int.mul_nonneg size.le (Int.ediv_nonneg h size.le)
  have division := Int.emod_add_mul_ediv v (2 ^ r.width)
  omega

/-- A quotient whose divisor is neither 0 nor 1 is at most half. -/
theorem ediv_le_half {a b m : Int} (ha : 0 ≤ a) (hb : a ≤ b) (hm : 2 ≤ m) :
    0 ≤ a / m ∧ a / m ≤ b / 2 := by
  have nonneg : 0 ≤ a / m := Int.ediv_nonneg ha (by omega)
  have half : a / m * 2 ≤ a :=
    (Int.mul_le_mul_of_nonneg_left hm nonneg).trans (Int.ediv_mul_le a (by omega))
  omega

/-- A scaled tangent whose divisor is never 1 is at most `128 * BS / 2` (41_angle_decomp.md R124). -/
theorem scaledTan_range (c : Config) {num den : Int} (num0 : 0 ≤ num) (num1 : num ≤ 128)
    (den0 : 0 ≤ den) (den1 : den ≠ 1) :
    0 ≤ scaledTan c num den ∧ scaledTan c num den ≤ 128 * c.bs / 2 := by
  have bs := bs_pos c
  unfold scaledTan
  split
  · omega
  · rw [shl_eq_mul, ← bs_eq_two_pow]
    exact ediv_le_half (by positivity) (Int.mul_le_mul_of_nonneg_right num1 bs.le) (by omega)

/-- The longest ray: 65535 world units of axis distance at the smallest magnitude, 2
(42_dda_search.md R140, 10_state.md R43). -/
def longestRay : Int := 4194240

theorem rayLength_range {d m : Int} (near : absInt d ≤ 65535) (m0 : 0 ≤ m) (m1 : m ≠ 1) :
    0 ≤ rayLength d m ∧ rayLength d m ≤ longestRay := by
  unfold rayLength longestRay
  split
  · omega
  · have nonneg : 0 ≤ absInt d := Int.natCast_nonneg _
    have half := ediv_le_half (a := absInt d * 128) (b := 65535 * 128) (m := m) (by omega)
      (by omega) (by omega)
    omega

/-- A cursor whose cell is inside a map of at most 255 cells lies within 65535 world units of any
position: the world is at most 2^16 wide (00_scope.md R7). -/
theorem cursor_near {n : Nat} (small : n ≤ 8) {p cursor : Int} (neg : Bool) (p0 : 0 ≤ p)
    (p1 : p < 2 ^ 16) (cell0 : 0 ≤ asr cursor n + farSide neg)
    (cell1 : asr cursor n + farSide neg < 2 ^ 8 - 1) : absInt (cursor - p) ≤ 65535 := by
  rw [asr_eq_ediv] at cell0 cell1
  have index : 0 ≤ cursor / 2 ^ n ∧ cursor / 2 ^ n < 2 ^ 8 := by
    have side : -1 ≤ farSide neg ∧ farSide neg ≤ 0 := by cases neg <;> decide
    omega
  have block : (0 : Int) < 2 ^ n := by positivity
  have block8 : (2 : Int) ^ n ≤ 2 ^ 8 := pow_le_pow_right₀ (by decide) small
  have low : 0 ≤ cursor := (Int.ediv_nonneg_iff_of_pos block).1 index.1
  have high : cursor < 2 ^ 8 * 2 ^ n := (Int.ediv_lt_iff_lt_mul block).1 index.2
  unfold absInt
  omega

/-- Where a search meets a byte, its cell is inside the map (42_dda_search.md R136). -/
theorem State.cell_inside {s : State} {col row : Int} {t : Byte}
    (met : s.cell col row = .ok (some t)) :
    0 ≤ col ∧ col < s.x .mapw ∧ 0 ≤ row ∧ row < s.x .maph := by
  by_contra outside
  rw [(s.cell_out_iff col row).2 (by omega)] at met
  cases met

/-- The sentinel length of a ray that leaves the world (42_dda_search.md R141). -/
theorem State.worldw_range (s : State) : 0 ≤ s.x .worldw ∧ s.x .worldw ≤ longestRay := by
  have range := s.x_range_unsigned (r := .worldw) rfl
  simp only [Reg.width] at range
  unfold longestRay
  omega

/-- On an answered map the vertical-line walk ends, in a solid cell only within reach of the player. -/
theorem State.vWalk_near {s : State} (small : s.cfg.bsLog2 ≤ 8) (answered : s.MapAnswered) :
    ∃ cx cy hit, s.vWalk = .ok ⟨cx, cy, hit⟩ ∧
      (hit.isSome → absInt (cx - s.x .px) ≤ 65535) := by
  obtain ⟨k, -, -, -, walk⟩ := s.vWalk_spec
  cases met : s.vCell k with
  | error a => exact absurd met (State.cell_answered answered _ _ a)
  | ok cell =>
    refine ⟨_, _, cell, by rw [walk, met]; rfl, fun solid => ?_⟩
    obtain ⟨t, rfl⟩ := Option.isSome_iff_exists.1 solid
    obtain ⟨col0, col1, -⟩ := State.cell_inside met
    have px := s.x_range_unsigned (r := .px) rfl
    have mapw := s.x_range_unsigned (r := .mapw) rfl
    simp only [Reg.width] at px mapw
    exact cursor_near small s.sxn px.1 px.2 col0 (by omega)

/-- On an answered map the horizontal-line walk ends, in a solid cell only within reach of the
player. -/
theorem State.hWalk_near {s : State} (small : s.cfg.bsLog2 ≤ 8) (answered : s.MapAnswered) :
    ∃ cx cy hit, s.hWalk = .ok ⟨cx, cy, hit⟩ ∧
      (hit.isSome → absInt (cy - s.x .py) ≤ 65535) := by
  obtain ⟨k, -, -, -, walk⟩ := s.hWalk_spec
  cases met : s.hCell k with
  | error a => exact absurd met (State.cell_answered answered _ _ a)
  | ok cell =>
    refine ⟨_, _, cell, by rw [walk, met]; rfl, fun solid => ?_⟩
    obtain ⟨t, rfl⟩ := Option.isSome_iff_exists.1 solid
    obtain ⟨-, -, row0, row1⟩ := State.cell_inside met
    have py := s.x_range_unsigned (r := .py) rfl
    have maph := s.x_range_unsigned (r := .maph) rfl
    simp only [Reg.width] at py maph
    exact cursor_near small s.syn py.1 py.2 row0 (by omega)

theorem State.writeV_lenv_le (s : State) {len : Int} (range : 0 ≤ len ∧ len ≤ longestRay)
    (found cx cy typ : Int) : (s.writeV found len cx cy typ).x .lenv ≤ longestRay := by
  obtain ⟨-, lenv, -⟩ := s.writeV_results found len cx cy typ
  rw [lenv]
  exact (wrap_range rfl range.1).2.trans range.2

theorem State.writeH_lenh_le (s : State) {len : Int} (range : 0 ≤ len ∧ len ≤ longestRay)
    (found cx cy typ : Int) : (s.writeH found len cx cy typ).x .lenh ≤ longestRay := by
  obtain ⟨-, lenh, -⟩ := s.writeH_results found len cx cy typ
  rw [lenh]
  exact (wrap_range rfl range.1).2.trans range.2

/-- On an answered map the vertical-line search completes, with a ray length in range. -/
theorem doVsrch_range {s : State} (small : s.cfg.bsLog2 ≤ 8) (answered : s.MapAnswered)
    (magnitude : s.x .cosm ≠ 1) : ∃ t, doVsrch s = .done t ∧ t.x .lenv ≤ longestRay := by
  unfold doVsrch
  split
  · exact ⟨_, rfl, s.writeV_lenv_le s.worldw_range _ _ _ _⟩
  · obtain ⟨cx, cy, hit, walk, near⟩ := State.vWalk_near small answered
    rw [walk]
    cases hit with
    | none => exact ⟨_, rfl, s.writeV_lenv_le s.worldw_range _ _ _ _⟩
    | some t =>
      have cosm := s.x_range_unsigned (r := .cosm) rfl
      exact ⟨_, rfl, s.writeV_lenv_le (rayLength_range (near rfl) cosm.1 magnitude) _ _ _ _⟩

/-- On an answered map the horizontal-line search completes, with a ray length in range. -/
theorem doHsrch_range {s : State} (small : s.cfg.bsLog2 ≤ 8) (answered : s.MapAnswered)
    (magnitude : s.x .sinm ≠ 1) : ∃ t, doHsrch s = .done t ∧ t.x .lenh ≤ longestRay := by
  unfold doHsrch
  split
  · exact ⟨_, rfl, s.writeH_lenh_le s.worldw_range _ _ _ _⟩
  · obtain ⟨cx, cy, hit, walk, near⟩ := State.hWalk_near small answered
    rw [walk]
    cases hit with
    | none => exact ⟨_, rfl, s.writeH_lenh_le s.worldw_range _ _ _ _⟩
    | some t =>
      have sinm := s.x_range_unsigned (r := .sinm) rfl
      exact ⟨_, rfl, s.writeH_lenh_le (rayLength_range (near rfl) sinm.1 magnitude) _ _ _ _⟩

/-- The sample column is inside the texture, mirrored or not (42_dda_search.md R147). -/
theorem sampleColumn_range {c : Config} (shift : c.texShift ≤ c.bsLog2) (bits : Nat)
    (mirror : Bool) : 0 ≤ sampleColumn c bits mirror ∧ sampleColumn c bits mirror < c.texSize := by
  have offset : andInt bits (c.bs - 1) = bits % 2 ^ c.bsLog2 := by
    rw [bs_eq_two_pow, andInt_mask (Int.natCast_nonneg bits)]
  have column : 0 ≤ asr (andInt bits (c.bs - 1)) c.texShift ∧
      asr (andInt bits (c.bs - 1)) c.texShift < c.texSize := by
    rw [asr_eq_ediv, offset, texSize_eq_two_pow shift]
    refine ⟨Int.ediv_nonneg (Int.emod_nonneg _ (by positivity)) (by positivity), ?_⟩
    rw [Int.ediv_lt_iff_lt_mul (by positivity), ← pow_add, Nat.sub_add_cancel shift]
    exact Int.emod_lt_of_pos _ (by positivity)
  unfold sampleColumn
  cases mirror
  · exact column
  · simp only [if_true]
    omega

/-- The chosen hit's distance is a search's length or the sentinel, and its sample column is inside the
texture (42_dda_search.md R146, R147). -/
theorem State.chooseHit_range {s : State} (shift : s.cfg.texShift ≤ s.cfg.bsLog2)
    (lenv : s.x .lenv ≤ longestRay) (lenh : s.x .lenh ≤ longestRay) :
    (0 ≤ s.chooseHit.dist ∧ s.chooseHit.dist ≤ longestRay) ∧
      0 ≤ s.chooseHit.sample ∧ s.chooseHit.sample < s.cfg.texSize := by
  have texture : 0 < s.cfg.texSize := by rw [texSize_eq_two_pow shift]; positivity
  unfold State.chooseHit
  split
  · exact ⟨⟨(s.x_range_unsigned (r := .lenh) rfl).1, lenh⟩, sampleColumn_range shift _ _⟩
  · split
    · exact ⟨⟨(s.x_range_unsigned (r := .lenv) rfl).1, lenv⟩, sampleColumn_range shift _ _⟩
    · unfold State.noHit
      split <;> exact ⟨s.worldw_range, le_rfl, texture⟩

/-- `SELECT` leaves a distance and a sample column in range (42_dda_search.md R146). -/
theorem doSelect_range {s : State} (shift : s.cfg.texShift ≤ s.cfg.bsLog2)
    (lenv : s.x .lenv ≤ longestRay) (lenh : s.x .lenh ≤ longestRay) :
    ∃ t, doSelect s = .done t ∧ t.x .dist ≤ longestRay ∧ 0 ≤ t.x .sample ∧
      t.x .sample < s.cfg.texSize := by
  obtain ⟨⟨dist0, dist1⟩, sample0, sample1⟩ := State.chooseHit_range shift lenv lenh
  obtain ⟨-, -, dist, -, -, -, sample, -⟩ := s.writeHit_results s.chooseHit
  refine ⟨_, rfl, ?_, ?_, ?_⟩
  · rw [dist]
    exact (wrap_range rfl dist0).2.trans dist1
  · rw [sample]
    exact (wrap_range rfl sample0).1
  · rw [sample]
    exact (wrap_range rfl sample0).2.trans_lt sample1

/-- An answered map stays answered under a frame that keeps the active map. -/
theorem State.MapAnswered.of_changesOnly {rs : List Reg} {s t : State} (h : s.MapAnswered)
    (frame : ChangesOnly rs s t) (kept : ∀ r ∈ mapRegs, r ∉ rs) : t.MapAnswered := by
  obtain ⟨keepsRegs, -, -, mem, -⟩ := frame
  have map : KeepsMap s t := fun r hr => keepsRegs r (kept r hr)
  unfold State.MapAnswered State.cellAddr
  rw [map .mapbase (by decide), map .mapw (by decide), map .maph (by decide)]
  intro col row col0 col1 row0 row1
  rw [mem]
  exact h col row col0 col1 row0 row1

/-- The registers the two searches and the choice of the hit write. -/
def searchRegs : List Reg :=
  [.vfound, .lenv, .vx, .vy, .vtype, .hfound, .lenh, .hx, .hy, .htype, .hit, .side, .dist, .btype,
   .hitx, .hity, .sample, .orient]

/-- The second half of `CAST`: on an answered map, with legal parameters and magnitudes that are never
1, both searches and the choice of the hit complete in their ranges. -/
theorem search_and_select_range {s : State} (legal : s.cfg.Legal) (answered : s.MapAnswered)
    (cosm : s.x .cosm ≠ 1) (sinm : s.x .sinm ≠ 1) :
    ∃ t, ((doVsrch s).andThen fun s => (doHsrch s).andThen doSelect) = .done t ∧
      ChangesOnly searchRegs s t ∧ t.x .lenv ≤ longestRay ∧ t.x .lenh ≤ longestRay ∧
      t.x .dist ≤ longestRay ∧ 0 ≤ t.x .sample ∧ t.x .sample < s.cfg.texSize := by
  obtain ⟨small, shift, -⟩ := legal
  obtain ⟨v, vDone, lenv⟩ := doVsrch_range small answered cosm
  have vFrame : ChangesOnly _ s v := vDone ▸ doVsrch_frame s
  have ⟨vRegs, _, _, _, vCfg, _⟩ := vFrame
  have sinmV : v.x .sinm ≠ 1 := vRegs .sinm (by decide) ▸ sinm
  obtain ⟨h, hDone, lenh⟩ := doHsrch_range (vCfg ▸ small)
    (answered.of_changesOnly vFrame (by decide)) sinmV
  have hFrame : ChangesOnly _ v h := hDone ▸ doHsrch_frame v
  have ⟨hRegs, _, _, _, hCfg, _⟩ := hFrame
  have cfg : h.cfg = s.cfg := hCfg.trans vCfg
  have lenvH : h.x .lenv ≤ longestRay := hRegs .lenv (by decide) ▸ lenv
  obtain ⟨t, tDone, dist, sample⟩ := doSelect_range (cfg ▸ shift) lenvH lenh
  have tFrame : ChangesOnly _ h t := tDone ▸ doSelect_frame h
  have ⟨tRegs, _⟩ := tFrame
  refine ⟨t, ?_, ?_, tRegs .lenv (by decide) ▸ lenvH, tRegs .lenh (by decide) ▸ lenh, dist,
    cfg ▸ sample⟩
  · rw [vDone, Flow.andThen_done, hDone, Flow.andThen_done, tDone]
  · exact ((vFrame.mono (by decide)).trans (hFrame.mono (by decide))).trans
      (tFrame.mono (by decide))

/-- What `DECOMP` leaves for a normalised angle (41_angle_decomp.md R121, R124): magnitudes of the
128-scale table, never 1 and never both 0, and tangents of at most `128 * BS / 2`. -/
theorem State.writeDecomp_range (s : State) {a : Int} (a0 : 0 ≤ a) (a1 : a ≤ 359) :
    ((s.writeDecomp a).x .cosm ≤ 128 ∧ (s.writeDecomp a).x .cosm ≠ 1) ∧
    ((s.writeDecomp a).x .sinm ≤ 128 ∧ (s.writeDecomp a).x .sinm ≠ 1) ∧
    ¬ ((s.writeDecomp a).x .cosm = 0 ∧ (s.writeDecomp a).x .sinm = 0) ∧
    (s.writeDecomp a).x .tanv ≤ 128 * s.cfg.bs / 2 ∧
    (s.writeDecomp a).x .tanh ≤ 128 * s.cfg.bs / 2 := by
  obtain ⟨r0, r1⟩ := reflected_range a0 a1
  obtain ⟨cos0, cos1, cosZero, cosOne⟩ := c128_facts r0 r1
  obtain ⟨sin0, sin1, sinZero, sinOne⟩ := c128_facts (a := 90 - reflected a) (by omega) (by omega)
  have cosm : (s.writeDecomp a).x .cosm = c128 (reflected a) := by
    simpa [State.writeDecomp] using
      Reg.wrap_unsigned (r := .cosm) rfl cos0 (by simp only [Reg.width]; omega)
  have sinm : (s.writeDecomp a).x .sinm = c128 (90 - reflected a) := by
    simpa [State.writeDecomp] using
      Reg.wrap_unsigned (r := .sinm) rfl sin0 (by simp only [Reg.width]; omega)
  have tanv : (s.writeDecomp a).x .tanv =
      Reg.tanv.wrap (scaledTan s.cfg (c128 (90 - reflected a)) (c128 (reflected a))) := by
    simp [State.writeDecomp]
  have tanh : (s.writeDecomp a).x .tanh =
      Reg.tanh.wrap (scaledTan s.cfg (c128 (reflected a)) (c128 (90 - reflected a))) := by
    simp [State.writeDecomp]
  rw [cosm, sinm, tanv, tanh]
  have v := scaledTan_range s.cfg sin0 sin1 cos0 cosOne
  have h := scaledTan_range s.cfg cos0 cos1 sin0 sinOne
  exact ⟨⟨cos1, cosOne⟩, ⟨sin1, sinOne⟩, fun zero => by omega,
    (wrap_range rfl v.1).2.trans v.2, (wrap_range rfl h.1).2.trans h.2⟩

/-- `NORM` leaves a normalised angle (40_trig_rom.md R107). -/
theorem doNorm_range (s : State) :
    ∃ t, doNorm s = .done t ∧ ChangesOnly [.angn] s t ∧ 0 ≤ t.x .angn ∧ t.x .angn ≤ 359 := by
  obtain ⟨norm0, norm1⟩ := norm360_range (s.x .angle)
  refine ⟨_, rfl, doNorm_frame s, ?_⟩
  rw [State.x_set_same]
  have range := wrap_range (r := .angn) rfl norm0
  omega

/-- Settles O40: `NORM` and `DECOMP` leave their ranges, and the rest of `CAST` keeps them and adds its
own. -/
theorem castKeepsItsRanges : Obligations.CastKeepsItsRanges := by
  unfold Obligations.CastKeepsItsRanges
  intro s legal answered
  obtain ⟨n, nDone, nFrame, angn0, angn1⟩ := doNorm_range s
  have dDone : doDecomp n = .done (n.writeDecomp (n.x .angn)) := if_neg (by omega)
  have dFrame := n.writeDecomp_frame (n.x .angn)
  have ⟨_, _, _, _, nCfg, _⟩ := nFrame
  have ⟨dRegs, _, _, _, dCfg, _⟩ := dFrame
  have cfg := dCfg.trans nCfg
  obtain ⟨⟨cosm, cosOne⟩, ⟨sinm, sinOne⟩, zeros, tans⟩ :=
    n.writeDecomp_range angn0 angn1
  have dAnswered := (answered.of_changesOnly nFrame (by decide)).of_changesOnly dFrame (by decide)
  obtain ⟨t, tDone, ⟨tRegs, -⟩, lenv, lenh, dist, sample⟩ :=
    search_and_select_range (cfg ▸ legal) dAnswered cosOne sinOne
  have angn : t.x .angn = n.x .angn :=
    (tRegs .angn (by decide)).trans (dRegs .angn (by decide))
  refine ⟨t, ?_, angn ▸ angn0, angn ▸ angn1, ?_⟩
  · show (doCast s).outcome = .next t
    rw [doCast, nDone, Flow.andThen_done, dDone, Flow.andThen_done, tDone]
    rfl
  · rw [tRegs .cosm (by decide), tRegs .sinm (by decide), tRegs .tanv (by decide),
      tRegs .tanh (by decide), ← nCfg]
    exact ⟨cosm, sinm, zeros, tans.1, tans.2, lenv, lenh, dist, dCfg ▸ sample⟩

end Sys2Proof.Machine

/-! The memory the block reads and never writes (20_memory.md). -/

namespace Sys2Proof.Machine

/-- Settles O13: every command completes and keeps the platform, whose first part is the memory. The
cases over the commands, each by the frame of its flow, are `exec_next_keepsPlatform`. -/
theorem blockNeverWritesMemory : Obligations.BlockNeverWritesMemory := by
  unfold Obligations.BlockNeverWritesMemory
  intro i s
  obtain ⟨t, next, mem, host⟩ := exec_next_keepsPlatform i s
  exact ⟨t, next, mem, host⟩

end Sys2Proof.Machine

/-! The command encoding (30_encoding.md): the decoder reads every command from its own word, every
word it accepts is a command's own, and what it refuses follows the order of R89. -/

namespace Sys2Proof

/-! ## The formats read back an encoded command -/

/-- The value of the word of a command that names no register: opcode and low half
(30_encoding.md R82). -/
theorem encode_toNat {i : Instr} (a : i.aOperand = 0) :
    (encode i).toNat = i.opcode.toNat * 2 ^ 24 + i.immOperand.toNat := by
  rw [encode, commandWord_toNat, a]
  simp

/-- Format N: a command without operands decodes from its word (30_encoding.md R83). -/
theorem decodeN_encode {i : Instr} (a : i.aOperand = 0) (imm : i.immOperand = 0) :
    decodeN (encode i) i = .ok i := by
  have zero : (encode i).extractLsb' 0 24 = 0 := by
    apply BitVec.eq_of_toNat_eq
    rw [extractLsb'_value, encode_toNat a, imm]
    simp
  rw [decodeN, if_pos zero]

/-- Format I: the immediate is read back (30_encoding.md R84). -/
theorem decodeI_encode {i : Instr} (a : i.aOperand = 0) (j : BitVec 16 → Instr) :
    decodeI (encode i) j = .ok (j i.immOperand) := by
  rw [decodeI, aField_encode, if_pos a, immField_encode]

/-- Format S: the slot is read back (30_encoding.md R86). -/
theorem decodeS_encode {i : Instr} {slot : BitVec 8} (a : i.aOperand = 0)
    (imm : i.immOperand = slot.setWidth 16) (j : BitVec 8 → Instr) :
    decodeS (encode i) j = .ok (j slot) := by
  have word : (encode i).toNat = i.opcode.toNat * 2 ^ 24 + slot.toNat % 2 ^ 16 := by
    rw [encode_toNat a, imm, BitVec.toNat_setWidth]
  have low := slot.isLt
  have zero : (encode i).extractLsb' 8 16 = 0 := by
    apply BitVec.eq_of_toNat_eq
    rw [extractLsb'_value, word]
    show _ = 0
    omega
  have read : slotField (encode i) = slot := by
    apply BitVec.eq_of_toNat_eq
    rw [slotField, extractLsb'_value, word]
    omega
  rw [decodeS, if_pos zero, read]

/-- Format R, the host writes: register and immediate are read back (30_encoding.md R85). -/
theorem decodeWrite_encode {i : Instr} {r : Reg} (a : i.aOperand = r.index)
    (writable : r.readOnly = false) (j : Reg → BitVec 16 → Instr) :
    decodeWrite (encode i) j = .ok (j r i.immOperand) := by
  simp [decodeWrite, aField_encode, immField_encode, a, Reg.ofIndex_index, writable]

/-- Format R, `RD`: the register is read back (30_encoding.md R85). -/
theorem decodeRead_encode {i : Instr} {r : Reg} (a : i.aOperand = r.index)
    (imm : i.immOperand = 0) (j : Reg → Instr) : decodeRead (encode i) j = .ok (j r) := by
  simp [decodeRead, aField_encode, immField_encode, a, imm, Reg.ofIndex_index]

/-- Settles O2, by the command: its opcode selects the decoder of its format, which reads the
operands back. -/
theorem decodeOfEncodeReturnsCommand : Obligations.DecodeOfEncodeReturnsCommand := by
  unfold Obligations.DecodeOfEncodeReturnsCommand
  intro i legal
  rw [decode, opField_encode]
  cases i with
  | wrl r imm | wrh r imm =>
    exact decodeWrite_encode rfl (by simpa [Instr.wellFormed] using legal) _
  | rd r => exact decodeRead_encode rfl rfl _
  | settex slot | gettex slot => exact decodeS_encode rfl rfl _
  | cos16 imm | sin16 imm | cos128 imm | trow imm => exact decodeI_encode rfl _
  | nop | loadmap | srst | norm | decomp | vsrch | hsrch | select | cast | fish | proj | span
  | tstep | texel | wtexel | draw | ray => exact decodeN_encode rfl rfl

/-- The word of a well-formed command decodes to it. -/
theorem decode_of_encode_eq {w : Word} {i : Instr} (word : encode i = w)
    (legal : i.wellFormed = true) : decode w = .ok i := by
  rw [← word]
  exact decodeOfEncodeReturnsCommand i legal

/-- Settles O4: each of the eight words is that of its command. -/
theorem specExampleWordsDecode : Obligations.SpecExampleWordsDecode :=
  ⟨decode_of_encode_eq (by decide) rfl, decode_of_encode_eq (by decide) rfl,
    decode_of_encode_eq (by decide) rfl, decode_of_encode_eq (by decide) rfl,
    decode_of_encode_eq (by decide) rfl, decode_of_encode_eq (by decide) rfl,
    decode_of_encode_eq (by decide) rfl, decode_of_encode_eq (by decide) rfl⟩

end Sys2Proof

/-! What the decoder accepts and what it refuses, and the command port over it. -/

namespace Sys2Proof.Machine

/-! ## The decoder by formats -/

/-- The opcodes of the formats that name no register (30_encoding.md R83, R84, R86, R88). -/
abbrev takesNoRegister (op : BitVec 8) : Prop :=
  opcodeAssigned op = true ∧ ¬ (op = 0x01 ∨ op = 0x02 ∨ op = 0x03)

/-- What a word decodes to, by the format of its opcode: the format's decoder for a command that is
well formed, with the format's must-be-zero field as `mustBeZeroClear` tests it (30_encoding.md R83
to R88). -/
inductive DecodesBy (w : Word) : Except DecodeError Instr → Prop
  | unassigned (op : opcodeAssigned (opField w) = false) : DecodesBy w (.error .unassignedOpcode)
  | formatN (i : Instr) (op : takesNoRegister (opField w))
      (field : mustBeZeroClear w = true ↔ w.extractLsb' 0 24 = 0) (legal : i.wellFormed = true) :
      DecodesBy w (decodeN w i)
  | formatI (i : BitVec 16 → Instr) (op : takesNoRegister (opField w))
      (field : mustBeZeroClear w = true ↔ aField w = 0) (legal : ∀ imm, (i imm).wellFormed = true) :
      DecodesBy w (decodeI w i)
  | formatS (i : BitVec 8 → Instr) (op : takesNoRegister (opField w))
      (field : mustBeZeroClear w = true ↔ w.extractLsb' 8 16 = 0)
      (legal : ∀ slot, (i slot).wellFormed = true) : DecodesBy w (decodeS w i)
  | write (i : Reg → BitVec 16 → Instr) (op : opField w = 0x01 ∨ opField w = 0x02)
      (field : mustBeZeroClear w = true)
      (legal : ∀ r imm, r.readOnly = false → (i r imm).wellFormed = true) :
      DecodesBy w (decodeWrite w i)
  | read (i : Reg → Instr) (op : opField w = 0x03)
      (field : mustBeZeroClear w = true ↔ immField w = 0) (legal : ∀ r, (i r).wellFormed = true) :
      DecodesBy w (decodeRead w i)

/-- Every word decodes by the format of its opcode, or its opcode is unassigned. -/
theorem decode_decodesBy (w : Word) : DecodesBy w (decode w) := by
  have value {k : Nat} (op : (opField w).toNat = k) : opField w = BitVec.ofNat 8 k := by
    rw [← op, BitVec.ofNat_toNat, BitVec.setWidth_eq]
  unfold decode
  split
  case h_1 op | h_5 op | h_8 op | h_12 op | h_13 op | h_14 op | h_15 op | h_16 op | h_17 op |
      h_18 op | h_19 op | h_20 op | h_21 op | h_23 op | h_24 op | h_25 op | h_26 op =>
    exact .formatN _ (by rw [value op]; decide) (by simp [mustBeZeroClear, op]) rfl
  case h_9 op | h_10 op | h_11 op | h_22 op =>
    exact .formatI _ (by rw [value op]; decide) (by simp [mustBeZeroClear, op, aField]) fun _ => rfl
  case h_6 op | h_7 op =>
    exact .formatS _ (by rw [value op]; decide) (by simp [mustBeZeroClear, op]) fun _ => rfl
  case h_2 op | h_3 op =>
    exact .write _ (by rw [value op]; decide) (by simp [mustBeZeroClear, op])
      fun r _ writable => by simp [Instr.wellFormed, writable]
  case h_4 op =>
    exact .read _ (value op) (by simp [mustBeZeroClear, op, immField]) fun _ => rfl
  case h_27 => exact .unassigned (by simp_all [opcodeAssigned])

/-! ## The register a word names -/

theorem namesRegister_eq (w : Word) : namesRegister w = (Reg.ofIndex (aField w)).isSome := by
  rw [namesRegister, Reg.ofIndex, Bool.eq_iff_iff, List.any_eq_true, List.find?_isSome]

/-- No two registers share an index, so a word names an `RO` register exactly when its register is
one. -/
theorem namesReadOnly_of_ofIndex {w : Word} {r : Reg} (named : Reg.ofIndex (aField w) = some r) :
    namesReadOnly w = r.readOnly := by
  have only {q : Reg} (same : q.index = aField w) : q = r := by
    rw [← same, Reg.ofIndex_index] at named
    exact Option.some.inj named
  rw [namesReadOnly, Bool.eq_iff_iff, List.any_eq_true]
  constructor
  · rintro ⟨q, -, holds⟩
    obtain ⟨same, readOnly⟩ : q.index = aField w ∧ q.readOnly = true := by simpa using holds
    exact only same ▸ readOnly
  · intro readOnly
    exact ⟨r, r.mem_all, by simp [Reg.index_of_ofIndex named, readOnly]⟩

/-! ## What the decoder accepts and refuses -/

/-- The refusal of a word by 30_encoding.md R89, steps 2 to 5 in that order. -/
def refusal (w : Word) : Option DecodeError :=
  if opcodeAssigned (opField w) = false then some .unassignedOpcode
  else if mustBeZeroClear w = false then some .mustBeZero
  else if (opField w = 0x01 ∨ opField w = 0x02 ∨ opField w = 0x03) ∧ namesRegister w = false then
    some .noSuchRegister
  else if (opField w = 0x01 ∨ opField w = 0x02) ∧ namesReadOnly w = true then some .readOnlyRegister
  else none

theorem refusal_of_takesNoRegister {w : Word} (op : takesNoRegister (opField w)) :
    refusal w = if mustBeZeroClear w = false then some .mustBeZero else none := by
  obtain ⟨assigned, noR⟩ := op
  have noWrite : ¬ (opField w = 0x01 ∨ opField w = 0x02) := fun h => noR (or_assoc.1 (.inl h))
  simp only [refusal, assigned, noR, noWrite, false_and, if_false, reduceCtorEq]

theorem refusal_of_write {w : Word} (op : opField w = 0x01 ∨ opField w = 0x02)
    (field : mustBeZeroClear w = true) :
    refusal w = if namesRegister w = false then some .noSuchRegister
      else if namesReadOnly w = true then some .readOnlyRegister else none := by
  rcases op with op | op <;> simp [refusal, op, field, opcodeAssigned]

theorem refusal_of_read {w : Word} (op : opField w = 0x03) :
    refusal w = if mustBeZeroClear w = false then some .mustBeZero
      else if namesRegister w = false then some .noSuchRegister else none := by
  simp [refusal, op, opcodeAssigned]

/-- `d` is the refusal of the word by R89, or a well-formed command where R89 refuses nothing. -/
def FollowsRefusal (w : Word) (d : Except DecodeError Instr) : Prop :=
  (∃ e, d = .error e ∧ refusal w = some e) ∨
  ∃ i, d = .ok i ∧ i.wellFormed = true ∧ refusal w = none

/-- Where no register is named, only the must-be-zero field `P` is tested. -/
theorem followsRefusal_of_takesNoRegister {w : Word} {P : Prop} [Decidable P] {i : Instr}
    (op : takesNoRegister (opField w)) (field : mustBeZeroClear w = true ↔ P)
    (legal : i.wellFormed = true) :
    FollowsRefusal w (if P then .ok i else .error .mustBeZero) := by
  by_cases zero : P
  · exact .inr ⟨i, if_pos zero, legal, by simp [refusal_of_takesNoRegister op, field.2 zero]⟩
  · exact .inl ⟨_, if_neg zero, by simp [refusal_of_takesNoRegister op, mt field.1 zero]⟩

theorem followsRefusal_decodeWrite {w : Word} {i : Reg → BitVec 16 → Instr}
    (op : opField w = 0x01 ∨ opField w = 0x02) (field : mustBeZeroClear w = true)
    (legal : ∀ r imm, r.readOnly = false → (i r imm).wellFormed = true) :
    FollowsRefusal w (decodeWrite w i) := by
  have reason := refusal_of_write op field
  rw [namesRegister_eq] at reason
  unfold decodeWrite
  split
  · next unnamed => exact .inl ⟨_, rfl, by simp [reason, unnamed]⟩
  · next r named =>
    rw [namesReadOnly_of_ofIndex named] at reason
    split
    · next readOnly => exact .inl ⟨_, rfl, by simp [reason, named, readOnly]⟩
    · next writable =>
      rw [Bool.not_eq_true] at writable
      exact .inr ⟨_, rfl, legal _ _ writable, by simp [reason, named, writable]⟩

theorem followsRefusal_decodeRead {w : Word} {i : Reg → Instr} (op : opField w = 0x03)
    (field : mustBeZeroClear w = true ↔ immField w = 0) (legal : ∀ r, (i r).wellFormed = true) :
    FollowsRefusal w (decodeRead w i) := by
  have reason := refusal_of_read op
  rw [namesRegister_eq] at reason
  unfold decodeRead
  split
  · next zero =>
    split
    · next unnamed => exact .inl ⟨_, rfl, by simp [reason, field.2 zero, unnamed]⟩
    · next r named => exact .inr ⟨_, rfl, legal r, by simp [reason, field.2 zero, named]⟩
  · next nonzero => exact .inl ⟨_, rfl, by simp [reason, mt field.1 nonzero]⟩

/-- The decoder refuses and accepts as R89 says. -/
theorem decode_followsRefusal (w : Word) : FollowsRefusal w (decode w) := by
  have decoded := decode_decodesBy w
  generalize decode w = d at decoded
  cases decoded with
  | unassigned op => exact .inl ⟨_, rfl, if_pos op⟩
  | formatN i op field legal => exact followsRefusal_of_takesNoRegister op field legal
  | formatI i op field legal => exact followsRefusal_of_takesNoRegister op field (legal _)
  | formatS i op field legal => exact followsRefusal_of_takesNoRegister op field (legal _)
  | write i op field legal => exact followsRefusal_decodeWrite op field legal
  | read i op field legal => exact followsRefusal_decodeRead op field legal

theorem decode_of_refusal {w : Word} {e : DecodeError} (h : refusal w = some e) :
    decode w = .error e := by
  rcases decode_followsRefusal w with ⟨e', refused, reason⟩ | ⟨i, -, -, accepted⟩
  · rw [refused, Option.some.inj (reason.symm.trans h)]
  · cases accepted.symm.trans h

theorem decode_of_no_refusal {w : Word} (h : refusal w = none) :
    ∃ i, decode w = .ok i ∧ i.wellFormed = true := by
  rcases decode_followsRefusal w with ⟨e, -, reason⟩ | ⟨i, accepted, legal, -⟩
  · cases reason.symm.trans h
  · exact ⟨i, accepted, legal⟩

theorem wellFormed_of_decode {w : Word} {i : Instr} (h : decode w = .ok i) :
    i.wellFormed = true := by
  rcases decode_followsRefusal w with ⟨e, refused, -⟩ | ⟨j, accepted, legal, -⟩
  · cases refused.symm.trans h
  · cases accepted.symm.trans h
    exact legal

/-- Settles O3: the fields of an accepted word are its command's, and a host write is accepted only
of a writable register. -/
theorem encodeOfDecodeReturnsWord : Obligations.EncodeOfDecodeReturnsWord := by
  unfold Obligations.EncodeOfDecodeReturnsWord
  intro w i decoded
  exact ⟨encode_of_decode decoded, wellFormed_of_decode decoded⟩

/-! ## The command port -/

/-- A word is taken while `F = 0`, and `RD`, `GETTEX`, `SRST` always (30_encoding.md R89 step 1). -/
theorem State.drops_eq_false {s : State} {w : Word}
    (h : s.x .status = 0 ∨ opField w = 0x03 ∨ opField w = 0x06 ∨ opField w = 0x07) :
    s.drops w = false := by
  rw [← Bool.not_eq_true, State.drops_iff]
  rintro ⟨faulted, noRd, noGettex, noSrst⟩
  rcases h with clear | rd | gettex | srst
  · omega
  · exact noRd rd
  · exact noGettex gettex
  · exact noSrst srst

section
variable {s : State} {w : Word} {rest : List HostInput} (given : s.host = .command w :: rest)
include given

theorem step_of_drops (dropped : s.drops w = true) : step s = .next { s with host := rest } := by
  have accepted : State.accept { s with host := rest } w = .settle { s with host := rest } :=
    if_pos dropped
  rw [step_command given, accepted]

/-- A word the decoder refuses leaves the record of its fault, with the word as its information, and
nothing else. -/
theorem step_of_decode_error {e : DecodeError} (taken : s.drops w = false)
    (refused : decode w = .error e) :
    ∃ t, step s = .next t ∧ RecordsFault (rejectCause e) w.toNat { s with host := rest } t := by
  refine ⟨_, ?_, State.recordFault_records _ _ _⟩
  have dropless : State.drops { s with host := rest } w = false := taken
  rw [step_command given, State.accept, dropless, refused]
  rfl

theorem step_of_decode_ok {i : Instr} (taken : s.drops w = false) (decoded : decode w = .ok i) :
    step s = exec i { s with host := rest } := by
  have dropless : State.drops { s with host := rest } w = false := taken
  rw [step_command given, State.accept, dropless, decoded]
  rfl

end

/-- Settles O1: the port neither drops the word nor refuses it. -/
theorem stepRunsDecodedCommand : Obligations.StepRunsDecodedCommand := by
  unfold Obligations.StepRunsDecodedCommand
  intro s w rest i given taken decoded
  exact step_of_decode_ok given (State.drops_eq_false taken) decoded

/-- Settles O5: the port drops the word or takes it, and a word it takes is refused for the first
reason of R89 that applies, or performed. -/
theorem commandPortFollowsDecodeOrder : Obligations.CommandPortFollowsDecodeOrder := by
  unfold Obligations.CommandPortFollowsDecodeOrder
  intro s w rest given t0 op
  split_ifs with drop unassigned nonzero noRegister readOnly
  · exact step_of_drops given ((s.drops_iff w).2 drop)
  all_goals
    have taken : s.drops w = false := by rwa [← Bool.not_eq_true, State.drops_iff]
  · have refused : refusal w = some .unassignedOpcode := if_pos unassigned
    exact step_of_decode_error given taken (decode_of_refusal refused)
  · have refused : refusal w = some .mustBeZero := by
      rw [refusal, if_neg unassigned, if_pos nonzero]
    exact step_of_decode_error given taken (decode_of_refusal refused)
  · have refused : refusal w = some .noSuchRegister := by
      rw [refusal, if_neg unassigned, if_neg nonzero, if_pos noRegister]
    exact step_of_decode_error given taken (decode_of_refusal refused)
  · have refused : refusal w = some .readOnlyRegister := by
      rw [refusal, if_neg unassigned, if_neg nonzero, if_neg noRegister, if_pos readOnly]
    exact step_of_decode_error given taken (decode_of_refusal refused)
  · have unrefused : refusal w = none := by
      rw [refusal, if_neg unassigned, if_neg nonzero, if_neg noRegister, if_neg readOnly]
    obtain ⟨i, decoded, legal⟩ := decode_of_no_refusal unrefused
    exact ⟨i, legal, encode_of_decode decoded, step_of_decode_ok given taken decoded⟩

/-! ## The draw port -/

/-- The header of a draw event: the kind in the top four bits, the colour in bit 0 (30_encoding.md
R95). -/
theorem ofInt_header (k : Nat) (c : Bool) :
    BitVec.ofInt 32 ((k * 2 ^ 28 : Nat) + bit01 c) = BitVec.ofNat 32 (k * 2 ^ 28 + c.toNat) := by
  have colour : bit01 c = (c.toNat : Int) := by cases c <;> rfl
  rw [colour, ← Nat.cast_add, BitVec.ofInt_natCast]

/-- Settles O16: an argument of the signed 32-bit range is read back from its word. -/
theorem drawEventPacksAsFiveWords : Obligations.DrawEventPacksAsFiveWords := by
  unfold Obligations.DrawEventPacksAsFiveWords
  intro x y h x1 y1 c hx hy hh hx1 hy1 header
  have signed {v : Int} (range : -2 ^ 31 ≤ v ∧ v < 2 ^ 31) : (BitVec.ofInt 32 v).toInt = v :=
    BitVec.toInt_ofInt_eq_self (by decide) range.1 range.2
  have head (k : Nat) : some (BitVec.ofInt 32 ((k * 2 ^ 28 : Nat) + bit01 c)) = some (header k) :=
    congrArg some (ofInt_header k c)
  refine ⟨⟨head 1, ?_⟩, ⟨head 2, ?_⟩, ⟨head 3, ?_⟩⟩
  · simp [DrawEvent.words, signed hx, signed hy]
  · simp [DrawEvent.words, signed hx, signed hy, signed hh]
  · simp [DrawEvent.words, signed hx, signed hy, signed hx1, signed hy1]

end Sys2Proof.Machine

/-! The trigonometric ROM and the normalisation of an angle (40_trig_rom.md): the symmetries of the
two tables, the lookups, `NORM`. -/

namespace Sys2Proof.Machine

/-! ## The contract of the tables -/

/-- The 16-scale cosine is even (40_trig_rom.md R108 a). -/
theorem c16_reflect : ∀ a : Fin 360, c16 a = c16 ((360 - a) % 360) := by decide +kernel

/-- Half a turn negates the 16-scale cosine (40_trig_rom.md R108 b). -/
theorem c16_halfTurn : ∀ a : Fin 360, c16 a = -c16 ((a + 180) % 360) := by decide +kernel

/-- The supplement negates the 16-scale cosine: it is the reflected angle half a turn on
(40_trig_rom.md R108 c). -/
theorem c16_supplement (a : Fin 360) : c16 a = -c16 ((180 - a) % 360) := by
  obtain ⟨r, mirrored⟩ : ∃ r : Fin 360, (r : Int) = (360 - a) % 360 :=
    ⟨⟨(360 - a) % 360, Nat.mod_lt _ (by decide)⟩, by dsimp only; omega⟩
  have turned : ((r : Int) + 180) % 360 = (180 - a) % 360 := by omega
  rw [c16_reflect a, ← mirrored, c16_halfTurn r, turned]

/-- The 16-scale cosine never rises up to 180 degrees (40_trig_rom.md R108 d). -/
theorem c16_falls : ∀ a : Fin 180, c16 (a + 1) ≤ c16 a := by decide +kernel

/-- From 180 degrees on it never falls, being the negated first half (40_trig_rom.md R108 d). -/
theorem c16_rises (a : Fin 179) : c16 (a + 180) ≤ c16 (a + 181) := by
  have negated {k : Nat} (inside : k < 180) : c16 ((k : Int) + 180) = -c16 k := by
    have turn := c16_halfTurn ⟨k, by omega⟩
    rw [Int.emod_eq_of_lt (by omega) (by dsimp only; omega)] at turn
    exact (neg_eq_iff_eq_neg.mpr turn).symm
  have next : (a : Int) + 181 = ((a + 1 : Nat) : Int) + 180 := by omega
  rw [next, negated (by omega), negated (by omega), neg_le_neg_iff]
  exact_mod_cast c16_falls ⟨a, by omega⟩

/-- The 128-scale cosine never rises over its quadrant (40_trig_rom.md R108 e). -/
theorem c128_falls : ∀ a : Fin 90, c128 (a + 1) ≤ c128 a := by decide +kernel

/-- The squares of the 128-scale cosine and sine add up to 128² within the rounding
(40_trig_rom.md R108 g). -/
theorem c128_squares : ∀ a : Fin 91, -131 ≤ c128 a ^ 2 + c128 (90 - a) ^ 2 - 128 ^ 2 ∧
    c128 a ^ 2 + c128 (90 - a) ^ 2 - 128 ^ 2 ≤ 178 := by decide +kernel

/-- The transcriber's sums (40_trig_rom.md R101, R102). -/
theorem rom_sums : ((List.range 360).map fun a => c16 a).sum = 0 ∧
    ((List.range 360).map fun a => (c16 a).natAbs).sum = 3676 ∧
    ((List.range 91).map fun a => c128 a).sum = 7400 := by decide +kernel

/-- Settles O29: the tables give evenness, the half turn, the fall and the bounds by their entries;
the supplement and the rise follow from the half turn. -/
theorem romTablesAreSymmetricAndMonotone : Obligations.RomTablesAreSymmetricAndMonotone :=
  ⟨fun a => ⟨c16_reflect a, c16_halfTurn a, c16_supplement a⟩, c16_falls, c16_rises, c128_falls,
    c128_squares, rom_sums⟩

/-! ## The lookups -/

/-- From 90 degrees on the sine is the cosine 90 degrees back (40_trig_rom.md R103). -/
theorem s16_of_ge {a : Int} (above : 90 ≤ a) (top : a ≤ 359) : s16 a = c16 (a - 90) := by
  rw [s16, show (a - 90 + 360) % 360 = a - 90 by omega]

/-- Below 90 degrees the sine is the cosine 270 degrees on (40_trig_rom.md R103). -/
theorem s16_of_lt {a : Int} (nonneg : 0 ≤ a) (below : a < 90) : s16 a = c16 (a + 270) := by
  rw [s16, show (a - 90 + 360) % 360 = a + 270 by omega]

theorem s16_range (a : Int) : -16 ≤ s16 a ∧ s16 a ≤ 16 :=
  c16_range (Int.emod_nonneg _ (by decide)) (Int.emod_lt_of_pos _ (by decide))

/-- An entry of either table is inside the signed 16-bit `TRIG` (10_state.md R35). -/
theorem wrap_trig {v : Int} (low : -16 ≤ v) (high : v ≤ 128) : Reg.trig.wrap v = v :=
  Reg.wrap_signed rfl (by simp only [Reg.width]; omega) (by simp only [Reg.width]; omega)

/-- What a command does that looks an angle up: the entry goes to `TRIG`, or `TrigIndex` outside the
table (40_trig_rom.md R104 to R106). -/
theorem exec_of_lookup {i : Instr} {s : State} {a last : Int} {rom : Int → Int}
    (meaning : exec i s = (s.lookup a last rom).outcome)
    (entries : 0 ≤ a → a ≤ last → -16 ≤ rom a ∧ rom a ≤ 128) :
    if a < 0 ∨ a > last then Raises i s .trigIndex a
    else ∃ t, exec i s = .next t ∧ t.x .trig = rom a ∧ ChangesOnly [.trig] s t := by
  split
  next outside =>
    rw [s.lookup_outside outside] at meaning
    exact ⟨_, meaning, s.recordFault_records _ _⟩
  next inside =>
    obtain ⟨nonneg, top⟩ : 0 ≤ a ∧ a ≤ last := by omega
    obtain ⟨low, high⟩ := entries nonneg top
    rw [s.lookup_inside nonneg top] at meaning
    exact ⟨_, meaning, (s.x_set_same _ _).trans (wrap_trig low high),
      (ChangesOnly.refl _ s).set (by simp) _⟩

/-- The word of a command of format I: `base` is its opcode's part (30_encoding.md R84). -/
theorem encode_toNat_immediate {i : Instr} {imm : BitVec 16} {base : Nat} (a : i.aOperand = 0)
    (low : i.immOperand = imm) (high : i.opcode.toNat * 2 ^ 24 = base) :
    (encode i).toNat = base + imm.toNat := by
  rw [encode_toNat a, low, high]

/-- Settles O25: a lookup in the 16-scale table. -/
theorem cos16LooksUpCosine : Obligations.Cos16LooksUpCosine := by
  unfold Obligations.Cos16LooksUpCosine
  intro imm s
  refine ⟨encode_toNat_immediate rfl rfl (by simp [Instr.opcode]),
    exec_of_lookup rfl fun nonneg top => ?_⟩
  have range := c16_range nonneg (by omega)
  omega

/-- Settles O26: a lookup of the sine, which is the cosine 90 degrees back or 270 on. -/
theorem sin16LooksUpShiftedCosine : Obligations.Sin16LooksUpShiftedCosine := by
  unfold Obligations.Sin16LooksUpShiftedCosine
  intro imm s
  refine ⟨encode_toNat_immediate rfl rfl (by simp [Instr.opcode]), ?_⟩
  have entries := s16_range imm.toInt
  have looked := exec_of_lookup (i := .sin16 imm) (s := s) (a := imm.toInt) (last := 359) rfl
    fun _ _ => ⟨entries.1, by omega⟩
  split at looked
  next outside => rwa [if_pos outside]
  next inside =>
    rw [if_neg inside]
    obtain ⟨t, next, entry, frame⟩ := looked
    exact ⟨t, next, fun above => entry.trans (s16_of_ge above (by omega)),
      fun below => entry.trans (s16_of_lt (by omega) below), frame⟩

/-- Settles O27: a lookup in the 128-scale table. -/
theorem cos128LooksUpCosine : Obligations.Cos128LooksUpCosine := by
  unfold Obligations.Cos128LooksUpCosine
  intro imm s
  refine ⟨encode_toNat_immediate rfl rfl (by simp [Instr.opcode]),
    exec_of_lookup rfl fun nonneg top => ?_⟩
  obtain ⟨low, high, -⟩ := c128_facts nonneg top
  omega

/-! ## Normalisation -/

/-- Normalising takes off a multiple of 360 (40_trig_rom.md R109). -/
theorem dvd_norm360_sub (a : Int) : 360 ∣ norm360 a - a := by unfold norm360; omega

/-- `NORM` stores the floored remainder of `ANGLE` whole, 9 bits being enough
(40_trig_rom.md R107). -/
theorem doNorm_angn (s : State) : (doNorm s).state.x .angn = norm360 (s.x .angle) := by
  obtain ⟨nonneg, below⟩ := norm360_range (s.x .angle)
  exact (s.x_set_same _ _).trans (Reg.wrap_unsigned rfl nonneg (by simp only [Reg.width]; omega))

/-- Settles O28: what `ANGN` takes is the floored remainder. -/
theorem normFindsEquivalentAngle : Obligations.NormFindsEquivalentAngle := by
  unfold Obligations.NormFindsEquivalentAngle
  refine ⟨by decide, fun s => ⟨(doNorm s).state, rfl, ?_⟩⟩
  obtain ⟨nonneg, below⟩ := norm360_range (s.x .angle)
  rw [doNorm_angn]
  exact ⟨nonneg, below, dvd_norm360_sub _, doNorm_frame s⟩

end Sys2Proof.Machine

/-! The angle decomposition (41_angle_decomp.md): where a normalised angle lies, what `DECOMP` writes
for it, and when it faults. -/

namespace Sys2Proof.Machine

/-! ## The quadrants and the reflected index -/

/-- Up to 90 degrees: toward +x and +y (41_angle_decomp.md R122). -/
theorem quadrant_first {a : Int} (top : a ≤ 90) :
    quadrant a = 0 ∧ reflected a = a ∧ stepsNegX (quadrant a) = false ∧
      stepsNegY (quadrant a) = false := by
  have quad : quadrant a = 0 := if_pos top
  exact ⟨quad, if_pos top, by rw [quad]; rfl, by rw [quad]; rfl⟩

/-- From 91 to 180 degrees: toward -x and +y (41_angle_decomp.md R122). -/
theorem quadrant_second {a : Int} (low : 90 < a) (top : a ≤ 180) :
    quadrant a = 1 ∧ reflected a = 180 - a ∧ stepsNegX (quadrant a) = true ∧
      stepsNegY (quadrant a) = false := by
  have quad : quadrant a = 1 := by rw [quadrant, if_neg low.not_ge, if_pos top]
  have index : reflected a = 180 - a := by rw [reflected, if_neg low.not_ge, if_pos top]
  exact ⟨quad, index, by rw [quad]; rfl, by rw [quad]; rfl⟩

/-- From 181 to 269 degrees: toward -x and -y (41_angle_decomp.md R122). -/
theorem quadrant_third {a : Int} (low : 180 < a) (top : a < 270) :
    quadrant a = 2 ∧ reflected a = a - 180 ∧ stepsNegX (quadrant a) = true ∧
      stepsNegY (quadrant a) = true := by
  have past : ¬ a ≤ 90 := by omega
  have quad : quadrant a = 2 := by rw [quadrant, if_neg past, if_neg low.not_ge, if_pos top]
  have index : reflected a = a - 180 := by
    rw [reflected, if_neg past, if_neg low.not_ge, if_pos top]
  exact ⟨quad, index, by rw [quad]; rfl, by rw [quad]; rfl⟩

/-- From 270 degrees on: toward +x and -y (41_angle_decomp.md R122). -/
theorem quadrant_fourth {a : Int} (low : 270 ≤ a) :
    quadrant a = 3 ∧ reflected a = 360 - a ∧ stepsNegX (quadrant a) = false ∧
      stepsNegY (quadrant a) = true := by
  have past : ¬ a ≤ 90 := by omega
  have past' : ¬ a ≤ 180 := by omega
  have quad : quadrant a = 3 := by rw [quadrant, if_neg past, if_neg past', if_neg low.not_gt]
  have index : reflected a = 360 - a := by
    rw [reflected, if_neg past, if_neg past', if_neg low.not_gt]
  exact ⟨quad, index, by rw [quad]; rfl, by rw [quad]; rfl⟩

theorem quadrant_range (a : Int) : 0 ≤ quadrant a ∧ quadrant a < 4 := by
  unfold quadrant; split_ifs <;> omega

/-- The reflected index is at the top of the table exactly on the y axis (41_angle_decomp.md R123). -/
theorem reflected_eq_ninety_iff (a : Int) : reflected a = 90 ↔ a = 90 ∨ a = 270 := by
  unfold reflected; split_ifs <;> omega

/-- The reflected index is 0 exactly on the x axis (41_angle_decomp.md R123). -/
theorem reflected_eq_zero_iff {a : Int} (top : a ≤ 359) : reflected a = 0 ↔ a = 0 ∨ a = 180 := by
  unfold reflected; split_ifs <;> omega

/-- The magnitude along x vanishes exactly on the y axis. -/
theorem c128_reflected_eq_zero_iff {a : Int} (nonneg : 0 ≤ a) (top : a ≤ 359) :
    c128 (reflected a) = 0 ↔ a = 90 ∨ a = 270 := by
  obtain ⟨low, high⟩ := reflected_range nonneg top
  obtain ⟨-, -, zero, -⟩ := c128_facts low high
  rw [zero, reflected_eq_ninety_iff]

/-- The magnitude along y vanishes exactly on the x axis. -/
theorem c128_complement_eq_zero_iff {a : Int} (nonneg : 0 ≤ a) (top : a ≤ 359) :
    c128 (90 - reflected a) = 0 ↔ a = 0 ∨ a = 180 := by
  obtain ⟨low, high⟩ := reflected_range nonneg top
  obtain ⟨-, -, zero, -⟩ := c128_facts (a := 90 - reflected a) (by omega) (by omega)
  rw [zero, ← reflected_eq_zero_iff top]
  omega

/-! ## What `DECOMP` writes -/

/-- A scaled tangent as a 32-bit register holds it (41_angle_decomp.md R124). -/
theorem wrap_scaledTan {r : Reg} (unsigned : r.signed = false) (wide : r.width = 32) (c : Config)
    (num den : Int) :
    r.wrap (scaledTan c num den) = if den = 0 then 0 else num * c.bs / den % 2 ^ 32 := by
  rw [Reg.wrap_unsigned_eq unsigned, wide, scaledTan, shl_eq_mul, ← bs_eq_two_pow]
  split <;> rfl

theorem State.writeDecomp_quad (s : State) (a : Int) : (s.writeDecomp a).x .quad = quadrant a := by
  obtain ⟨low, high⟩ := quadrant_range a
  simpa [State.writeDecomp] using Reg.wrap_unsigned (r := .quad) rfl low high

/-- The magnitudes are table entries, which fit in 8 bits. -/
theorem State.writeDecomp_magnitudes (s : State) {a : Int} (nonneg : 0 ≤ a) (top : a ≤ 359) :
    (s.writeDecomp a).x .cosm = c128 (reflected a) ∧
    (s.writeDecomp a).x .sinm = c128 (90 - reflected a) := by
  obtain ⟨low, high⟩ := reflected_range nonneg top
  obtain ⟨cos0, cos1, -⟩ := c128_facts low high
  obtain ⟨sin0, sin1, -⟩ := c128_facts (a := 90 - reflected a) (by omega) (by omega)
  have cosm := Reg.wrap_unsigned (r := .cosm) rfl cos0 (by simp only [Reg.width]; omega)
  have sinm := Reg.wrap_unsigned (r := .sinm) rfl sin0 (by simp only [Reg.width]; omega)
  simpa [State.writeDecomp] using And.intro cosm sinm

theorem State.writeDecomp_tangents (s : State) (a : Int) :
    (s.writeDecomp a).x .tanv =
      Reg.tanv.wrap (scaledTan s.cfg (c128 (90 - reflected a)) (c128 (reflected a))) ∧
    (s.writeDecomp a).x .tanh =
      Reg.tanh.wrap (scaledTan s.cfg (c128 (reflected a)) (c128 (90 - reflected a))) := by
  simp [State.writeDecomp]

/-- `DFLAGS` is written last, so its bits are the packed flags (41_angle_decomp.md R121). -/
theorem State.writeDecomp_flags (s : State) (a : Int) :
    (s.writeDecomp a).sxn = stepsNegX (quadrant a) ∧
    (s.writeDecomp a).syn = stepsNegY (quadrant a) ∧
    (s.writeDecomp a).orv = stepsNegX (quadrant a) ∧
    (s.writeDecomp a).orh = !stepsNegY (quadrant a) ∧
    (s.writeDecomp a).skipv = (c128 (reflected a) == 0) ∧
    (s.writeDecomp a).skiph = (c128 (90 - reflected a) == 0) := by
  obtain ⟨low, high, bits⟩ := packDflags_bits (stepsNegX (quadrant a)) (stepsNegY (quadrant a))
    (c128 (reflected a) == 0) (c128 (90 - reflected a) == 0)
  simpa only [State.sxn, State.syn, State.orv, State.orh, State.skipv, State.skiph,
    State.writeDecomp, State.dflag_set _ _ low high] using bits

/-! ## When `DECOMP` completes -/

theorem exec_decomp_of_le {s : State} (top : s.x .angn ≤ 359) :
    exec .decomp s = .next (s.writeDecomp (s.x .angn)) :=
  congrArg Flow.outcome (if_neg top.not_gt : doDecomp s = _)

theorem exec_decomp_of_gt {s : State} (above : s.x .angn > 359) :
    exec .decomp s = .next (s.recordFault .trigIndex (s.x .angn)) :=
  congrArg Flow.outcome (if_pos above : doDecomp s = _)

/-- Settles O30: the angle's quadrant fixes the reflected index and the steps; the other registers and
flags follow from the index in every quadrant alike. -/
theorem decompDecomposesTheAngle : Obligations.DecompDecomposesTheAngle := by
  unfold Obligations.DecompDecomposesTheAngle
  refine ⟨by decide, fun s => ?_⟩
  split
  next above => exact ⟨_, exec_decomp_of_gt above, s.recordFault_records _ _⟩
  next inside =>
    have top : s.x .angn ≤ 359 := by omega
    have nonneg := (s.x_range_unsigned (r := .angn) rfl).1
    obtain ⟨cosm, sinm⟩ := s.writeDecomp_magnitudes nonneg top
    obtain ⟨tanv, tanh⟩ := s.writeDecomp_tangents (s.x .angn)
    obtain ⟨sxn, syn, orv, orh, skipv, skiph⟩ := s.writeDecomp_flags (s.x .angn)
    refine ⟨_, reflected (s.x .angn), exec_decomp_of_le top, ?_, ?_, ?_, ?_, cosm, sinm,
      tanv.trans (wrap_scaledTan rfl rfl _ _ _), tanh.trans (wrap_scaledTan rfl rfl _ _ _),
      orv.trans sxn.symm, by rw [orh, syn], skipv, skiph, s.writeDecomp_frame _⟩
    all_goals rw [s.writeDecomp_quad, sxn, syn]
    · exact quadrant_first
    · exact fun ⟨low, high⟩ => quadrant_second low high
    · exact fun ⟨low, high⟩ => quadrant_third low high
    · exact quadrant_fourth

/-- Settles O31: a table entry vanishes only at index 90, which the reflected index and its complement
reach only on the axes, and never together. -/
theorem magnitudesVanishAtCardinalAngles : Obligations.MagnitudesVanishAtCardinalAngles := by
  unfold Obligations.MagnitudesVanishAtCardinalAngles
  intro s top
  have nonneg := (s.x_range_unsigned (r := .angn) rfl).1
  obtain ⟨cosm, sinm⟩ := s.writeDecomp_magnitudes nonneg top
  obtain ⟨⟨cosHigh, -⟩, ⟨sinHigh, -⟩, notBoth, -⟩ := s.writeDecomp_range nonneg top
  exact ⟨_, exec_decomp_of_le top, cosm, sinm, (State.x_range_unsigned _ rfl).1, cosHigh,
    (State.x_range_unsigned _ rfl).1, sinHigh,
    by rw [cosm, c128_reflected_eq_zero_iff nonneg top],
    by rw [sinm, c128_complement_eq_zero_iff nonneg top], notBoth⟩

end Sys2Proof.Machine

/-! The grid-line searches (42_dda_search.md): where a search starts and when a crossing is in bounds,
what each search answers, the choice of the hit, and `CAST` over the three. -/

namespace Sys2Proof.Machine

/-! ## Crossings -/

/-- The first grid line is the one at or before the position, or the next (42_dda_search.md R137). -/
theorem firstLine_eq (c : Config) {p : Int} (nonneg : 0 ≤ p) (neg : Bool) :
    firstLine c p neg = if neg then p - p % c.bs else p - p % c.bs + c.bs := by
  simp only [firstLine, bs_eq_two_pow, andInt_mask nonneg]

/-- Settles O32: the remainder by the block size is at least 0 and below the block size. -/
theorem firstGridLineIsNearestAhead : Obligations.FirstGridLineIsNearestAhead := by
  unfold Obligations.FirstGridLineIsNearestAhead
  intro c p nonneg
  have size := bs_pos c
  have low := Int.emod_nonneg p size.ne'
  have high := Int.emod_lt_of_pos p size
  have behind : c.bs ∣ p - p % c.bs := Int.dvd_self_sub_emod
  rw [firstLine_eq c nonneg, firstLine_eq c nonneg, if_neg Bool.false_ne_true, if_pos rfl]
  exact ⟨behind.add (dvd_refl _), by omega, by omega, behind, by omega, by omega⟩

/-- A cell is in the map exactly when both indices are (42_dda_search.md R136). -/
theorem State.cell_ne_out_iff (s : State) (col row : Int) :
    s.cell col row ≠ .ok none ↔
      (0 ≤ col ∧ col < s.x .mapw) ∧ 0 ≤ row ∧ row < s.x .maph := by
  rw [ne_eq, s.cell_out_iff]
  omega

/-- The block of a coordinate is one of the first `n` exactly when the coordinate is in their span. -/
theorem block_in_iff (c : Config) (v n : Int) :
    0 ≤ asr v c.bsLog2 ∧ asr v c.bsLog2 < n ↔ 0 ≤ v ∧ v < n * c.bs := by
  have size := bs_pos c
  rw [asr_eq_ediv, ← bs_eq_two_pow, Int.ediv_nonneg_iff_of_pos size, Int.ediv_lt_iff_lt_mul size]

/-- On a grid line going positive, the block examined starts at the line. -/
theorem lineBlock_positive_in_iff (c : Config) (k n : Int) :
    0 ≤ asr (k * c.bs) c.bsLog2 + farSide false ∧ asr (k * c.bs) c.bsLog2 + farSide false < n ↔
      0 ≤ k * c.bs ∧ k * c.bs < n * c.bs := by
  simpa [farSide] using block_in_iff c (k * c.bs) n

/-- On a grid line going negative, the block examined ends at the line. -/
theorem lineBlock_negative_in_iff (c : Config) (k n : Int) :
    0 ≤ asr (k * c.bs) c.bsLog2 + farSide true ∧ asr (k * c.bs) c.bsLog2 + farSide true < n ↔
      c.bs ≤ k * c.bs ∧ k * c.bs ≤ n * c.bs := by
  have size := bs_pos c
  have block : asr (k * c.bs) c.bsLog2 = k := by
    rw [asr_eq_ediv, ← bs_eq_two_pow, Int.mul_ediv_cancel _ size.ne']
  rw [block, le_mul_iff_one_le_left size, mul_le_mul_iff_left₀ size]
  simp only [farSide, if_true]
  omega

/-- With legal parameters an extent that agrees with its dimension is their exact product: 255 blocks
of at most 256 units fit in 16 bits (00_scope.md R7). -/
theorem extent_eq {c : Config} (small : c.bsLog2 ≤ 8) {n : Int} (nonneg : 0 ≤ n)
    (width : n < 2 ^ 8) : n * c.bs % 2 ^ 16 = n * c.bs := by
  have size := bs_pos c
  have size8 : c.bs ≤ 2 ^ 8 := by
    rw [bs_eq_two_pow]; exact pow_le_pow_right₀ (by decide) small
  exact Int.emod_eq_of_lt (mul_nonneg nonneg size.le)
    (mul_lt_mul_of_lt_of_le_of_nonneg_of_pos width size8 nonneg (by decide))

/-- The extents in world coordinates (10_state.md R37). -/
theorem State.ExtentsOk.extents_eq {s : State} (agree : s.ExtentsOk) (legal : s.cfg.Legal) :
    s.x .worldw = s.x .mapw * s.cfg.bs ∧ s.x .worldh = s.x .maph * s.cfg.bs := by
  obtain ⟨small, -⟩ := legal
  obtain ⟨width, height⟩ := agree
  obtain ⟨mapw0, mapw1⟩ := s.x_range_unsigned (r := .mapw) rfl
  obtain ⟨maph0, maph1⟩ := s.x_range_unsigned (r := .maph) rfl
  exact ⟨width.trans (extent_eq small mapw0 mapw1), height.trans (extent_eq small maph0 maph1)⟩

/-- Settles O33: along the line's axis the block at or before the line is in the map, along the other
the block of the coordinate. -/
theorem crossingBounds : Obligations.CrossingBounds := by
  unfold Obligations.CrossingBounds
  intro s k v legal agree
  obtain ⟨width, height⟩ := agree.extents_eq legal
  simp only [State.cell_ne_out_iff, lineBlock_positive_in_iff, lineBlock_negative_in_iff,
    block_in_iff, width, height, and_assoc, and_self]

/-! ## What a result register holds -/

/-- A value read from one register is kept by every register that holds its whole range
(10_state.md R21, R22). -/
theorem State.wrap_x_of_fits (s : State) {r r' : Reg}
    (fits : (r'.signed = r.signed ∧ r'.width = r.width) ∨
      (r.signed = false ∧ r.width < r'.width)) : r'.wrap (s.x r) = s.x r := by
  rcases fits with ⟨sign, width⟩ | ⟨unsigned, wider⟩
  · have same : r'.wrap (s.x r) = r.wrap (s.x r) := by simp only [Reg.wrap, sign, width]
    rw [same, s.wrap_x]
  · obtain ⟨nonneg, below⟩ := s.x_range_unsigned unsigned
    have half : (2 : Int) ^ r.width ≤ 2 ^ (r'.width - 1) :=
      pow_le_pow_right₀ (by decide) (by omega)
    have whole : (2 : Int) ^ r.width ≤ 2 ^ r'.width := pow_le_pow_right₀ (by decide) wider.le
    cases sign : r'.signed with
    | false => exact Reg.wrap_unsigned sign nonneg (by omega)
    | true => exact Reg.wrap_signed sign (by omega) (by omega)

/-- A block type is a byte, which an 8-bit register keeps (10_state.md R32, R33). -/
theorem wrap_byte {r : Reg} (unsigned : r.signed = false) (width : r.width = 8) (b : Byte) :
    r.wrap b.toNat = b.toNat :=
  Reg.wrap_unsigned unsigned (Int.natCast_nonneg _) (by rw [width]; exact_mod_cast b.isLt)

/-- A ray length as a 32-bit register holds it (42_dda_search.md R140). -/
theorem wrap_rayLength {r : Reg} (unsigned : r.signed = false) (width : r.width = 32) (d m : Int) :
    r.wrap (rayLength d m) = if m = 0 then 0 else |d| * 128 / m % 2 ^ 32 := by
  rw [Reg.wrap_unsigned_eq unsigned, width, rayLength, absInt, Int.natCast_natAbs]
  split <;> rfl

/-! ## Both searches in one form -/

/-- What a search does, given whether it is skipped, what its walk answers, the ray length of a cursor
and the write of its five result registers (42_dda_search.md R143, R144). -/
def State.search (s : State) (skip : Bool) (walk : Except Word WalkEnd) (len : Int → Int → Int)
    (write : Int → Int → Int → Int → Int → State) : Flow :=
  if skip then .done (write 0 (s.x .worldw) (s.x .px) (s.x .py) 0)
  else
    match walk with
    | .error a => s.raise .memFault a.toNat
    | .ok ⟨cx, cy, none⟩ => .done (write 0 (s.x .worldw) cx cy 0)
    | .ok ⟨cx, cy, some t⟩ => .done (write 1 (len cx cy) cx cy t.toNat)

theorem doVsrch_eq_search (s : State) : doVsrch s =
    s.search s.skipv s.vWalk (fun cx _ => rayLength (cx - s.x .px) (s.x .cosm)) s.writeV := rfl

theorem doHsrch_eq_search (s : State) : doHsrch s =
    s.search s.skiph s.hWalk (fun _ cy => rayLength (cy - s.x .py) (s.x .sinm)) s.writeH := rfl

section
variable (s : State) (len : Int → Int → Int) (write : Int → Int → Int → Int → Int → State)

theorem State.search_skipped (walk : Except Word WalkEnd) :
    s.search true walk len write = .done (write 0 (s.x .worldw) (s.x .px) (s.x .py) 0) := rfl

theorem State.search_out (cx cy : Int) :
    s.search false (.ok ⟨cx, cy, none⟩) len write = .done (write 0 (s.x .worldw) cx cy 0) := rfl

theorem State.search_solid (cx cy : Int) (t : Byte) :
    s.search false (.ok ⟨cx, cy, some t⟩) len write =
      .done (write 1 (len cx cy) cx cy t.toNat) := rfl

end

/-! ## What each search answers -/

/-- A vertical-line search that finds nothing reports the sentinel (42_dda_search.md R141, R143). -/
theorem State.writeV_missed (s : State) (cx cy : Int) :
    let t := s.writeV 0 (s.x .worldw) cx cy 0
    t.x .vfound = 0 ∧ t.x .lenv = s.x .worldw ∧ t.x .vx = Reg.vx.wrap cx ∧
      t.x .vy = Reg.vy.wrap cy ∧ t.x .vtype = 0 ∧
      ChangesOnly [.vfound, .lenv, .vx, .vy, .vtype] s t := by
  obtain ⟨found, length, cursorX, cursorY, type⟩ := s.writeV_results 0 (s.x .worldw) cx cy 0
  exact ⟨found, length.trans (s.wrap_x_of_fits (by decide)), cursorX, cursorY, type,
    s.writeV_frame _ _ _ _ _⟩

/-- The same of a horizontal-line search (42_dda_search.md R141, R144). -/
theorem State.writeH_missed (s : State) (cx cy : Int) :
    let t := s.writeH 0 (s.x .worldw) cx cy 0
    t.x .hfound = 0 ∧ t.x .lenh = s.x .worldw ∧ t.x .hx = Reg.hx.wrap cx ∧
      t.x .hy = Reg.hy.wrap cy ∧ t.x .htype = 0 ∧
      ChangesOnly [.hfound, .lenh, .hx, .hy, .htype] s t := by
  obtain ⟨found, length, cursorX, cursorY, type⟩ := s.writeH_results 0 (s.x .worldw) cx cy 0
  exact ⟨found, length.trans (s.wrap_x_of_fits (by decide)), cursorX, cursorY, type,
    s.writeH_frame _ _ _ _ _⟩

theorem exec_vsrch_skipped {s : State} (skip : s.skipv = true) :
    exec .vsrch s = .next (s.writeV 0 (s.x .worldw) (s.x .px) (s.x .py) 0) := by
  show (doVsrch s).outcome = _
  rw [doVsrch_eq_search, skip, State.search_skipped]
  rfl

theorem exec_hsrch_skipped {s : State} (skip : s.skiph = true) :
    exec .hsrch s = .next (s.writeH 0 (s.x .worldw) (s.x .px) (s.x .py) 0) := by
  show (doHsrch s).outcome = _
  rw [doHsrch_eq_search, skip, State.search_skipped]
  rfl

/-- Settles O34: the walk ends at the first crossing whose cell is not empty, and the search answers by
that cell. -/
theorem vsrchWalksVerticalLines : Obligations.VsrchWalksVerticalLines := by
  unfold Obligations.VsrchWalksVerticalLines
  refine ⟨by decide, fun s skip => ?_, fun s runs => ?_⟩
  · obtain ⟨found, length, cursorX, cursorY, type, frame⟩ := s.writeV_missed (s.x .px) (s.x .py)
    exact ⟨_, exec_vsrch_skipped skip, found, length,
      cursorX.trans (s.wrap_x_of_fits (by decide)), cursorY.trans (s.wrap_x_of_fits (by decide)),
      type, frame⟩
  · obtain ⟨k, bound, passed, stops, walk⟩ := s.vWalk_spec
    have next : exec .vsrch s = (doVsrch s).outcome := rfl
    rw [doVsrch_eq_search, runs, walk] at next
    refine ⟨k, _, bound, next, passed, ?_⟩
    cases met : s.vCell k with
    | error a => exact s.recordFault_records _ _
    | ok cell =>
      cases cell with
      | none => exact s.writeV_missed _ _
      | some b =>
        have solid : b ≠ 0 := fun empty => stops (by rw [met, empty])
        obtain ⟨found, length, cursorX, cursorY, type⟩ := s.writeV_results 1
          (rayLength ((s.vCross k).1 - s.x .px) (s.x .cosm)) (s.vCross k).1 (s.vCross k).2 b.toNat
        exact ⟨solid, found, type.trans (wrap_byte rfl rfl b),
          length.trans (wrap_rayLength rfl rfl _ _), cursorX, cursorY, s.writeV_frame _ _ _ _ _⟩

/-- Settles O35: as the vertical-line search, on the other axis. -/
theorem hsrchWalksHorizontalLines : Obligations.HsrchWalksHorizontalLines := by
  unfold Obligations.HsrchWalksHorizontalLines
  refine ⟨by decide, fun s skip => ?_, fun s runs => ?_⟩
  · obtain ⟨found, length, cursorX, cursorY, type, frame⟩ := s.writeH_missed (s.x .px) (s.x .py)
    exact ⟨_, exec_hsrch_skipped skip, found, length,
      cursorX.trans (s.wrap_x_of_fits (by decide)), cursorY.trans (s.wrap_x_of_fits (by decide)),
      type, frame⟩
  · obtain ⟨k, bound, passed, stops, walk⟩ := s.hWalk_spec
    have next : exec .hsrch s = (doHsrch s).outcome := rfl
    rw [doHsrch_eq_search, runs, walk] at next
    refine ⟨k, _, bound, next, passed, ?_⟩
    cases met : s.hCell k with
    | error a => exact s.recordFault_records _ _
    | ok cell =>
      cases cell with
      | none => exact s.writeH_missed _ _
      | some b =>
        have solid : b ≠ 0 := fun empty => stops (by rw [met, empty])
        obtain ⟨found, length, cursorX, cursorY, type⟩ := s.writeH_results 1
          (rayLength ((s.hCross k).2 - s.x .py) (s.x .sinm)) (s.hCross k).1 (s.hCross k).2 b.toNat
        exact ⟨solid, found, type.trans (wrap_byte rfl rfl b),
          length.trans (wrap_rayLength rfl rfl _ _), cursorX, cursorY, s.writeH_frame _ _ _ _ _⟩

/-! ## The choice of the hit -/

theorem State.bit_eq_true {s : State} {r : Reg} (one : s.x r = 1) : s.bit r = true := by
  simp [State.bit, one]

theorem State.bit_eq_false {s : State} {r : Reg} (zero : s.x r = 0) : s.bit r = false := by
  simp [State.bit, zero]

/-- The horizontal hit is chosen alone, or when it is not longer (42_dda_search.md R145). -/
theorem State.chooseHit_horizontal {s : State} (found : s.x .hfound = 1)
    (nearer : s.x .vfound = 0 ∨ s.x .lenh ≤ s.x .lenv) : s.chooseHit = s.hitH := by
  rw [State.chooseHit, State.bit_eq_true found]
  rcases nearer with alone | nearer
  · rw [State.bit_eq_false alone]; rfl
  · simp [nearer]

/-- The vertical hit is chosen alone, or when it is shorter (42_dda_search.md R145). -/
theorem State.chooseHit_vertical {s : State} (found : s.x .vfound = 1)
    (nearer : s.x .hfound = 0 ∨ s.x .lenv < s.x .lenh) : s.chooseHit = s.hitV := by
  rw [State.chooseHit, State.bit_eq_true found]
  rcases nearer with alone | nearer
  · rw [State.bit_eq_false alone]; rfl
  · simp [nearer.not_ge]

/-- With no hit found there is none (42_dda_search.md R145). -/
theorem State.chooseHit_none {s : State} (noV : s.x .vfound = 0) (noH : s.x .hfound = 0) :
    s.chooseHit = s.noHit := by
  rw [State.chooseHit, State.bit_eq_false noV, State.bit_eq_false noH]
  rfl

/-- The offset inside the block is the same of a register's value and of its stored bits: the block
size divides 2^w (42_dda_search.md R147). -/
theorem State.stored_emod_bs (s : State) {r : Reg} (small : s.cfg.bsLog2 ≤ r.width) :
    (s.stored r : Int) % s.cfg.bs = s.x r % s.cfg.bs := by
  have nonneg : 0 ≤ s.x r % 2 ^ r.width := Int.emod_nonneg _ (by positivity)
  rw [State.stored, Int.toNat_of_nonneg nonneg, bs_eq_two_pow]
  exact Int.emod_emod_of_dvd _ (pow_dvd_pow 2 small)

/-- The sample column: the offset inside the block, reduced, mirrored when flagged
(42_dda_search.md R147). -/
theorem sampleColumn_eq (c : Config) (bits : Nat) (mirror : Bool) :
    sampleColumn c bits mirror =
      let q := bits % c.bs / 2 ^ c.texShift
      if mirror then c.texSize - 1 - q else q := by
  simp only [sampleColumn, asr_eq_ediv, bs_eq_two_pow, andInt_mask (Int.natCast_nonneg bits)]

/-- With legal parameters a texture has at most 256 columns, so `SAMPLE` keeps the sample column. -/
theorem State.wrap_sampleColumn (s : State) (legal : s.cfg.Legal) {r : Reg} (wide : r.width = 32)
    (mirror : Bool) : Reg.sample.wrap (sampleColumn s.cfg (s.stored r) mirror) =
      let q := s.x r % s.cfg.bs / 2 ^ s.cfg.texShift
      if mirror then s.cfg.texSize - 1 - q else q := by
  obtain ⟨small, shift, -⟩ := legal
  obtain ⟨nonneg, inside⟩ := sampleColumn_range shift (s.stored r) mirror
  have size : s.cfg.texSize ≤ 2 ^ 8 := by
    rw [texSize_eq_two_pow shift]; exact pow_le_pow_right₀ (by decide) (by omega)
  rw [Reg.wrap_unsigned (r := .sample) rfl nonneg (inside.trans_le size), sampleColumn_eq,
    s.stored_emod_bs (by omega)]

theorem bit01_eq_one_iff (b : Bool) : bit01 b = 1 ↔ b = true := by cases b <;> decide

/-- The hit registers after a search's hit is chosen: its length, type and cursor whole, its sample
column and its orientation (42_dda_search.md R146, R147). -/
theorem State.writeHit_found (s : State) (side mirror : Bool) {len typ cx cy bits : Reg}
    (length : len.signed = false ∧ len.width = 32) (type : typ.signed = false ∧ typ.width = 8)
    (cursorX : cx.signed = true ∧ cx.width = 32) (cursorY : cy.signed = true ∧ cy.width = 32)
    (wide : bits.width = 32) :
    let t := s.writeHit ⟨true, side, s.x len, s.x typ, s.x cx, s.x cy,
      sampleColumn s.cfg (s.stored bits) mirror, mirror⟩
    t.x .hit = 1 ∧ t.x .side = bit01 side ∧ t.x .dist = s.x len ∧ t.x .btype = s.x typ ∧
      t.x .hitx = s.x cx ∧ t.x .hity = s.x cy ∧ (t.x .orient = 1 ↔ mirror = true) ∧
      (s.cfg.Legal → t.x .sample =
        let q := s.x bits % s.cfg.bs / 2 ^ s.cfg.texShift
        if mirror then s.cfg.texSize - 1 - q else q) := by
  intro t
  obtain ⟨hit, sideOf, dist, btype, hitx, hity, sample, orient⟩ := s.writeHit_results
    ⟨true, side, s.x len, s.x typ, s.x cx, s.x cy, sampleColumn s.cfg (s.stored bits) mirror, mirror⟩
  exact ⟨hit, sideOf, dist.trans (s.wrap_x_of_fits (.inl ⟨length.1.symm, length.2.symm⟩)),
    btype.trans (s.wrap_x_of_fits (.inl ⟨type.1.symm, type.2.symm⟩)),
    hitx.trans (s.wrap_x_of_fits (.inl ⟨cursorX.1.symm, cursorX.2.symm⟩)),
    hity.trans (s.wrap_x_of_fits (.inl ⟨cursorY.1.symm, cursorY.2.symm⟩)),
    by rw [orient]; exact bit01_eq_one_iff mirror,
    fun legal => sample.trans (s.wrap_sampleColumn legal wide mirror)⟩

/-- The no-hit record: at the horizontal cursor if that search ran, else at the vertical one
(42_dda_search.md R149). -/
theorem State.noHit_eq (s : State) : s.noHit =
    ⟨false, false, s.x .worldw, 0, if s.skiph then s.x .vx else s.x .hx,
      if s.skiph then s.x .vy else s.x .hy, 0, false⟩ := by
  unfold State.noHit
  split <;> rfl

/-- The hit registers after no hit is chosen (42_dda_search.md R149). -/
theorem State.writeHit_noHit (s : State) :
    let t := s.writeHit s.noHit
    t.x .hit = 0 ∧ t.x .side = 0 ∧ t.x .dist = s.x .worldw ∧ t.x .btype = 0 ∧
      t.x .sample = 0 ∧ t.x .orient = 0 ∧
      t.x .hitx = (if s.skiph then s.x .vx else s.x .hx) ∧
      t.x .hity = (if s.skiph then s.x .vy else s.x .hy) := by
  rw [State.noHit_eq]
  intro t
  obtain ⟨hit, side, dist, btype, hitx, hity, sample, orient⟩ := s.writeHit_results
    ⟨false, false, s.x .worldw, 0, if s.skiph then s.x .vx else s.x .hx,
      if s.skiph then s.x .vy else s.x .hy, 0, false⟩
  refine ⟨hit, side, dist.trans (s.wrap_x_of_fits (r := .worldw) (by decide)), btype, sample, orient,
    hitx.trans ?_, hity.trans ?_⟩
  all_goals
    dsimp only
    split <;> exact s.wrap_x_of_fits (by decide)

/-- Settles O37: by the hit chosen, whose fields the hit registers keep whole. -/
theorem selectChoosesNearerHit : Obligations.SelectChoosesNearerHit := by
  unfold Obligations.SelectChoosesNearerHit
  refine ⟨by decide, fun s => ⟨s.writeHit s.chooseHit, rfl, ?_, ?_, ?_, s.writeHit_frame _⟩⟩
  · rintro ⟨found, nearer⟩
    rw [State.chooseHit_horizontal found nearer]
    exact s.writeHit_found true s.orh (by decide) (by decide) (by decide) (by decide) rfl
  · rintro ⟨found, nearer⟩
    rw [State.chooseHit_vertical found nearer]
    exact s.writeHit_found false s.orv (by decide) (by decide) (by decide) (by decide) rfl
  · rintro ⟨noV, noH⟩
    rw [State.chooseHit_none noV noH]
    exact s.writeHit_noHit

/-! ## Completion -/

/-- On an answered map the vertical-line walk meets no unanswered byte. -/
theorem State.vWalk_completes {s : State} (answered : s.MapAnswered) : ∃ e, s.vWalk = .ok e := by
  obtain ⟨k, -, -, -, walk⟩ := s.vWalk_spec
  cases met : s.vCell k with
  | error a => exact absurd met (State.cell_answered answered _ _ a)
  | ok cell => exact ⟨_, by rw [walk, met, endAt]⟩

/-- On an answered map the horizontal-line walk meets no unanswered byte. -/
theorem State.hWalk_completes {s : State} (answered : s.MapAnswered) : ∃ e, s.hWalk = .ok e := by
  obtain ⟨k, -, -, -, walk⟩ := s.hWalk_spec
  cases met : s.hCell k with
  | error a => exact absurd met (State.cell_answered answered _ _ a)
  | ok cell => exact ⟨_, by rw [walk, met, endAt]⟩

/-- A search whose walk meets no unanswered byte completes. -/
theorem State.search_completes (s : State) (skip : Bool) {walk : Except Word WalkEnd}
    (ends : ∃ e, walk = .ok e) (len : Int → Int → Int)
    (write : Int → Int → Int → Int → Int → State) :
    ∃ t, s.search skip walk len write = .done t := by
  obtain ⟨⟨cx, cy, hit⟩, rfl⟩ := ends
  cases skip with
  | true => exact ⟨_, s.search_skipped len write _⟩
  | false =>
    cases hit with
    | none => exact ⟨_, s.search_out len write cx cy⟩
    | some t => exact ⟨_, s.search_solid len write cx cy t⟩

theorem doVsrch_completes {s : State} (answered : s.MapAnswered) : ∃ t, doVsrch s = .done t := by
  rw [doVsrch_eq_search]
  exact s.search_completes _ (State.vWalk_completes answered) _ _

theorem doHsrch_completes {s : State} (answered : s.MapAnswered) : ∃ t, doHsrch s = .done t := by
  rw [doHsrch_eq_search]
  exact s.search_completes _ (State.hWalk_completes answered) _ _

/-- A command whose operation completes answers its state, inside the operation's frame. -/
theorem exec_of_completes {i : Instr} {s : State} {f : Flow} {rs : List Reg}
    (meaning : exec i s = f.outcome) (frame : f.Frame rs s) (completes : ∃ t, f = .done t) :
    ∃ t, exec i s = .next t ∧ ChangesOnly rs s t := by
  obtain ⟨t, rfl⟩ := completes
  exact ⟨t, meaning, frame⟩

/-! ## `CAST` over its parts -/

/-- The state `CAST` searches from: after `NORM` and `DECOMP`. -/
def State.aimed (s : State) : State := (doDecomp (doNorm s).state).state

/-- After `NORM` the angle is in the range of `DECOMP`, which completes (42_dda_search.md R148). -/
theorem doDecomp_after_norm (s : State) : doDecomp (doNorm s).state = .done s.aimed := by
  obtain ⟨n, done, -, -, top⟩ := doNorm_range s
  have completes : doDecomp n = .done (n.writeDecomp (n.x .angn)) := if_neg top.not_gt
  rw [State.aimed, done, Flow.state_done, completes, Flow.state_done]

/-- `CAST` is the two searches and the choice from the state `NORM` and `DECOMP` leave. -/
theorem doCast_eq (s : State) :
    doCast s = (doVsrch s.aimed).andThen fun t => (doHsrch t).andThen doSelect := by
  show (doDecomp (doNorm s).state).andThen _ = _
  rw [doDecomp_after_norm, Flow.andThen_done]

theorem State.aimed_frame (s : State) :
    ChangesOnly [.angn, .quad, .cosm, .sinm, .tanv, .tanh, .dflags] s s.aimed := by
  have norm : ChangesOnly [.angn] s (doNorm s).state := doNorm_frame s
  have decomp : ChangesOnly _ (doNorm s).state s.aimed := doDecomp_after_norm s ▸ doDecomp_frame _
  exact (norm.mono (by decide)).trans (decomp.mono (by decide))

theorem doCast_completes {s : State} (answered : s.MapAnswered) : ∃ t, doCast s = .done t := by
  have aimed := answered.of_changesOnly s.aimed_frame (by decide)
  obtain ⟨v, vDone⟩ := doVsrch_completes aimed
  have vFrame : ChangesOnly _ s.aimed v := vDone ▸ doVsrch_frame s.aimed
  obtain ⟨h, hDone⟩ := doHsrch_completes (aimed.of_changesOnly vFrame (by decide))
  exact ⟨h.writeHit h.chooseHit, by rw [doCast_eq, vDone, Flow.andThen_done, hDone]; rfl⟩

/-- Settles O36: no lookup of an answered map fails, so each search completes, and `CAST` with both. -/
theorem searchesCompleteOnAnsweredMap : Obligations.SearchesCompleteOnAnsweredMap := by
  unfold Obligations.SearchesCompleteOnAnsweredMap
  intro s answered
  exact ⟨exec_of_completes rfl (doVsrch_frame s) (doVsrch_completes answered),
    exec_of_completes rfl (doHsrch_frame s) (doHsrch_completes answered),
    exec_of_completes rfl (doCast_frame s) (doCast_completes answered)⟩

/-- From a state without a fault, a flow that leaves the fault record alone completes exactly when it
leaves none recorded (60_exceptions.md R226). -/
theorem Flow.Frame.done_or_ended {rs : List Reg} {s : State} {f : Flow} (frame : f.Frame rs s)
    (unfaulted : s.x .status = 0) (kept : Reg.status ∉ rs) :
    (f = .done f.state ∧ f.state.x .status = 0) ∨ (f = .ended f.state ∧ f.state.x .status = 1) := by
  cases f with
  | done t =>
    obtain ⟨keepsRegs, -⟩ : ChangesOnly rs s t := frame
    exact .inl ⟨rfl, (keepsRegs .status kept).trans unfaulted⟩
  | ended t =>
    obtain ⟨u, c, info, ⟨keepsRegs, -⟩, records, -⟩ := frame
    exact .inr ⟨rfl, (records ((keepsRegs .status kept).trans unfaulted)).1⟩

/-- Settles O38: from a state without a fault each search completes or records one, and `CAST` goes on
exactly when it completes. -/
theorem castRunsItsPartsInOrder : Obligations.CastRunsItsPartsInOrder := by
  unfold Obligations.CastRunsItsPartsInOrder
  refine ⟨by decide, fun s a b c d unfaulted norm decomp vsrch hsrch => ?_⟩
  obtain rfl : (doNorm s).state = a := Host.Outcome.next.inj norm
  obtain rfl : s.aimed = b := Host.Outcome.next.inj decomp
  obtain rfl : (doVsrch s.aimed).state = c := Host.Outcome.next.inj vsrch
  obtain rfl : (doHsrch (doVsrch s.aimed).state).state = d := Host.Outcome.next.inj hsrch
  have cast : exec .cast s = (doCast s).outcome := rfl
  rw [cast, doCast_eq]
  have ⟨aimedRegs, _⟩ := s.aimed_frame
  rcases (doVsrch_frame s.aimed).done_or_ended
    ((aimedRegs .status (by decide)).trans unfaulted) (by decide) with ⟨vDone, v0⟩ | ⟨vEnded, v1⟩
  · rw [vDone, Flow.andThen_done, Flow.state_done]
    rcases (doHsrch_frame (doVsrch s.aimed).state).done_or_ended v0 (by decide) with
      ⟨hDone, h0⟩ | ⟨hEnded, h1⟩
    · rw [hDone, Flow.andThen_done, Flow.state_done]
      exact ⟨fun v1 => by omega, fun _ h1 => by omega, fun _ _ => rfl⟩
    · rw [hEnded, Flow.andThen_ended, Flow.state_ended]
      exact ⟨fun v1 => by omega, fun _ _ => rfl, fun _ h0 => by omega⟩
  · exact ⟨fun _ => by rw [vEnded]; rfl, fun v0 => by omega, fun v0 => by omega⟩

/-! ## The result of `CAST` as a function of its inputs -/

/-- Two states agree on the build, on every cell of the active map, and on the registers `rs`. -/
def AgreeOn (rs : List Reg) (s u : State) : Prop :=
  s.cfg = u.cfg ∧ (∀ col row, s.cell col row = u.cell col row) ∧ ∀ r ∈ rs, s.x r = u.x r

/-- Two flows agree when both complete in states that do, or when both end in a fault. -/
def Flow.AgreeOn (rs : List Reg) : Flow → Flow → Prop
  | .done t, .done v => Machine.AgreeOn rs t v
  | .ended _, .ended _ => True
  | _, _ => False

/-- A lookup in the map reads the map registers, the build and the memory (42_dda_search.md R136). -/
theorem State.cell_set (s : State) {r : Reg} (other : r ∉ mapRegs) (v col row : Int) :
    (s.set r v).cell col row = s.cell col row := by
  have kept : ∀ m ∈ mapRegs, (s.set r v).x m = s.x m :=
    fun m mem => s.x_set_ne v fun same => other (same ▸ mem)
  simp only [State.cell, State.memRead_eq, State.byteAt_set, kept .mapw (by decide),
    kept .maph (by decide), kept .mapbase (by decide)]

theorem AgreeOn.mono {rs rs' : List Reg} {s u : State} (agree : AgreeOn rs s u)
    (sub : ∀ r ∈ rs', r ∈ rs) : AgreeOn rs' s u := by
  obtain ⟨cfg, cells, regs⟩ := agree
  exact ⟨cfg, cells, fun r mem => regs r (sub r mem)⟩

/-- States that agree still do after the same value is written to a register in both, and on that
register too. -/
theorem AgreeOn.set {rs : List Reg} {s u : State} (agree : AgreeOn rs s u) {r : Reg}
    (other : r ∉ mapRegs) {v w : Int} (same : v = w) :
    AgreeOn (r :: rs) (s.set r v) (u.set r w) := by
  subst same
  obtain ⟨cfg, cells, regs⟩ := agree
  refine ⟨cfg, fun col row => ?_, fun r' mem => ?_⟩
  · rw [s.cell_set other, u.cell_set other, cells]
  · rw [s.x_set, u.x_set]
    split
    next => rfl
    next ne => exact regs r' ((List.mem_cons.1 mem).resolve_left ne)

theorem Flow.AgreeOn.mono {rs rs' : List Reg} {f g : Flow} (agree : f.AgreeOn rs g)
    (sub : ∀ r ∈ rs', r ∈ rs) : f.AgreeOn rs' g := by
  cases f with
  | done t =>
    cases g with
    | done v => exact Machine.AgreeOn.mono agree sub
    | ended v => exact agree
  | ended t =>
    cases g with
    | done v => exact agree
    | ended v => trivial

theorem Flow.AgreeOn.andThen {rs rs' : List Reg} {f g : Flow} {k : State → Flow}
    (agree : f.AgreeOn rs g) (next : ∀ t v, Machine.AgreeOn rs t v → (k t).AgreeOn rs' (k v)) :
    (f.andThen k).AgreeOn rs' (g.andThen k) := by
  cases f with
  | done t =>
    cases g with
    | done v => exact next t v agree
    | ended v => cases agree
  | ended t =>
    cases g with
    | done v => cases agree
    | ended v => trivial

/-- The walk reads the build and the cells (42_dda_search.md R143, R144). -/
theorem State.walk_congr {s u : State} (cfg : s.cfg = u.cfg)
    (cells : ∀ col row, s.cell col row = u.cell col row) (ac ar dx dy : Int) (n : Nat)
    (cx cy : Int) : s.walk ac ar dx dy n cx cy = u.walk ac ar dx dy n cx cy := by
  induction n generalizing cx cy with
  | zero => rfl
  | succ n ih => simp only [State.walk, cfg, cells, ih]

theorem State.dflag_congr {s u : State} (same : s.x .dflags = u.x .dflags) (k : Nat) :
    s.dflag k = u.dflag k := by
  simp only [State.dflag, State.stored, same]

/-! Each part of `CAST`, from states that agree on what it reads, leaves states that agree on what it
writes too. -/

section
variable {rs : List Reg} {s u : State} (agree : AgreeOn rs s u)
include agree

theorem AgreeOn.x_eq {reads : List Reg} (sub : ∀ r ∈ reads, r ∈ rs) : ∀ r ∈ reads, s.x r = u.x r := by
  obtain ⟨-, -, regs⟩ := agree
  exact fun r mem => regs r (sub r mem)

theorem doNorm_agree (reads : ∀ r ∈ [Reg.angle], r ∈ rs) :
    (doNorm s).AgreeOn (.angn :: rs) (doNorm u) :=
  agree.set (by decide) (congrArg norm360 (agree.x_eq reads .angle (by decide)))

theorem doDecomp_agree (reads : ∀ r ∈ [Reg.angn], r ∈ rs) :
    (doDecomp s).AgreeOn (.dflags :: .tanh :: .tanv :: .sinm :: .cosm :: .quad :: rs)
      (doDecomp u) := by
  have angn := agree.x_eq reads .angn (by decide)
  have ⟨cfg, _⟩ := agree
  unfold doDecomp
  rw [angn]
  by_cases above : u.x .angn > 359
  · rw [if_pos above, if_pos above]
    trivial
  · rw [if_neg above, if_neg above, State.writeDecomp, State.writeDecomp, cfg]
    exact (((((agree.set (by decide) rfl).set (by decide) rfl).set (by decide) rfl).set
      (by decide) rfl).set (by decide) rfl).set (by decide) rfl

/-- Searches that are skipped alike and whose walks answer the same agree where their writes do. -/
theorem State.search_agree (reads : ∀ r ∈ [Reg.px, .py, .worldw], r ∈ rs) {rs' : List Reg}
    (skip : Bool) (walk : Except Word WalkEnd) (len : Int → Int → Int)
    {write write' : Int → Int → Int → Int → Int → State}
    (writes : ∀ found l cx cy t, AgreeOn rs' (write found l cx cy t) (write' found l cx cy t)) :
    (s.search skip walk len write).AgreeOn rs' (u.search skip walk len write') := by
  have same := agree.x_eq reads
  have worldw := same .worldw (by decide)
  cases skip with
  | true =>
    rw [s.search_skipped, u.search_skipped, same .px (by decide), same .py (by decide), worldw]
    exact writes _ _ _ _ _
  | false =>
    rcases walk with a | ⟨cx, cy, hit⟩
    · trivial
    · cases hit with
      | none =>
        rw [s.search_out, u.search_out, worldw]
        exact writes _ _ _ _ _
      | some t => exact writes _ _ _ _ _

theorem State.vWalk_agree
    (reads : ∀ r ∈ [Reg.px, .py, .tanv, .dflags, .mapw], r ∈ rs) : s.vWalk = u.vWalk := by
  have ⟨cfg, cells, _⟩ := agree
  have same := agree.x_eq reads
  simp only [State.vWalk, State.sxn, State.syn, cfg, State.dflag_congr (same .dflags (by decide)),
    same .px (by decide), same .py (by decide), same .tanv (by decide), same .mapw (by decide)]
  exact State.walk_congr cfg cells _ _ _ _ _ _ _

theorem State.hWalk_agree
    (reads : ∀ r ∈ [Reg.px, .py, .tanh, .dflags, .maph], r ∈ rs) : s.hWalk = u.hWalk := by
  have ⟨cfg, cells, _⟩ := agree
  have same := agree.x_eq reads
  simp only [State.hWalk, State.sxn, State.syn, cfg, State.dflag_congr (same .dflags (by decide)),
    same .px (by decide), same .py (by decide), same .tanh (by decide), same .maph (by decide)]
  exact State.walk_congr cfg cells _ _ _ _ _ _ _

theorem doVsrch_agree
    (reads : ∀ r ∈ [Reg.px, .py, .worldw, .tanv, .cosm, .dflags, .mapw], r ∈ rs) :
    (doVsrch s).AgreeOn (.vtype :: .vy :: .vx :: .lenv :: .vfound :: rs) (doVsrch u) := by
  have same := agree.x_eq reads
  have skip : s.skipv = u.skipv := State.dflag_congr (same .dflags (by decide)) 4
  rw [doVsrch_eq_search, doVsrch_eq_search, skip, same .px (by decide), same .cosm (by decide),
    State.vWalk_agree (agree.mono reads) (by decide)]
  exact State.search_agree (agree.mono reads) (by decide) _ _ _
    fun _ _ _ _ _ => ((((agree.set (by decide) rfl).set (by decide) rfl).set (by decide) rfl).set
      (by decide) rfl).set (by decide) rfl

theorem doHsrch_agree
    (reads : ∀ r ∈ [Reg.px, .py, .worldw, .tanh, .sinm, .dflags, .maph], r ∈ rs) :
    (doHsrch s).AgreeOn (.htype :: .hy :: .hx :: .lenh :: .hfound :: rs) (doHsrch u) := by
  have same := agree.x_eq reads
  have skip : s.skiph = u.skiph := State.dflag_congr (same .dflags (by decide)) 5
  rw [doHsrch_eq_search, doHsrch_eq_search, skip, same .py (by decide), same .sinm (by decide),
    State.hWalk_agree (agree.mono reads) (by decide)]
  exact State.search_agree (agree.mono reads) (by decide) _ _ _
    fun _ _ _ _ _ => ((((agree.set (by decide) rfl).set (by decide) rfl).set (by decide) rfl).set
      (by decide) rfl).set (by decide) rfl

/-- The choice reads the results of both searches, the flags, the sentinel and the build
(42_dda_search.md R145 to R149). -/
theorem State.chooseHit_agree (reads : ∀ r ∈ [Reg.vfound, .lenv, .vx, .vy, .vtype, .hfound, .lenh,
    .hx, .hy, .htype, .dflags, .worldw], r ∈ rs) : s.chooseHit = u.chooseHit := by
  have ⟨cfg, _⟩ := agree
  have same := agree.x_eq reads
  simp only [List.forall_mem_cons] at same
  obtain ⟨vfound, lenv, vx, vy, vtype, hfound, lenh, hx, hy, htype, dflags, worldw, -⟩ := same
  have hitH : s.hitH = u.hitH := by
    simp only [State.hitH, State.orh, State.dflag_congr dflags, State.stored, cfg, lenh, htype, hx, hy]
  have hitV : s.hitV = u.hitV := by
    simp only [State.hitV, State.orv, State.dflag_congr dflags, State.stored, cfg, lenv, vtype, vx, vy]
  have skip : s.skiph = u.skiph := State.dflag_congr dflags 5
  have noHit : s.noHit = u.noHit := by
    rw [State.noHit_eq, State.noHit_eq, skip, worldw, vx, vy, hx, hy]
  rw [State.chooseHit, State.chooseHit, State.bit, State.bit, State.bit, State.bit, hfound, vfound,
    lenh, lenv, hitH, hitV, noHit]

theorem doSelect_agree (reads : ∀ r ∈ [Reg.vfound, .lenv, .vx, .vy, .vtype, .hfound, .lenh,
    .hx, .hy, .htype, .dflags, .worldw], r ∈ rs) :
    (doSelect s).AgreeOn (.orient :: .sample :: .hity :: .hitx :: .btype :: .dist :: .side ::
      .hit :: rs) (doSelect u) := by
  unfold doSelect
  rw [State.chooseHit_agree agree reads]
  exact (((((((agree.set (by decide) rfl).set (by decide) rfl).set (by decide) rfl).set
    (by decide) rfl).set (by decide) rfl).set (by decide) rfl).set (by decide) rfl).set
    (by decide) rfl

end

/-- The registers among the inputs of `CAST` (42_dda_search.md R150). -/
def castInputs : List Reg := [.angle, .px, .py, .mapbase, .mapw, .maph, .worldw]

/-- `CAST` from states that agree on its inputs leaves states that agree on what it writes, each part
agreeing on what the parts before it wrote (42_dda_search.md R150). -/
theorem doCast_agree {s u : State} (agree : AgreeOn castInputs s u) :
    (doCast s).AgreeOn castRegs (doCast u) :=
  (doNorm_agree agree (by decide)).andThen fun _ _ agree =>
    (doDecomp_agree agree (by decide)).andThen fun _ _ agree =>
      (doVsrch_agree agree (by decide)).andThen fun _ _ agree =>
        (doHsrch_agree agree (by decide)).andThen fun _ _ agree =>
          (doSelect_agree agree (by decide)).mono (by decide)

/-- Maps at one address, of one size, whose cells hold the same bytes, answer every lookup alike
(42_dda_search.md R136). -/
theorem State.cell_congr {s u : State} (base : s.x .mapbase = u.x .mapbase)
    (width : s.x .mapw = u.x .mapw) (height : s.x .maph = u.x .maph)
    (bytes : ∀ col row, 0 ≤ col → col < s.x .mapw → 0 ≤ row → row < s.x .maph →
      s.byteAt (s.cellAddr col row) = u.byteAt (s.cellAddr col row)) (col row : Int) :
    s.cell col row = u.cell col row := by
  by_cases inside : 0 ≤ col ∧ col < s.x .mapw ∧ 0 ≤ row ∧ row < s.x .maph
  · obtain ⟨col0, col1, row0, row1⟩ := inside
    have addr : u.cellAddr col row = s.cellAddr col row := by
      simp only [State.cellAddr, base, width]
    rw [s.cell_in col0 col1 row0 row1, bytes col row col0 col1 row0 row1,
      u.cell_in col0 (width ▸ col1) row0 (height ▸ row1), addr, base, width]
  · rw [(s.cell_out_iff col row).2 (by omega), (u.cell_out_iff col row).2 (by omega)]

/-- Settles O39: the states agree on the inputs of `CAST`, which completes from the first, whose map is
answered, and so from both. -/
theorem castDependsOnlyOnItsInputs : Obligations.CastDependsOnlyOnItsInputs := by
  unfold Obligations.CastDependsOnlyOnItsInputs
  intro s u cfg regs bytes answered
  have cells := State.cell_congr (regs .mapbase (by decide)) (regs .mapw (by decide))
    (regs .maph (by decide)) bytes
  have agree := doCast_agree ⟨cfg, cells, regs⟩
  obtain ⟨t, done⟩ := doCast_completes answered
  rw [done] at agree
  cases done' : doCast u with
  | done v =>
    rw [done'] at agree
    obtain ⟨-, -, same⟩ := agree
    exact ⟨t, v, congrArg Flow.outcome done, congrArg Flow.outcome done', same⟩
  | ended v => rw [done'] at agree; cases agree

end Sys2Proof.Machine

/-! The fish-eye correction and the height projector (43_projector.md): the ranges of a slice and of
its texture rows, and what each of the five commands leaves. -/

namespace Sys2Proof.Machine

/-! ## Parts of a frame -/

theorem ChangesOnly.keepsRegs {rs : List Reg} {s t : State} (h : ChangesOnly rs s t) :
    KeepsRegs rs s t := by
  obtain ⟨keeps, -⟩ := h
  exact keeps

theorem ChangesOnly.x_eq {rs : List Reg} {s t : State} (h : ChangesOnly rs s t) {r : Reg}
    (other : r ∉ rs) : t.x r = s.x r := h.keepsRegs r other

theorem ChangesOnly.draw_eq {rs : List Reg} {s t : State} (h : ChangesOnly rs s t) :
    t.draw = s.draw := by
  obtain ⟨-, -, ⟨-, draw⟩, -⟩ := h
  exact draw

theorem ChangesOnly.cfg_eq {rs : List Reg} {s t : State} (h : ChangesOnly rs s t) :
    t.cfg = s.cfg := by
  obtain ⟨-, -, -, -, cfg, -⟩ := h
  exact cfg

theorem ChangesOnlyAndDraws.keepsRegs {rs : List Reg} {s t : State}
    (h : ChangesOnlyAndDraws rs s t) : KeepsRegs rs s t := by
  obtain ⟨keeps, -⟩ := h
  exact keeps

/-! ## The slice -/

theorem State.fishIndex_eq (s : State) : s.fishIndex = s.rayOffset := Int.natCast_natAbs _

/-- The corrected length is never more than the length: no table entry exceeds 128 (43_projector.md
R161). -/
theorem correctedLength_range {dist d : Int} (dist0 : 0 ≤ dist) (d0 : 0 ≤ d) (d1 : d ≤ 90) :
    0 ≤ correctedLength dist d ∧ correctedLength dist d ≤ dist := by
  obtain ⟨entry0, entry1, -⟩ := c128_facts d0 d1
  have product0 : 0 ≤ dist * c128 d := Int.mul_nonneg dist0 entry0
  have product1 : dist * c128 d ≤ dist * 128 := Int.mul_le_mul_of_nonneg_left entry1 dist0
  unfold correctedLength
  omega

/-- A slice has at most `PROJ_CONST` rows (43_projector.md R162). -/
theorem sliceHeight_range {c : Config} {corr : Int} (corr0 : 0 ≤ corr) :
    0 ≤ sliceHeight c corr ∧ sliceHeight c corr ≤ c.projConst := by
  unfold sliceHeight
  split
  · omega
  · exact ⟨Int.ediv_nonneg (by omega) corr0, Int.ediv_le_self _ (by omega)⟩

/-- The height times the corrected length is at most `PROJ_CONST` (43_projector.md R167). -/
theorem sliceHeight_mul_le {c : Config} {corr : Int} (corr1 : 1 ≤ corr) :
    sliceHeight c corr * corr ≤ c.projConst := by
  rw [sliceHeight, if_neg (by omega)]
  exact Int.ediv_mul_le _ (by omega)

theorem spanTop_eq (c : Config) (height : Int) :
    spanTop c height = (c.screenH : Int) / 2 - height / 2 := by
  simp [spanTop, asr_eq_ediv]

/-! ## The texture step and the texture rows of a slice -/

/-- `TSTEP` of a slice of the given height (43_projector.md R164). -/
def textureStep (c : Config) (height : Int) : Int :=
  if height = 0 then 0 else c.texSize * 2 ^ c.texFp / height

/-- The texture row an offset below the top of a slice shows (43_projector.md R165). -/
def textureRow (c : Config) (height off : Int) : Int := textureStep c height * off / 2 ^ c.texFp

/-- With legal parameters a texture has 1 to 256 rows (00_scope.md R7). -/
theorem texSize_range {c : Config} (legal : c.Legal) : 0 < c.texSize ∧ c.texSize ≤ 2 ^ 8 := by
  obtain ⟨small, shift, -⟩ := legal
  rw [texSize_eq_two_pow shift]
  exact ⟨by positivity, pow_le_pow_right₀ (by decide) (by omega)⟩

/-- With legal parameters the scaled texture size needs 25 bits (00_scope.md R7). -/
theorem scaledTexSize_range {c : Config} (legal : c.Legal) :
    0 < c.texSize * 2 ^ c.texFp ∧ c.texSize * 2 ^ c.texFp ≤ 2 ^ 24 := by
  obtain ⟨size0, size1⟩ := texSize_range legal
  obtain ⟨-, -, fraction, -⟩ := legal
  have scale : (2 : Int) ^ c.texFp ≤ 2 ^ 16 := pow_le_pow_right₀ (by decide) fraction
  exact ⟨by positivity, mul_le_mul size1 scale (by positivity) (by decide)⟩

/-- The step fits in 32 bits and covers no more than the texture (43_projector.md R164). -/
theorem textureStep_range {c : Config} (legal : c.Legal) {height : Int} (height0 : 0 ≤ height) :
    0 ≤ textureStep c height ∧ textureStep c height ≤ 2 ^ 24 ∧
      textureStep c height * height ≤ c.texSize * 2 ^ c.texFp := by
  obtain ⟨scaled0, scaled1⟩ := scaledTexSize_range legal
  unfold textureStep
  split
  · omega
  · next nonzero =>
    exact ⟨Int.ediv_nonneg scaled0.le height0, (Int.ediv_le_self _ scaled0.le).trans scaled1,
      Int.ediv_mul_le _ nonzero⟩

/-- A later row of a slice shows no earlier texture row (43_projector.md R166). -/
theorem textureRow_mono {c : Config} (legal : c.Legal) {height : Int} (height0 : 0 ≤ height)
    {off off' : Int} (later : off ≤ off') : textureRow c height off ≤ textureRow c height off' := by
  obtain ⟨step0, -⟩ := textureStep_range legal height0
  exact Int.ediv_le_ediv (by positivity) (Int.mul_le_mul_of_nonneg_left later step0)

/-- Every row of a slice shows a row of the texture (43_projector.md R166). -/
theorem textureRow_range {c : Config} (legal : c.Legal) {height off : Int} (off0 : 0 ≤ off)
    (off1 : off < height) :
    0 ≤ textureRow c height off ∧
      textureRow c height off ≤
        c.texSize * 2 ^ c.texFp * (height - 1) / height / 2 ^ c.texFp ∧
      textureRow c height off < c.texSize := by
  have height0 : 0 < height := by omega
  obtain ⟨step0, -, covers⟩ := textureStep_range legal height0.le
  obtain ⟨scaled0, -⟩ := scaledTexSize_range legal
  have scale : (0 : Int) < 2 ^ c.texFp := by positivity
  have product : textureStep c height * off ≤ c.texSize * 2 ^ c.texFp * (height - 1) / height := by
    rw [Int.le_ediv_iff_mul_le height0]
    calc textureStep c height * off * height
        = textureStep c height * height * off := by ring
      _ ≤ c.texSize * 2 ^ c.texFp * (height - 1) := mul_le_mul covers (by omega) off0 scaled0.le
  have below : c.texSize * 2 ^ c.texFp * (height - 1) / height < c.texSize * 2 ^ c.texFp :=
    (Int.ediv_lt_iff_lt_mul height0).2 (Int.mul_lt_mul_of_pos_left (by omega) scaled0)
  exact ⟨Int.ediv_nonneg (Int.mul_nonneg step0 off0) scale.le, Int.ediv_le_ediv scale product,
    (Int.ediv_lt_iff_lt_mul scale).2 (product.trans_lt below)⟩

/-! ## What the five commands leave -/

/-- `FISH` within 90 of the centre (43_projector.md R161). -/
theorem doFish_spec {s : State} (near : s.rayOffset ≤ 90) :
    ∃ t, doFish s = .done t ∧ t.x .corr = correctedLength (s.x .dist) s.rayOffset ∧
      ChangesOnly [.corr] s t := by
  obtain ⟨dist0, dist1⟩ := s.x_range_unsigned (r := .dist) rfl
  obtain ⟨corr0, corr1⟩ := correctedLength_range dist0 (abs_nonneg _ : 0 ≤ s.rayOffset) near
  refine ⟨s.set .corr (correctedLength (s.x .dist) s.rayOffset), ?_,
    (s.x_set_same _ _).trans (Reg.wrap_unsigned rfl corr0 (corr1.trans_lt dist1)),
    (ChangesOnly.refl _ s).set (by simp) _⟩
  rw [doFish, s.fishIndex_eq, if_neg near.not_gt]
  rfl

/-- `FISH` more than 90 from the centre (43_projector.md R161). -/
theorem doFish_outside {s : State} (far : s.rayOffset > 90) :
    doFish s = s.raise .trigIndex s.rayOffset := by
  rw [doFish, s.fishIndex_eq, if_pos far]

/-- `PROJ` (43_projector.md R162). -/
theorem doProj_spec {s : State} (legal : s.cfg.Legal) :
    ∃ t, doProj s = .done t ∧ t.x .height = sliceHeight s.cfg (s.x .corr) ∧
      ChangesOnly [.height] s t := by
  obtain ⟨corr0, -⟩ := s.x_range_unsigned (r := .corr) rfl
  obtain ⟨height0, height1⟩ := sliceHeight_range (c := s.cfg) corr0
  obtain ⟨-, -, -, ⟨-, const⟩, -⟩ := legal
  refine ⟨s.set .height (sliceHeight s.cfg (s.x .corr)), ?_,
    (s.x_set_same _ _).trans (Reg.wrap_unsigned rfl height0 (by simp only [Reg.width]; omega)),
    (ChangesOnly.refl _ s).set (by simp) _⟩
  unfold doProj sliceHeight
  split <;> rfl

/-- `SPAN` (43_projector.md R163): no result is truncated, whatever the height. -/
theorem doSpan_spec {s : State} (legal : s.cfg.Legal) :
    ∃ t, doSpan s = .done t ∧ t.x .col0 = 2 * s.x .ray ∧
      t.x .ytop = (s.cfg.screenH : Int) / 2 - s.x .height / 2 ∧
      t.x .y0 = max ((s.cfg.screenH : Int) / 2 - s.x .height / 2) 0 ∧
      t.x .y1 = min ((s.cfg.screenH : Int) / 2 - s.x .height / 2 + s.x .height) s.cfg.screenH ∧
      ChangesOnly [.col0, .ytop, .y0, .y1] s t := by
  obtain ⟨ray0, ray1⟩ := s.x_range_unsigned (r := .ray) rfl
  obtain ⟨height0, height1⟩ := s.x_range_unsigned (r := .height) rfl
  obtain ⟨-, -, -, -, -, ⟨screen0, screen1⟩, -⟩ := legal
  simp only [Reg.width] at ray1 height1
  refine ⟨(doSpan s).state, rfl, ?_, ?_, ?_, ?_, doSpan_frame s⟩
  all_goals
    simp only [doSpan, Flow.state_done, spanTop_eq, State.x_set, reduceCtorEq, if_false, if_true]
  · exact Reg.wrap_unsigned rfl (by omega) (by simp only [Reg.width]; omega)
  · exact Reg.wrap_signed rfl (by simp only [Reg.width]; omega) (by simp only [Reg.width]; omega)
  · exact Reg.wrap_unsigned rfl (by omega) (by simp only [Reg.width]; omega)
  · exact Reg.wrap_unsigned rfl (by omega) (by simp only [Reg.width]; omega)

/-- `TSTEP` (43_projector.md R164). -/
theorem doTstep_spec {s : State} (legal : s.cfg.Legal) :
    ∃ t, doTstep s = .done t ∧ t.x .tstep = textureStep s.cfg (s.x .height) ∧
      ChangesOnly [.tstep] s t := by
  obtain ⟨height0, -⟩ := s.x_range_unsigned (r := .height) rfl
  obtain ⟨step0, step1, -⟩ := textureStep_range legal height0
  refine ⟨s.set .tstep (textureStep s.cfg (s.x .height)), ?_,
    (s.x_set_same _ _).trans (Reg.wrap_unsigned rfl step0 (by simp only [Reg.width]; omega)),
    (ChangesOnly.refl _ s).set (by simp) _⟩
  unfold doTstep textureStep
  rw [shl_eq_mul]
  split <;> rfl

/-- `TROW` (43_projector.md R165). -/
theorem doTrow_spec (row : Int) (s : State) :
    ∃ t, doTrow row s = .done t ∧
      t.x .trowr = s.x .tstep * (row - s.x .ytop) / 2 ^ s.cfg.texFp % 2 ^ 16 ∧
      ChangesOnly [.trowr] s t := by
  refine ⟨_, rfl, (s.x_set_same _ _).trans ?_, doTrow_frame row s⟩
  rw [Reg.wrap_unsigned_eq rfl, asr_eq_ediv]
  rfl

/-- `TROW` of a row of the slice whose height `TSTEP` was computed from: the texture row is kept
whole (43_projector.md R166). -/
theorem doTrow_textureRow {s : State} (legal : s.cfg.Legal) {height row : Int}
    (step : s.x .tstep = textureStep s.cfg height) (top : s.x .ytop ≤ row)
    (bottom : row < s.x .ytop + height) :
    ∃ t, doTrow row s = .done t ∧ t.x .trowr = textureRow s.cfg height (row - s.x .ytop) ∧
      ChangesOnly [.trowr] s t := by
  obtain ⟨t, done, trowr, frame⟩ := doTrow_spec row s
  obtain ⟨-, size1⟩ := texSize_range legal
  obtain ⟨row0, -, row1⟩ := textureRow_range legal (height := height)
    (off := row - s.x .ytop) (by omega) (by omega)
  refine ⟨t, done, ?_, frame⟩
  rw [trowr, step]
  exact Int.emod_eq_of_lt row0 (row1.trans_le (size1.trans (by decide)))

/-! ## The five commands -/

/-- Settles O41: the two cases of the table lookup. -/
theorem fishCorrectsTheLength : Obligations.FishCorrectsTheLength := by
  unfold Obligations.FishCorrectsTheLength
  refine ⟨by decide, fun s => ?_⟩
  intro d
  split
  next far =>
    exact ⟨_, congrArg Flow.outcome (doFish_outside far), s.recordFault_records _ _⟩
  next within =>
    have near : s.rayOffset ≤ 90 := not_lt.1 within
    obtain ⟨t, done, corr, frame⟩ := doFish_spec near
    obtain ⟨dist0, -⟩ := s.x_range_unsigned (r := .dist) rfl
    obtain ⟨-, shorter⟩ := correctedLength_range dist0 (abs_nonneg _ : 0 ≤ s.rayOffset) near
    exact ⟨t, congrArg Flow.outcome done, corr, corr.trans_le shorter, frame⟩

/-- Settles O42: the height is the closed form, with its two bounds. -/
theorem projDividesTheConstant : Obligations.ProjDividesTheConstant := by
  unfold Obligations.ProjDividesTheConstant
  refine ⟨by decide, fun s legal => ?_⟩
  obtain ⟨t, done, height, frame⟩ := doProj_spec legal
  obtain ⟨corr0, -⟩ := s.x_range_unsigned (r := .corr) rfl
  obtain ⟨height0, height1⟩ := sliceHeight_range (c := s.cfg) corr0
  rw [← height] at height0 height1
  exact ⟨t, congrArg Flow.outcome done, fun zero => height.trans (if_pos zero),
    fun nonzero => height.trans (if_neg nonzero), height0, height1,
    fun corr1 => height ▸ sliceHeight_mul_le corr1, frame⟩

/-- Settles O43: the values are those of `doSpan_spec`, the bounds follow from a height that is not
negative. -/
theorem spanCentresAndClips : Obligations.SpanCentresAndClips := by
  unfold Obligations.SpanCentresAndClips
  refine ⟨by decide, fun s legal => ?_⟩
  obtain ⟨t, done, col0, ytop, y0, y1, frame⟩ := doSpan_spec legal
  obtain ⟨height0, -⟩ := s.x_range_unsigned (r := .height) rfl
  exact ⟨t, congrArg Flow.outcome done, col0, ytop, y0, y1, by omega, by omega, by omega, frame⟩

/-- Settles O44: the step is the closed form, and covers no more than the texture. -/
theorem tstepDividesTheTexture : Obligations.TstepDividesTheTexture := by
  unfold Obligations.TstepDividesTheTexture
  refine ⟨by decide, fun s legal => ?_⟩
  obtain ⟨t, done, step, frame⟩ := doTstep_spec legal
  obtain ⟨height0, -⟩ := s.x_range_unsigned (r := .height) rfl
  obtain ⟨-, -, covers⟩ := textureStep_range legal height0
  exact ⟨t, congrArg Flow.outcome done, fun zero => step.trans (if_pos zero),
    fun nonzero => step.trans (if_neg nonzero), step ▸ covers, frame⟩

/-- Settles O45: the operand is the sign-extended immediate. -/
theorem trowScalesTheOffset : Obligations.TrowScalesTheOffset := by
  unfold Obligations.TrowScalesTheOffset
  intro imm s
  obtain ⟨t, done, trowr, frame⟩ := doTrow_spec (sext16 imm) s
  exact ⟨encode_toNat_immediate rfl rfl (by simp [Instr.opcode]), t, congrArg Flow.outcome done,
    trowr, frame⟩

/-- Settles O46: a visible row lies in the slice, so its texture row is kept whole, is in the texture
and grows with the row. -/
theorem visibleRowsMapInsideTheTexture : Obligations.VisibleRowsMapInsideTheTexture := by
  unfold Obligations.VisibleRowsMapInsideTheTexture
  intro s legal
  obtain ⟨a, spanned, -, ytop, y0, y1, frameA⟩ := doSpan_spec legal
  have legalA : a.cfg.Legal := frameA.cfg_eq ▸ legal
  obtain ⟨b, stepped, step, frameB⟩ := doTstep_spec legalA
  refine ⟨a, b, congrArg Flow.outcome spanned, congrArg Flow.outcome stepped,
    fun m n first later last => ?_⟩
  have cfg : b.cfg = s.cfg := frameB.cfg_eq.trans frameA.cfg_eq
  rw [← frameB.x_eq (r := .ytop) (by decide)] at ytop
  rw [← frameB.x_eq (r := .y0) (by decide)] at y0
  rw [← frameB.x_eq (r := .y1) (by decide)] at y1
  rw [frameA.cfg_eq, frameA.x_eq (r := .height) (by decide), ← cfg] at step
  have legalB : b.cfg.Legal := cfg ▸ legal
  obtain ⟨u, rowM, trowrM, -⟩ :=
    doTrow_textureRow legalB (row := m.toInt) step (by omega) (by omega)
  obtain ⟨v, rowN, trowrN, -⟩ :=
    doTrow_textureRow legalB (row := n.toInt) step (by omega) (by omega)
  obtain ⟨-, bound, inside⟩ := textureRow_range legalB (height := s.x .height)
    (off := n.toInt - b.x .ytop) (by omega) (by omega)
  obtain ⟨height0, -⟩ := s.x_range_unsigned (r := .height) rfl
  have grows := textureRow_mono legalB height0 (sub_le_sub_right later (b.x .ytop))
  rw [← trowrM, ← trowrN] at grows
  rw [← trowrN, cfg] at bound inside
  exact ⟨u, v, congrArg Flow.outcome rowM, congrArg Flow.outcome rowN, by omega, by omega, grows,
    bound, inside⟩

end Sys2Proof.Machine

/-! Slice output in the two 3-D modes (44_render.md): the projection `DRAW` starts with, one row of
the textured mode, answered or ended by a fault, and the run of rows. -/

namespace Sys2Proof.Machine

/-! ## The texel of a wall -/

/-- Slot `BTYPE - 1` of a block type that is not 0 (45_texel.md R199). -/
theorem ofInt_pred_btype {s : State} (nonzero : s.x .btype ≠ 0) :
    BitVec.ofInt 8 (s.x .btype - 1) = BitVec.ofNat 8 ((s.x .btype).toNat - 1) := by
  obtain ⟨btype0, -⟩ := s.x_range_unsigned (r := .btype) rfl
  rw [show s.x .btype - 1 = (((s.x .btype).toNat - 1 : Nat) : Int) by omega, BitVec.ofInt_natCast]

/-- The first address of the texture of the block type (45_texel.md R199). -/
def State.textureBase (s : State) : Int :=
  (s.texptrAt (BitVec.ofNat 8 ((s.x .btype).toNat - 1))).toNat

/-- The texel `WTEXEL` fetches, `none` where its byte is not answered (45_texel.md R199). -/
def State.wallTexel (s : State) : Option Bool :=
  s.texelAt s.textureBase s.cfg.texSize (s.x .sample) (s.x .trowr)

/-- `WTEXEL` without a texture for the block type (45_texel.md R199). -/
theorem doWtexel_of_noTexture {s : State} (missing : ¬ s.HasTexture) :
    doWtexel s = s.raise .texIndex (s.x .btype) := by
  unfold State.HasTexture at missing
  exact if_pos (by omega)

theorem State.HasTexture.not_texIndex {s : State} (populated : s.HasTexture) :
    ¬ (s.x .btype = 0 ∨ s.x .btype - 1 ≥ s.x .texcnt) := by
  obtain ⟨nonzero, slot⟩ := populated
  omega

/-- `WTEXEL` with the sample column outside the texture (45_texel.md R199). -/
theorem doWtexel_of_sampleOutside {s : State} (populated : s.HasTexture)
    (outside : s.cfg.texSize ≤ s.x .sample) :
    doWtexel s = s.raise .texelRange (s.x .trowr * 2 ^ 16 + s.x .sample) := by
  obtain ⟨row0, -⟩ := s.x_range_unsigned (r := .trowr) rfl
  obtain ⟨sample0, sample1⟩ := s.x_range_unsigned (r := .sample) rfl
  simp only [Reg.width] at sample1
  rw [doWtexel, if_neg populated.not_texIndex, if_pos (.inl outside),
    shl16_or _ (by omega : (s.x .sample).toNat < 2 ^ 16)]
  push_cast [Int.toNat_of_nonneg row0, Int.toNat_of_nonneg sample0]
  rfl

/-- `WTEXEL` inside a populated texture (45_texel.md R199). -/
theorem doWtexel_of_inside {s : State} (legal : s.cfg.Legal) (populated : s.HasTexture)
    (column : s.x .sample < s.cfg.texSize) (row : s.x .trowr < s.cfg.texSize) :
    doWtexel s = match s.wallTexel with
      | some b => .done (s.set .txbit (bit01 b))
      | none => s.raise .memFault
          ((s.textureBase + (s.x .trowr * s.cfg.texSize + s.x .sample) / 8) % 2 ^ 32) := by
  obtain ⟨row0, -⟩ := s.x_range_unsigned (r := .trowr) rfl
  obtain ⟨sample0, -⟩ := s.x_range_unsigned (r := .sample) rfl
  obtain ⟨size0, -⟩ := texSize_range legal
  have index0 : 0 ≤ s.x .trowr * s.cfg.texSize + s.x .sample :=
    Int.add_nonneg (Int.mul_nonneg row0 size0.le) sample0
  obtain ⟨nonzero, -⟩ := id populated
  rw [doWtexel, if_neg populated.not_texIndex, if_neg (by omega), ofInt_pred_btype nonzero,
    State.getTexel_eq _ _ _ _ _ index0, ← portAddr_toNat]
  change s.writeTexel (match s.wallTexel with | some b => _ | none => _) = _
  cases s.wallTexel <;> rfl

/-! ## The projection `DRAW` starts with -/

/-- The registers that `FISH`, `PROJ` and `SPAN` write (43_projector.md R161 to R163). -/
def sliceRegs : List Reg := [.corr, .height, .col0, .ytop, .y0, .y1]

/-- Writes to other registers leave the projection as it is. -/
theorem Projects.of_keepsRegs {s t u : State} {rs : List Reg} (h : Projects s t)
    (keeps : KeepsRegs rs t u) (others : ∀ r ∈ sliceRegs, r ∉ rs) : Projects s u := by
  have same : ∀ r ∈ sliceRegs, u.x r = t.x r := fun r listed => keeps r (others r listed)
  obtain ⟨corr, height, col0, ytop, y0, y1⟩ := h
  exact ⟨(same .corr (by decide)).trans corr, (same .height (by decide)).trans height,
    (same .col0 (by decide)).trans col0, (same .ytop (by decide)).trans ytop,
    (same .y0 (by decide)).trans y0, (same .y1 (by decide)).trans y1⟩

/-- `DRAW` of a hit within 90 of the centre in a 3-D mode goes on from the projection of the hit
(44_render.md R184). -/
theorem doDraw_projects {s : State} (legal : s.cfg.Legal) (mode : s.x .mode = 2 ∨ s.x .mode = 3)
    (hit : s.x .hit = 1) (near : s.rayOffset ≤ 90) :
    ∃ p, Projects s p ∧ ChangesOnly sliceRegs s p ∧
      doDraw s = if s.x .mode = 2 then .done p.solidSlice else texturedSlice p := by
  obtain ⟨a, fished, corr, frameA⟩ := doFish_spec near
  obtain ⟨b, projected, height, frameB⟩ := doProj_spec (frameA.cfg_eq ▸ legal : a.cfg.Legal)
  have cfgB : b.cfg = s.cfg := frameB.cfg_eq.trans frameA.cfg_eq
  obtain ⟨p, spanned, col0, ytop, y0, y1, frameP⟩ := doSpan_spec (cfgB ▸ legal : b.cfg.Legal)
  have heightB : b.x .height = s.hitHeight := by rw [height, corr, frameA.cfg_eq]; rfl
  have rayB : b.x .ray = s.x .ray :=
    (frameB.x_eq (by decide)).trans (frameA.x_eq (by decide))
  rw [heightB, cfgB] at ytop y0 y1
  refine ⟨p, ⟨?_, ?_, col0.trans (congrArg (2 * ·) rayB), ytop, y0, y1⟩, ?_, ?_⟩
  · rw [frameP.x_eq (by decide), frameB.x_eq (by decide), corr]
  · rw [frameP.x_eq (by decide), heightB]
  · exact ((frameA.mono (by decide)).trans (frameB.mono (by decide))).trans
      (frameP.mono (by decide))
  · rw [doDraw, if_neg (by omega), if_neg (by omega), fished, Flow.andThen_done, projected,
      Flow.andThen_done, spanned, Flow.andThen_done]

/-! ## The slice a row of the textured mode is drawn from -/

/-- `t` is `s` with the slice of its hit projected and the texture step computed, whatever rows are
drawn since (44_render.md R184). -/
structure SliceReady (s t : State) : Prop where
  projects : Projects s t
  step : t.x .tstep = s.hitStep
  frame : ChangesOnlyAndDraws drawRegs s t

/-- `DRAW` in the textured mode is its row loop, over the visible rows (44_render.md R184). -/
theorem doDraw_textured {s : State} (textured : s.DrawsTextured) :
    ∃ p, SliceReady s p ∧ ChangesOnly (.tstep :: sliceRegs) s p ∧
      doDraw s = texturedRows (s.endRow - s.firstRow).toNat s.firstRow p := by
  obtain ⟨legal, mode, hit, near⟩ := textured
  obtain ⟨a, projects, frameA, draw⟩ := doDraw_projects legal (.inr mode) hit near
  obtain ⟨p, stepped, step, frameP⟩ := doTstep_spec (frameA.cfg_eq ▸ legal : a.cfg.Legal)
  have projectsP : Projects s p := projects.of_keepsRegs frameP.keepsRegs (by decide)
  have frame : ChangesOnly (.tstep :: sliceRegs) s p :=
    (frameA.mono (by decide)).trans (frameP.mono (by decide))
  obtain ⟨-, height, -⟩ := projects
  obtain ⟨-, -, -, -, y0, y1⟩ := id projectsP
  rw [height, frameA.cfg_eq] at step
  refine ⟨p, ⟨projectsP, step, (frame.mono (by decide)).andDraws⟩, frame, ?_⟩
  rw [draw, if_neg (by omega), texturedSlice, stepped, Flow.andThen_done, y0, y1]

section
variable {s t : State}

theorem SliceReady.x_eq (ready : SliceReady s t) {r : Reg} (other : r ∉ drawRegs) :
    t.x r = s.x r := ready.frame.keepsRegs r other

theorem SliceReady.cfg_eq (ready : SliceReady s t) : t.cfg = s.cfg := by
  obtain ⟨-, -, -, -, cfg, -⟩ := ready.frame
  exact cfg

/-- What a row writes keeps the slice ready for the next one. -/
theorem SliceReady.of_rows (ready : SliceReady s t) {u : State}
    (frame : ChangesOnlyAndDraws [.trowr, .txbit] t u) : SliceReady s u :=
  ⟨ready.projects.of_keepsRegs frame.keepsRegs (by decide),
    (frame.keepsRegs .tstep (by decide)).trans ready.step,
    ready.frame.trans (frame.mono (by decide))⟩

theorem SliceReady.hasTexture_iff (ready : SliceReady s t) : t.HasTexture ↔ s.HasTexture := by
  rw [State.HasTexture, State.HasTexture, ready.x_eq (r := .btype) (by decide),
    ready.x_eq (r := .texcnt) (by decide)]

/-- The texture is where it was. -/
theorem SliceReady.textureBase_eq (ready : SliceReady s t) : t.textureBase = s.textureBase := by
  obtain ⟨-, texptr, -⟩ := ready.frame
  rw [State.textureBase, State.textureBase, ready.x_eq (r := .btype) (by decide), State.texptrAt,
    State.texptrAt, texptr]

/-- With `TROWR` computed for a row, the texel to fetch is that row's. -/
theorem SliceReady.wallTexel_eq (ready : SliceReady s t) {row : Int}
    (trowr : t.x .trowr = s.texRow row) : t.wallTexel = s.hitTexel row := by
  obtain ⟨-, -, -, mem, -⟩ := ready.frame
  rw [State.wallTexel, ready.textureBase_eq, ready.cfg_eq, ready.x_eq (r := .sample) (by decide),
    trowr, State.texelAt, mem]
  rfl

/-- A visible row shows a row of the texture (43_projector.md R166). -/
theorem State.texRow_range (s : State) (legal : s.cfg.Legal) {row : Int} (first : s.firstRow ≤ row)
    (last : row < s.endRow) : 0 ≤ s.texRow row ∧ s.texRow row < s.cfg.texSize := by
  unfold State.firstRow at first
  unfold State.endRow at last
  obtain ⟨row0, -, row1⟩ := textureRow_range legal (height := s.hitHeight)
    (off := row - s.hitTop) (by omega) (by omega)
  exact ⟨row0, row1⟩

/-- `TROW` of a visible row inside `DRAW` (43_projector.md R165, R166). -/
theorem SliceReady.trow (ready : SliceReady s t) (legal : s.cfg.Legal) {row : Int}
    (first : s.firstRow ≤ row) (last : row < s.endRow) :
    ∃ u, doTrow row t = .done u ∧ u.x .trowr = s.texRow row ∧ ChangesOnly [.trowr] t u ∧
      SliceReady s u := by
  obtain ⟨-, -, -, ytop, -⟩ := ready.projects
  unfold State.firstRow at first
  unfold State.endRow at last
  obtain ⟨u, done, trowr, frame⟩ := doTrow_textureRow (ready.cfg_eq ▸ legal : t.cfg.Legal)
    (height := s.hitHeight) (row := row) (by rw [ready.step, ready.cfg_eq]; rfl) (by omega)
    (by omega)
  rw [ytop, ready.cfg_eq] at trowr
  exact ⟨u, done, trowr, frame, ready.of_rows (frame.andDraws.mono (by decide))⟩

/-! ## One row of the textured mode -/

/-- The texel of an answered row of the hit. -/
def State.hitBit (s : State) (row : Int) : Bool := (s.hitTexel row).getD false

theorem State.hitTexel_eq_some {row : Int} (answered : (s.hitTexel row).isSome) :
    s.hitTexel row = some (s.hitBit row) := by
  obtain ⟨b, texel⟩ := Option.isSome_iff_exists.1 answered
  rw [State.hitBit, texel, Option.getD_some]

/-- What `WTEXEL` does in a visible row of a populated texture whose sample column is inside
(45_texel.md R199). -/
theorem SliceReady.wtexel (ready : SliceReady s t) (legal : s.cfg.Legal) (populated : s.HasTexture)
    (column : s.x .sample < s.cfg.texSize) {row : Int} (first : s.firstRow ≤ row)
    (last : row < s.endRow) (trowr : t.x .trowr = s.texRow row) :
    doWtexel t = match s.hitTexel row with
      | some b => .done (t.set .txbit (bit01 b))
      | none => t.raise .memFault
          ((s.textureBase + (s.texRow row * s.cfg.texSize + s.x .sample) / 8) % 2 ^ 32) := by
  obtain ⟨-, inside⟩ := s.texRow_range legal first last
  have sample := ready.x_eq (r := .sample) (by decide)
  rw [doWtexel_of_inside (ready.cfg_eq ▸ legal) (ready.hasTexture_iff.2 populated)
    (by rw [sample, ready.cfg_eq]; exact column) (by rw [trowr, ready.cfg_eq]; exact inside),
    ready.wallTexel_eq trowr, ready.textureBase_eq, ready.cfg_eq, sample, trowr]

/-- `TXBIT` holds a texel whole. -/
theorem wrap_bit01 (b : Bool) : Reg.txbit.wrap (bit01 b) = bit01 b := by cases b <;> decide

/-- The two pixels of a screen row (44_render.md R184, R185). -/
theorem State.draw_texturedPair (s : State) (row : Int) :
    (s.texturedPair row).draw = s.draw ++ [.pixel (s.x .col0) row (s.bit .txbit),
      .pixel (s.x .col0 + 1) row (s.bit .txbit)] := by
  simp [State.texturedPair, State.bit]

/-- A row whose texel is answered draws its two pixels, and the loop goes on (44_render.md R184). -/
theorem SliceReady.row_answered (ready : SliceReady s t) (legal : s.cfg.Legal)
    (populated : s.HasTexture) (column : s.x .sample < s.cfg.texSize) {row : Int}
    (first : s.firstRow ≤ row) (last : row < s.endRow) (answered : (s.hitTexel row).isSome)
    (m : Nat) :
    ∃ u, texturedRows (m + 1) row t = texturedRows m (row + 1) u ∧
      u.draw = t.draw ++ [.pixel (2 * s.x .ray) row (s.hitBit row),
        .pixel (2 * s.x .ray + 1) row (s.hitBit row)] ∧
      u.x .trowr = s.texRow row ∧ u.x .txbit = bit01 (s.hitBit row) ∧
      ChangesOnlyAndDraws [.trowr, .txbit] t u := by
  obtain ⟨v, rowed, trowr, frameV, readyV⟩ := ready.trow legal first last
  have fetched := readyV.wtexel legal populated column first last trowr
  rw [State.hitTexel_eq_some answered] at fetched
  have txbit : (v.set .txbit (bit01 (s.hitBit row))).x .txbit = bit01 (s.hitBit row) :=
    (v.x_set_same _ _).trans (wrap_bit01 _)
  have colour : (v.set .txbit (bit01 (s.hitBit row))).bit .txbit = s.hitBit row := by
    rw [State.bit, txbit]; cases s.hitBit row <;> decide
  obtain ⟨-, -, col0, -⟩ := readyV.projects
  refine ⟨(v.set .txbit (bit01 (s.hitBit row))).texturedPair row, ?_, ?_, ?_, ?_, ?_⟩
  · rw [texturedRows, rowed, Flow.andThen_done, fetched, Flow.andThen_done]
  · rw [State.draw_texturedPair, colour, State.x_set_ne _ _ (by decide), col0, State.draw_set,
      frameV.draw_eq]
  · simpa [State.texturedPair] using trowr
  · exact txbit
  · exact ((((frameV.mono (by decide)).set (by decide) _).andDraws).emitDraw _).emitDraw _

/-- A row whose `WTEXEL` raises draws nothing and ends the loop: `TROWR` holds its texture row, and
the fault is recorded (60_exceptions.md R226, R232). -/
theorem SliceReady.row_raises (ready : SliceReady s t) (legal : s.cfg.Legal) {row : Int}
    (first : s.firstRow ≤ row) (last : row < s.endRow) (clear : s.x .status = 0) {c : FaultCause}
    {info : Int}
    (raises : ∀ u, SliceReady s u → u.x .trowr = s.texRow row → doWtexel u = u.raise c info)
    (m : Nat) :
    ∃ w, (texturedRows (m + 1) row t).state = w ∧ w.x .trowr = s.texRow row ∧ w.draw = t.draw ∧
      w.x .status = 1 ∧ w.x .fcause = c.code ∧ w.x .finfo = info % 2 ^ 32 ∧
      ChangesOnly [.trowr, .status, .fcause, .finfo] t w := by
  obtain ⟨u, rowed, trowr, frameU, readyU⟩ := ready.trow legal first last
  obtain ⟨records, -, frameW⟩ := u.recordFault_records c info
  obtain ⟨status, fcause, finfo⟩ := records ((readyU.x_eq (by decide)).trans clear)
  have frame : ChangesOnly [.trowr, .status, .fcause, .finfo] t (u.recordFault c info) :=
    (frameU.mono (by decide)).trans (frameW.mono (by decide))
  refine ⟨u.recordFault c info, ?_, (frameW.x_eq (by decide)).trans trowr, frame.draw_eq, status,
    fcause, finfo, frame⟩
  rw [texturedRows, rowed, Flow.andThen_done, raises u readyU trowr, State.raise_andThen,
    State.raise_state]

/-! ## The run of rows -/

/-- From `t` to `u` the `n` rows from `first` are drawn: two pixels each, and `TROWR`, `TXBIT` hold
those of the last of them, or what they held when there is none (44_render.md R184). -/
structure RowsDrawn (s : State) (first : Int) (n : Nat) (t u : State) : Prop where
  pixels : u.draw = t.draw ++ s.hitPixels s.hitBit first n
  last : 0 < n → u.x .trowr = s.texRow (first + n - 1) ∧
    u.x .txbit = bit01 (s.hitBit (first + n - 1))
  empty : n = 0 → u.x .trowr = t.x .trowr ∧ u.x .txbit = t.x .txbit
  frame : ChangesOnlyAndDraws [.trowr, .txbit] t u

theorem State.hitPixels_succ (s : State) (bit : Int → Bool) (first : Int) (n : Nat) :
    s.hitPixels bit first (n + 1) = s.hitPixels bit first n ++
      [.pixel (2 * s.x .ray) (first + n) (bit (first + n)),
       .pixel (2 * s.x .ray + 1) (first + n) (bit (first + n))] := by
  simp [State.hitPixels, List.range_succ]

/-- The row loop draws its rows as long as their texels are answered, by induction on their number:
the last of them is drawn from the state the ones before it leave (44_render.md R184). -/
theorem SliceReady.rows_answered (ready : SliceReady s t) (legal : s.cfg.Legal)
    (populated : s.HasTexture) (column : s.x .sample < s.cfg.texSize) (n m : Nat)
    (visible : s.firstRow + n ≤ s.endRow)
    (answered : ∀ row, s.firstRow ≤ row → row < s.firstRow + n → (s.hitTexel row).isSome) :
    ∃ u, texturedRows (n + m) s.firstRow t = texturedRows m (s.firstRow + n) u ∧
      RowsDrawn s s.firstRow n t u := by
  induction n generalizing m with
  | zero =>
    refine ⟨t, by simp, ?_, fun drew => absurd drew (Nat.lt_irrefl 0), fun _ => ⟨rfl, rfl⟩,
      .refl _ t⟩
    simp [State.hitPixels]
  | succ n ih =>
    push_cast at visible answered
    obtain ⟨v, before, drawn⟩ := ih (m + 1) (by omega) fun row low high =>
      answered row low (by omega)
    obtain ⟨u, row, draw, trowr, txbit, frame⟩ := (ready.of_rows drawn.frame).row_answered legal
      populated column (row := s.firstRow + n) (by omega) (by omega)
      (answered _ (by omega) (by omega)) m
    have lastRow : s.firstRow + (n + 1 : Nat) - 1 = s.firstRow + n := by push_cast; ring
    refine ⟨u, ?_, ?_, fun _ => ?_, fun zero => absurd zero n.succ_ne_zero,
      drawn.frame.trans frame⟩
    · rw [Nat.add_right_comm, Nat.add_assoc, before, row]
      push_cast
      rw [Int.add_assoc]
    · rw [draw, drawn.pixels, State.hitPixels_succ, List.append_assoc]
    · rw [lastRow]
      exact ⟨trowr, txbit⟩

end

/-- The rows of a slice that are on the screen are none or a range (43_projector.md R163). -/
theorem State.firstRow_le_endRow {s : State} (near : s.rayOffset ≤ 90) : s.firstRow ≤ s.endRow := by
  obtain ⟨dist0, -⟩ := s.x_range_unsigned (r := .dist) rfl
  obtain ⟨corr0, -⟩ := correctedLength_range dist0 (abs_nonneg _ : 0 ≤ s.rayOffset) near
  obtain ⟨height0, -⟩ := sliceHeight_range (c := s.cfg) corr0
  change 0 ≤ s.hitHeight at height0
  unfold State.firstRow State.endRow State.hitTop
  omega

/-! ## `DRAW` in the solid and in the textured mode -/

/-- Settles O51: the projection, then two events. -/
theorem drawEmitsTwoLinesInSolidMode : Obligations.DrawEmitsTwoLinesInSolidMode := by
  unfold Obligations.DrawEmitsTwoLinesInSolidMode
  intro s legal mode hit near
  obtain ⟨p, projects, frame, draw⟩ := doDraw_projects legal (.inl mode) hit near
  rw [if_pos mode] at draw
  obtain ⟨-, height, col0, -, y0, -⟩ := id projects
  refine ⟨p.solidSlice, congrArg Flow.outcome draw, projects, ?_,
    (frame.andDraws.emitDraw _).emitDraw _⟩
  simp [State.solidSlice, height, col0, y0, frame.draw_eq]

/-- Settles O52: every visible row is answered, so the loop draws them all. -/
theorem drawEmitsEveryVisibleRowInTexturedMode :
    Obligations.DrawEmitsEveryVisibleRowInTexturedMode := by
  unfold Obligations.DrawEmitsEveryVisibleRowInTexturedMode
  intro s textured populated column answered
  obtain ⟨p, ready, frame, draw⟩ := doDraw_textured textured
  obtain ⟨legal, -, -, near⟩ := textured
  have ordered := State.firstRow_le_endRow near
  have count : s.firstRow + (s.endRow - s.firstRow).toNat = s.endRow := by omega
  obtain ⟨t, rows, drawn⟩ := ready.rows_answered legal populated column
    (s.endRow - s.firstRow).toNat 0 count.le (count.symm ▸ answered)
  rw [Nat.add_zero, texturedRows, ← draw] at rows
  have readyT := ready.of_rows drawn.frame
  have held := drawn.last
  rw [count] at held
  have events := drawn.pixels
  rw [frame.draw_eq] at events
  refine ⟨t, s.hitBit, congrArg Flow.outcome rows, readyT.projects, readyT.step, ?_, events,
    fun drew => held (by omega), fun empty => ?_, readyT.frame⟩
  · intro row first last
    obtain ⟨row0, row1⟩ := s.texRow_range legal first last
    exact ⟨row0, row1, State.hitTexel_eq_some (answered row first last)⟩
  · obtain ⟨trowr, txbit⟩ := drawn.empty (by omega)
    exact ⟨trowr.trans (frame.x_eq (by decide)), txbit.trans (frame.x_eq (by decide))⟩

/-- Settles O53: the rows before the first unanswered one are drawn, and that row ends the loop with
`MemFault`. -/
theorem drawStopsAtFirstUnansweredTexel : Obligations.DrawStopsAtFirstUnansweredTexel := by
  unfold Obligations.DrawStopsAtFirstUnansweredTexel
  intro s last textured populated column clear first below answered unanswered base
  obtain ⟨p, ready, frame, draw⟩ := doDraw_textured textured
  obtain ⟨legal, -⟩ := textured
  obtain ⟨m, total⟩ : ∃ m, (s.endRow - s.firstRow).toNat = (last - s.firstRow).toNat + (m + 1) :=
    ⟨(s.endRow - last).toNat - 1, by omega⟩
  have count : s.firstRow + (last - s.firstRow).toNat = last := by omega
  obtain ⟨u, rows, drawn⟩ := ready.rows_answered legal populated column
    (last - s.firstRow).toNat (m + 1) (count.trans_le below.le) (count.symm ▸ answered)
  have readyU := ready.of_rows drawn.frame
  rw [← total, ← draw, count] at rows
  obtain ⟨t, ends, trowr, same, status, fcause, finfo, frameT⟩ :=
    readyU.row_raises legal first below clear (fun v readyV trowr => by
      rw [readyV.wtexel legal populated column first below trowr, unanswered]) m
  have held := drawn.last
  rw [count] at held
  have events := same.trans drawn.pixels
  rw [frame.draw_eq] at events
  have txbit : t.x .txbit = u.x .txbit := frameT.x_eq (by decide)
  rw [Int.emod_emod] at finfo
  refine ⟨t, s.hitBit, (congrArg Flow.outcome rows).trans (congrArg Host.Outcome.next ends),
    readyU.projects.of_keepsRegs frameT.keepsRegs (by decide),
    (frameT.x_eq (by decide)).trans readyU.step, trowr,
    fun row low high => State.hitTexel_eq_some (answered row low high), events, status, fcause,
    finfo, fun drew => ?_, fun empty => ?_,
    (readyU.frame.mono (by decide)).trans (frameT.andDraws.mono (by decide))⟩
  · obtain ⟨-, bit⟩ := held (by omega)
    exact txbit.trans bit
  · obtain ⟨-, bit⟩ := drawn.empty (by omega)
    exact txbit.trans (bit.trans (frame.x_eq (by decide)))

/-! ## `DRAW` in the textured mode without a texel to sample -/

/-- `DRAW` in the textured mode when `WTEXEL` raises in the first visible row: the projection and
the step stand, and the fault is recorded if there is such a row (60_exceptions.md R232). -/
theorem draw_of_firstRow_raises {s : State} (textured : s.DrawsTextured) (clear : s.x .status = 0)
    {c : FaultCause} {info : Int}
    (fits : s.firstRow < s.endRow → 0 ≤ info ∧ info < 2 ^ 32)
    (raises : ∀ u, SliceReady s u → u.x .trowr = s.texRow s.firstRow →
      doWtexel u = u.raise c info) :
    ∃ t, exec .draw s = .next t ∧ Projects s t ∧ t.x .tstep = s.hitStep ∧ t.draw = s.draw ∧
      (if 0 < s.endRow - s.firstRow then
        t.x .trowr = s.texRow s.firstRow ∧ t.x .status = 1 ∧ t.x .fcause = c.code ∧
          t.x .finfo = info
      else
        t.x .trowr = s.x .trowr ∧ t.x .status = 0 ∧ t.x .fcause = s.x .fcause ∧
          t.x .finfo = s.x .finfo) ∧
      ChangesOnlyAndDraws [.corr, .height, .col0, .ytop, .y0, .y1, .tstep, .trowr, .status, .fcause,
        .finfo] s t := by
  obtain ⟨p, ready, frame, draw⟩ := doDraw_textured textured
  obtain ⟨legal, -⟩ := textured
  split
  next visible =>
    obtain ⟨m, count⟩ : ∃ m, (s.endRow - s.firstRow).toNat = m + 1 :=
      ⟨(s.endRow - s.firstRow).toNat - 1, by omega⟩
    obtain ⟨t, ends, trowr, same, status, fcause, finfo, frameT⟩ :=
      ready.row_raises legal le_rfl (by omega) clear raises m
    obtain ⟨info0, info1⟩ := fits (by omega)
    rw [count] at draw
    rw [Int.emod_eq_of_lt info0 info1] at finfo
    exact ⟨t, (congrArg Flow.outcome draw).trans (congrArg Host.Outcome.next ends),
      ready.projects.of_keepsRegs frameT.keepsRegs (by decide),
      (frameT.x_eq (by decide)).trans ready.step, same.trans frame.draw_eq,
      ⟨trowr, status, fcause, finfo⟩,
      ((frame.mono (by decide)).trans (frameT.mono (by decide))).andDraws⟩
  next hidden =>
    rw [Int.toNat_eq_zero.2 (not_lt.1 hidden), texturedRows] at draw
    exact ⟨p, congrArg Flow.outcome draw, ready.projects, ready.step, frame.draw_eq,
      ⟨frame.x_eq (by decide), (frame.x_eq (by decide)).trans clear, frame.x_eq (by decide),
        frame.x_eq (by decide)⟩, (frame.mono (by decide)).andDraws⟩

/-- Settles O54: without a texture `WTEXEL` raises `TexIndex`. -/
theorem drawWithoutTextureRecordsTexIndex : Obligations.DrawWithoutTextureRecordsTexIndex := by
  unfold Obligations.DrawWithoutTextureRecordsTexIndex
  intro s textured clear missing
  obtain ⟨btype0, btype1⟩ := s.x_range_unsigned (r := .btype) rfl
  refine draw_of_firstRow_raises textured clear (c := .texIndex)
    (fun _ => ⟨btype0, btype1.trans (by decide)⟩) fun u ready _ => ?_
  rw [doWtexel_of_noTexture (mt ready.hasTexture_iff.1 missing), ready.x_eq (by decide)]

/-- Settles O57: with the sample column outside the texture `WTEXEL` raises `TexelRange`, whose
information fits in `FINFO`. -/
theorem drawWithSampleOutsideRecordsTexelRange :
    Obligations.DrawWithSampleOutsideRecordsTexelRange := by
  unfold Obligations.DrawWithSampleOutsideRecordsTexelRange
  intro s textured clear populated outside
  refine draw_of_firstRow_raises textured clear (c := .texelRange) (fun visible => ?_)
    fun u ready trowr => ?_
  · obtain ⟨legal, -⟩ := textured
    obtain ⟨row0, row1⟩ := s.texRow_range legal le_rfl visible
    obtain ⟨-, size1⟩ := texSize_range legal
    obtain ⟨sample0, sample1⟩ := s.x_range_unsigned (r := .sample) rfl
    simp only [Reg.width] at sample1
    omega
  · have sample := ready.x_eq (r := .sample) (by decide)
    rw [doWtexel_of_sampleOutside (ready.hasTexture_iff.2 populated)
      (by rw [sample, ready.cfg_eq]; exact outside), trowr, sample]

end Sys2Proof.Machine

/-! Slice output in the top-down modes and without a slice to draw (44_render.md), and `RAY` as its
two parts. -/

namespace Sys2Proof.Machine

/-! ## `DRAW` in the top-down modes and without a slice -/

/-- In a top-down mode `DRAW` is the debug line alone (44_render.md R184). -/
theorem doDraw_topDown {s : State} (mode : s.x .mode = 0 ∨ s.x .mode = 1) :
    doDraw s = .done s.debugLine := if_pos mode

/-- In a 3-D mode without a hit `DRAW` does nothing (44_render.md R184). -/
theorem doDraw_noHit {s : State} (mode : s.x .mode = 2 ∨ s.x .mode = 3) (noHit : s.x .hit = 0) :
    doDraw s = .done s := by
  rw [doDraw, if_neg (by omega), if_pos noHit]

/-- In a 3-D mode with a hit off the fish-eye table `DRAW` ends in its first part, `FISH`
(44_render.md R184, 43_projector.md R161). -/
theorem doDraw_outside {s : State} (mode : s.x .mode = 2 ∨ s.x .mode = 3) (hit : s.x .hit = 1)
    (far : s.rayOffset > 90) : doDraw s = s.raise .trigIndex s.rayOffset := by
  rw [doDraw, if_neg (by omega), if_neg (by omega), doFish_outside far, State.raise_andThen]

/-- The debug line changes no register (44_render.md R184). -/
theorem State.debugLine_frame (s : State) : ChangesOnlyAndDraws [] s s.debugLine :=
  (ChangesOnlyAndDraws.refl [] s).emitDraw _

/-- Settles O49: the debug line is all that `DRAW` does, whatever `HIT` holds. -/
theorem drawEmitsDebugLineInTopDownModes : Obligations.DrawEmitsDebugLineInTopDownModes := by
  unfold Obligations.DrawEmitsDebugLineInTopDownModes
  refine ⟨by decide, fun s mode => ?_⟩
  exact ⟨s.debugLine, congrArg Flow.outcome (doDraw_topDown mode), s.draw_emitDraw _,
    s.debugLine_frame⟩

/-- Settles O50: without a hit nothing is done, and off the table `FISH` raises before any write. -/
theorem drawWithoutHitDrawsNothing : Obligations.DrawWithoutHitDrawsNothing := by
  unfold Obligations.DrawWithoutHitDrawsNothing
  intro s mode
  refine ⟨fun noHit => congrArg Flow.outcome (doDraw_noHit mode noHit), fun hit far => ?_⟩
  exact ⟨_, congrArg Flow.outcome (doDraw_outside mode hit far), s.recordFault_records _ _⟩

/-! ## `RAY` -/

theorem exec_ray_eq (s : State) : exec .ray s = ((doCast s).andThen doDraw).outcome := rfl

/-- What a flow that completed leaves is inside its frame. -/
theorem Flow.Frame.changesOnly_of_done {rs : List Reg} {s t : State} {f : Flow}
    (frame : f.Frame rs s) (done : f = .done t) : ChangesOnly rs s t := by
  rw [done] at frame
  exact frame

/-- Settles O55: from a state without a fault `CAST` completes exactly when it leaves none recorded,
and on an answered map it does complete, with `MODE`, `PX`, `PY` and the draw port as before. -/
theorem rayIsCastThenDraw : Obligations.RayIsCastThenDraw := by
  unfold Obligations.RayIsCastThenDraw
  refine ⟨by decide, fun s c clear cast => ?_, fun s answered mode => ?_⟩
  · obtain rfl : (doCast s).state = c := Host.Outcome.next.inj cast
    rw [exec_ray_eq]
    rcases (doCast_frame s).done_or_ended clear (by decide) with ⟨done, c0⟩ | ⟨ended, c1⟩
    · rw [if_neg (by omega), done]
      rfl
    · rw [if_pos c1, ended]
      rfl
  · obtain ⟨c, done⟩ := doCast_completes answered
    have frame := (doCast_frame s).changesOnly_of_done done
    have mode' : c.x .mode = s.x .mode := frame.x_eq (by decide)
    have px : c.x .px = s.x .px := frame.x_eq (by decide)
    have py : c.x .py = s.x .py := frame.x_eq (by decide)
    have draw : doDraw c = .done c.debugLine := doDraw_topDown (by rwa [mode'])
    refine ⟨c.debugLine, ?_, ?_, frame.andDraws.trans (c.debugLine_frame.mono (by simp))⟩
    · rw [exec_ray_eq, done, Flow.andThen_done, draw]
      rfl
    · rw [State.debugLine, State.draw_emitDraw, frame.draw_eq, px, py]
      rfl

end Sys2Proof.Machine

/-! The two texel commands (45_texel.md): the information of a range fault, how a fetch ends, and the
conditions of each command in its order. -/

namespace Sys2Proof.Machine

/-! ## The information of a range fault -/

/-- Two registers packed into one word, the low one of at most 16 bits (45_texel.md R198, R199). -/
theorem State.packed_eq (s : State) {high low : Reg} (highUnsigned : high.signed = false)
    (lowUnsigned : low.signed = false) (narrow : low.width ≤ 16) :
    (((s.x high).toNat <<< 16 ||| (s.x low).toNat : Nat) : Int) = s.x high * 2 ^ 16 + s.x low := by
  obtain ⟨high0, -⟩ := s.x_range_unsigned highUnsigned
  obtain ⟨low0, low1⟩ := s.x_range_unsigned lowUnsigned
  have below : s.x low < 2 ^ 16 := low1.trans_le (pow_le_pow_right₀ (by decide) narrow)
  rw [shl16_or _ (by omega : (s.x low).toNat < 2 ^ 16)]
  push_cast [Int.toNat_of_nonneg high0, Int.toNat_of_nonneg low0]
  rfl

/-! ## The two ends of a fetch -/

/-- `FINFO` holds the information mod 2^32, so information given mod 2^32 records the same fault
(60_exceptions.md R226). -/
theorem RecordsFault.of_emod {c : FaultCause} {info : Int} {s t : State}
    (h : RecordsFault c (info % 2 ^ 32) s t) : RecordsFault c info s t := by
  obtain ⟨first, later, frame⟩ := h
  rw [Int.emod_emod] at first
  exact ⟨first, later, frame⟩

/-- A command that writes a texel leaves it in `TXBIT` and changes nothing else (45_texel.md R198,
R199). -/
theorem exec_of_answered {i : Instr} {s : State} {b : Bool}
    (meaning : exec i s = (Flow.done (s.set .txbit (bit01 b))).outcome) :
    ∃ t, exec i s = .next t ∧ t.x .txbit = (if b then 1 else 0) ∧ ChangesOnly [.txbit] s t :=
  ⟨_, meaning, (s.x_set_same _ _).trans (wrap_bit01 b), (ChangesOnly.refl _ s).set (by simp) _⟩

/-- A command that raises `MemFault` at an address of the memory port (45_texel.md R198, R199). -/
theorem exec_of_unanswered {i : Instr} {s : State} {addr : Int}
    (meaning : exec i s = (s.raise .memFault (addr % 2 ^ 32)).outcome) :
    Raises i s .memFault addr :=
  ⟨_, meaning, (s.recordFault_records _ _).of_emod⟩

/-! ## `TEXEL` -/

/-- `TEXEL` outside the bitmap (45_texel.md R198). -/
theorem doTexel_of_outside {s : State} (outside : s.x .txx ≥ s.x .txw ∨ s.x .txy ≥ s.x .txh) :
    doTexel s = s.raise .texelRange (s.x .txy * 2 ^ 16 + s.x .txx) := by
  rw [doTexel, if_pos outside, s.packed_eq rfl rfl (by decide)]

/-- `TEXEL` inside the bitmap (45_texel.md R196, R198). -/
theorem doTexel_of_inside {s : State} (inside : ¬ (s.x .txx ≥ s.x .txw ∨ s.x .txy ≥ s.x .txh)) :
    doTexel s = match s.texelAt (s.x .txbase) (s.x .txw) (s.x .txx) (s.x .txy) with
      | some b => .done (s.set .txbit (bit01 b))
      | none => s.raise .memFault
          ((s.x .txbase + (s.x .txy * s.x .txw + s.x .txx) / 8) % 2 ^ 32) := by
  obtain ⟨x0, -⟩ := s.x_range_unsigned (r := .txx) rfl
  obtain ⟨y0, -⟩ := s.x_range_unsigned (r := .txy) rfl
  obtain ⟨width0, -⟩ := s.x_range_unsigned (r := .txw) rfl
  have index0 : 0 ≤ s.x .txy * s.x .txw + s.x .txx := Int.add_nonneg (Int.mul_nonneg y0 width0) x0
  rw [doTexel, if_neg inside, State.getTexel_eq _ _ _ _ _ index0, ← portAddr_toNat]
  cases s.texelAt (s.x .txbase) (s.x .txw) (s.x .txx) (s.x .txy) <;> rfl

/-- Settles O47: outside the bitmap, and inside it by what the byte's address answers. -/
theorem texelDecodesOneBit : Obligations.TexelDecodesOneBit := by
  unfold Obligations.TexelDecodesOneBit
  refine ⟨by decide, fun s => ?_⟩
  split
  next outside =>
    exact ⟨_, congrArg Flow.outcome (doTexel_of_outside outside), s.recordFault_records _ _⟩
  next inside =>
    have fetched := doTexel_of_inside inside
    split
    next b answered =>
      rw [answered] at fetched
      exact exec_of_answered (congrArg Flow.outcome fetched)
    next unanswered =>
      rw [unanswered] at fetched
      exact exec_of_unanswered (congrArg Flow.outcome fetched)

/-! ## `WTEXEL` -/

/-- `WTEXEL` with the sample column or the texture row outside the texture (45_texel.md R199). -/
theorem doWtexel_of_outside {s : State} (populated : s.HasTexture)
    (outside : s.x .sample ≥ s.cfg.texSize ∨ s.x .trowr ≥ s.cfg.texSize) :
    doWtexel s = s.raise .texelRange (s.x .trowr * 2 ^ 16 + s.x .sample) := by
  rw [doWtexel, if_neg populated.not_texIndex, if_pos outside, s.packed_eq rfl rfl (by decide)]

/-- Settles O48: no texture, outside the texture, and inside it by what the byte's address answers. -/
theorem wtexelFetchesTheWallTexel : Obligations.WtexelFetchesTheWallTexel := by
  unfold Obligations.WtexelFetchesTheWallTexel
  refine ⟨by decide, fun s legal => ?_⟩
  split
  next missing =>
    exact ⟨_, congrArg Flow.outcome
      (doWtexel_of_noTexture fun populated => populated.not_texIndex missing),
      s.recordFault_records _ _⟩
  next present =>
    have populated : s.HasTexture := ⟨by omega, by omega⟩
    split
    next outside =>
      exact ⟨_, congrArg Flow.outcome (doWtexel_of_outside populated outside),
        s.recordFault_records _ _⟩
    next inside =>
      have fetched := doWtexel_of_inside legal populated (by omega) (by omega)
      intro base
      split
      next b answered =>
        rw [show s.wallTexel = some b from answered] at fetched
        exact exec_of_answered (congrArg Flow.outcome fetched)
      next unanswered =>
        rw [show s.wallTexel = none from unanswered] at fetched
        exact exec_of_unanswered (congrArg Flow.outcome fetched)

end Sys2Proof.Machine

/-! The system commands (46_system.md): the words the port refuses of them, what a host write stores,
what is sent to the host, and the loads of the active map and of the texture table. -/

namespace Sys2Proof.Machine

/-! ## The words refused -/

/-- A class of words that R89 refuses for reasons of one cause raises that cause. -/
theorem refuses_of_refusal {bad : Word → Prop} {c : FaultCause}
    (reason : ∀ w, bad w → ∃ e, refusal w = some e ∧ rejectCause e = c) : Refuses bad c := by
  intro s w rest given isBad accepted
  obtain ⟨e, refused, cause⟩ := reason w isBad
  rw [← cause]
  exact step_of_decode_error given (State.drops_eq_false accepted) (decode_of_refusal refused)

/-- A must-be-zero field that is not zero is an `IllegalCmd` for every opcode, assigned or not
(30_encoding.md R89 steps 2 and 3). -/
theorem refuses_mustBeZero (op : BitVec 8) :
    Refuses (fun w => opField w = op ∧ mustBeZeroClear w = false) .illegalCmd := by
  refine refuses_of_refusal fun w ⟨_, nonzero⟩ => ?_
  by_cases unassigned : opcodeAssigned (opField w) = false
  · exact ⟨_, if_pos unassigned, rfl⟩
  · exact ⟨_, (if_neg unassigned).trans (if_pos nonzero), rfl⟩

/-- A host write of no register or of an `RO` register is a `BadReg`: format R leaves no bit of a write
that must be zero (30_encoding.md R89 steps 4 and 5). -/
theorem refuses_write {op : BitVec 8} (write : op = 0x01 ∨ op = 0x02) :
    Refuses (fun w => opField w = op ∧ (namesRegister w = false ∨ namesReadOnly w = true))
      .badReg := by
  refine refuses_of_refusal fun w ⟨isOp, unwritable⟩ => ?_
  rw [← isOp] at write
  have field : mustBeZeroClear w = true := by
    rcases write with isWrl | isWrh
    · simp [mustBeZeroClear, isWrl]
    · simp [mustBeZeroClear, isWrh]
  rw [refusal_of_write write field]
  split
  next unnamed => exact ⟨_, rfl, rfl⟩
  next named => exact ⟨_, if_pos (unwritable.resolve_left named), rfl⟩

/-- A read of no register is a `BadReg` (30_encoding.md R89 step 4). -/
theorem refuses_read :
    Refuses (fun w => opField w = 0x03 ∧ mustBeZeroClear w = true ∧ namesRegister w = false)
      .badReg := by
  refine refuses_of_refusal fun w ⟨isRd, field, unnamed⟩ => ⟨.noSuchRegister, ?_, rfl⟩
  simp [refusal_of_read isRd, field, unnamed]

/-! ## The words of the commands -/

/-- The word of a command of format R: `base` is its opcode's part (30_encoding.md R85). -/
theorem encode_toNat_register {i : Instr} {r : Reg} {base : Nat} (a : i.aOperand = r.index)
    (high : i.opcode.toNat * 2 ^ 24 = base) :
    (encode i).toNat = base + r.index.toNat * 2 ^ 16 + i.immOperand.toNat := by
  rw [encode, commandWord_toNat, a, high]

/-- The word of a command of format S: `base` is its opcode's part (30_encoding.md R86). -/
theorem encode_toNat_slot {i : Instr} {slot : BitVec 8} {base : Nat} (a : i.aOperand = 0)
    (low : i.immOperand = slot.setWidth 16) (high : i.opcode.toNat * 2 ^ 24 = base) :
    (encode i).toNat = base + slot.toNat := by
  rw [encode_toNat_immediate a low high, BitVec.toNat_setWidth_of_le (by decide)]

/-! ## Host writes -/

/-- The stored bits after a write of a value that is not negative. -/
theorem State.stored_set_natCast (s : State) (r : Reg) (n : Nat) :
    (s.set r n).stored r = n % 2 ^ r.width := by
  exact_mod_cast s.stored_set r n

theorem State.stored_lt (s : State) (r : Reg) : s.stored r < 2 ^ r.width := by
  have size : (0 : Int) < 2 ^ r.width := by positivity
  have below : s.x r % 2 ^ r.width < ((2 ^ r.width : Nat) : Int) := by
    exact_mod_cast Int.emod_lt_of_pos _ size
  exact (Int.toNat_lt (Int.emod_nonneg _ size.ne')).2 below

/-- A register reads as its stored bits say, unsigned or as two's complement (10_state.md R22). -/
theorem State.x_eq_wrap_stored (s : State) (r : Reg) : s.x r = r.wrap (s.stored r) := by
  have nonneg : 0 ≤ s.x r % 2 ^ r.width := Int.emod_nonneg _ (by positivity)
  rw [State.stored, Int.toNat_of_nonneg nonneg, Reg.wrap_emod, s.wrap_x]

/-- A half-word above the lower half of the stored bits leaves the bits of a register that has no upper
half (46_system.md R207). -/
theorem State.upperHalf_of_narrow (s : State) {r : Reg} (narrow : r.width ≤ 16) (half : Nat) :
    (half * 2 ^ 16 + s.stored r % 2 ^ 16) % 2 ^ r.width = s.stored r := by
  have size : 2 ^ r.width ∣ 2 ^ 16 := Nat.pow_dvd_pow 2 narrow
  rw [Nat.add_mod, Nat.mod_eq_zero_of_dvd (size.mul_left half), Nat.zero_add, Nat.mod_mod,
    Nat.mod_mod_of_dvd _ size, Nat.mod_eq_of_lt (s.stored_lt r)]

/-- The value `WRH` writes: the immediate above the lower half of the stored bits (46_system.md
R207). -/
theorem upperHalf_eq (half stored : Nat) :
    half <<< 16 ||| stored &&& 0xFFFF = half * 2 ^ 16 + stored % 2 ^ 16 := by
  rw [show 0xFFFF = 2 ^ 16 - 1 from rfl, Nat.and_two_pow_sub_one_eq_mod]
  exact shl16_or half (Nat.mod_lt _ (by decide))

/-- A command that is a host write raises `BadReg` with the command word on an `RO` register. -/
theorem raises_of_hostWrite_readOnly {i : Instr} {s : State} {w : Word} {r : Reg} {v : Int}
    (meaning : exec i s = (s.hostWrite w r v).outcome) (readOnly : r.readOnly = true) :
    Raises i s .badReg w.toNat := by
  rw [s.hostWrite_readOnly w readOnly] at meaning
  exact ⟨_, meaning, s.recordFault_records _ _⟩

/-- A command that is a host write of a value that is not negative stores its bits mod 2^w in a
writable register, and changes nothing else. -/
theorem exec_of_hostWrite_writable {i : Instr} {s : State} {w : Word} {r : Reg} {n : Nat}
    (meaning : exec i s = (s.hostWrite w r n).outcome) (writable : r.readOnly = false) :
    ∃ t, exec i s = .next t ∧ t.stored r = n % 2 ^ r.width ∧ ChangesOnly [r] s t := by
  rw [s.hostWrite_writable w writable] at meaning
  exact ⟨_, meaning, s.stored_set_natCast r n, (ChangesOnly.refl _ s).set (by simp) _⟩

/-- Settles O18: the zero-extended immediate is a host write. -/
theorem wrlStoresZeroExtendedImmediate : Obligations.WrlStoresZeroExtendedImmediate := by
  unfold Obligations.WrlStoresZeroExtendedImmediate
  refine ⟨refuses_write (.inl rfl), fun r imm s =>
    ⟨encode_toNat_register rfl (by simp [Instr.opcode]), ?_⟩⟩
  split
  next readOnly => exact raises_of_hostWrite_readOnly rfl readOnly
  next writable => exact exec_of_hostWrite_writable rfl (Bool.not_eq_true _ ▸ writable)

/-- Settles O19: the immediate above the old lower half is a host write, and the bits it leaves in a
register without an upper half are the old ones. -/
theorem wrhKeepsLowerHalf : Obligations.WrhKeepsLowerHalf := by
  unfold Obligations.WrhKeepsLowerHalf
  refine ⟨refuses_write (.inr rfl), fun r imm s =>
    ⟨encode_toNat_register rfl (by simp [Instr.opcode]), ?_⟩⟩
  split
  next readOnly => exact raises_of_hostWrite_readOnly rfl readOnly
  next writable =>
    obtain ⟨t, next, stored, frame⟩ :=
      exec_of_hostWrite_writable (i := .wrh r imm) (s := s) rfl (Bool.not_eq_true _ ▸ writable)
    rw [upperHalf_eq] at stored
    refine ⟨t, next, stored, fun narrow => ?_, frame⟩
    rw [t.x_eq_wrap_stored, stored, s.upperHalf_of_narrow narrow, ← s.x_eq_wrap_stored]

/-! ## The active map -/

/-- `LOADMAP` copies the base and the dimensions whole: each staging register is as wide as its map
register (46_system.md R209). -/
theorem exec_loadmap_copies {s t : State} (next : exec .loadmap s = .next t) :
    t.x .mapbase = s.x .lmbase ∧ t.x .mapw = s.x .lmw ∧ t.x .maph = s.x .lmh := by
  have base := s.wrap_x_of_fits (r := .lmbase) (r' := .mapbase) (.inl ⟨rfl, rfl⟩)
  have width := s.wrap_x_of_fits (r := .lmw) (r' := .mapw) (.inl ⟨rfl, rfl⟩)
  have height := s.wrap_x_of_fits (r := .lmh) (r' := .maph) (.inl ⟨rfl, rfl⟩)
  rw [← Host.Outcome.next.inj next]
  simp [base, width, height]

/-- Settles O21: with legal parameters the extents that `LOADMAP` leaves are the exact products of the
dimensions it copied. -/
theorem loadmapReplacesTheMap : Obligations.LoadmapReplacesTheMap := by
  unfold Obligations.LoadmapReplacesTheMap
  refine ⟨by decide, fun s legal => ?_⟩
  obtain ⟨t, next, frame, -, agree⟩ := exec_loadmap_spec s
  obtain ⟨base, mapw, maph⟩ := exec_loadmap_copies next
  obtain ⟨width, height⟩ := agree.extents_eq (frame.cfg_eq ▸ legal)
  rw [mapw, frame.cfg_eq] at width
  rw [maph, frame.cfg_eq] at height
  exact ⟨t, next, base, mapw, maph, width, height, frame⟩

/-! ## `NOP` and `SRST` -/

/-- Settles O17: the meaning is the identity, and a word of opcode 0 with any other bit set is
refused. -/
theorem nopTouchesNothing : Obligations.NopTouchesNothing := by
  unfold Obligations.NopTouchesNothing
  exact ⟨by decide, fun _ => rfl, refuses_mustBeZero _⟩

/-- Settles O24, by the register and table lemmas of the soft reset. -/
theorem srstClearsRegistersAndTable : Obligations.SrstClearsRegistersAndTable := by
  unfold Obligations.SrstClearsRegistersAndTable
  exact ⟨refuses_mustBeZero _, by decide, fun s => ⟨s.softReset, rfl, s.x_softReset,
    s.texptrAt_softReset, ⟨rfl, rfl⟩, s.byteAt_softReset, rfl, rfl⟩⟩

/-! ## The response port and the texture table -/

/-- A word sent to the host changes the response port alone (10_state.md R39). -/
theorem State.emitResp_frame (s : State) (v : Int) :
    KeepsRegs [] s (s.emitResp v) ∧ (s.emitResp v).texptr = s.texptr ∧
      (s.emitResp v).draw = s.draw ∧ KeepsMem s (s.emitResp v) ∧ KeepsHost s (s.emitResp v) :=
  ⟨fun r _ => s.x_emitResp v r, rfl, rfl, s.byteAt_emitResp v, rfl, rfl⟩

/-- A word holds a value mod 2^32 (30_encoding.md R94). -/
theorem word_ofInt_toNat (v : Int) : ((BitVec.ofInt 32 v).toNat : Int) = v % 2 ^ 32 := by
  rw [BitVec.toNat_ofInt]
  exact Int.toNat_of_nonneg (Int.emod_nonneg _ (by decide))

/-- Settles O20: the word sent is the register's value mod 2^32. -/
theorem rdAppendsRegisterValue : Obligations.RdAppendsRegisterValue := by
  unfold Obligations.RdAppendsRegisterValue
  exact ⟨refuses_mustBeZero _, refuses_read, fun r s =>
    ⟨encode_toNat_register rfl (by simp [Instr.opcode]), _, _, rfl, s.resp_emitResp _,
      word_ofInt_toNat _, s.emitResp_frame _⟩⟩

/-- Settles O22: `TDATA` fits the word of a table entry, and the table lemmas give both kinds of
slot. -/
theorem settexWritesOneSlot : Obligations.SettexWritesOneSlot := by
  unfold Obligations.SettexWritesOneSlot
  refine ⟨refuses_mustBeZero _, fun slot s =>
    ⟨encode_toNat_slot rfl rfl (by simp [Instr.opcode]), _, rfl, ?_,
      fun j other => s.texptrAt_setTexptr_ne _ other, fun r _ => s.x_setTexptr slot _ r,
      ⟨rfl, rfl⟩, s.byteAt_setTexptr slot _, rfl, rfl⟩⟩
  obtain ⟨nonneg, below⟩ := s.x_range_unsigned (r := .tdata) rfl
  rw [s.texptrAt_setTexptr_same, word_ofInt_toNat]
  exact Int.emod_eq_of_lt nonneg below

/-- Settles O23: a pointer is a word, which the port carries whole. -/
theorem gettexAppendsPointer : Obligations.GettexAppendsPointer := by
  unfold Obligations.GettexAppendsPointer
  refine ⟨refuses_mustBeZero _, fun slot s =>
    ⟨encode_toNat_slot rfl rfl (by simp [Instr.opcode]), _, rfl, ?_, s.emitResp_frame _⟩⟩
  rw [s.resp_emitResp, BitVec.ofInt_natCast, BitVec.ofNat_toNat, BitVec.setWidth_eq]

end Sys2Proof.Machine

/-! Faults and resets (60_exceptions.md, 70_reset_and_hazards.md): the block without an action, the
words it drops while a fault is recorded, the hardware reset, and that nothing but a reset clears the
fault. -/

namespace Sys2Proof.Machine

/-! ## Waiting and dropped words -/

/-- Settles O8: with no action to take the port settles in the state it is in. -/
theorem blockWaitsWithoutCommand : Obligations.BlockWaitsWithoutCommand := by
  unfold Obligations.BlockWaitsWithoutCommand
  exact fun _ idle => step_idle idle

/-- Settles O6: the port drops such a word before it looks at the rest of it. -/
theorem faultStateDropsCommands : Obligations.FaultStateDropsCommands := by
  unfold Obligations.FaultStateDropsCommands
  intro s w rest given faulted noRd noGettex noSrst
  exact step_of_drops given ((s.drops_iff w).2 ⟨faulted, noRd, noGettex, noSrst⟩)

/-! ## The resets as the host's action -/

@[simp] theorem State.texptrAt_hardReset (s : State) (i : BitVec 8) : s.hardReset.texptrAt i = 0 :=
  s.texptrAt_softReset i

/-- Settles O10, by the lemmas of the hardware reset, one per part of the state. -/
theorem hardwareResetFromAnyState : Obligations.HardwareResetFromAnyState := by
  unfold Obligations.HardwareResetFromAnyState
  intro s rest given
  exact ⟨_, step_hardReset given, State.x_hardReset _, State.texptrAt_hardReset _,
    State.resp_hardReset _, State.draw_hardReset _, State.byteAt_hardReset { s with host := rest },
    State.cfg_hardReset _, State.host_hardReset _⟩

/-- The port takes the word of `SRST` in every state, faulted or not (60_exceptions.md R233). -/
theorem step_srst {s : State} {rest : List HostInput}
    (given : s.host = .command 0x07000000 :: rest) :
    step s = .next (State.softReset { s with host := rest }) := by
  have taken : s.drops 0x07000000 = false := State.drops_eq_false (.inr (.inr (.inr (by decide))))
  have decoded : decode 0x07000000 = .ok .srst := decode_of_encode_eq (by decide) rfl
  exact step_of_decode_ok given taken decoded

/-- The host's next action is a reset: the word of `SRST` or the hardware reset (60_exceptions.md
R237). -/
def State.ResetsNext (s : State) : Prop :=
  s.host.head? = some (.command 0x07000000) ∨ s.host.head? = some .hardReset

theorem step_of_resetsNext {s : State} (reset : s.ResetsNext) :
    ∃ t, step s = .next t ∧ ∀ r, t.x r = 0 := by
  rcases reset with srst | hardReset
  · obtain ⟨rest, given⟩ := List.head?_eq_some_iff.1 srst
    exact ⟨_, step_srst given, State.x_softReset _⟩
  · obtain ⟨rest, given⟩ := List.head?_eq_some_iff.1 hardReset
    exact ⟨_, step_hardReset given, State.x_hardReset _⟩

/-! ## The first fault stands until a reset -/

/-- From `s` to `t` the fault record is the same (10_state.md R36). -/
def KeepsFaultRecord (s t : State) : Prop := ∀ r ∈ faultRegs, t.x r = s.x r

/-- A fault raised while one is recorded leaves the record of the first (60_exceptions.md R226). -/
theorem RecordsFault.keepsFirst {c : FaultCause} {info : Int} {s t : State}
    (raised : RecordsFault c info s t) (faulted : s.x .status ≠ 0) : KeepsFaultRecord s t := by
  obtain ⟨-, later, -⟩ := raised
  obtain ⟨status, fcause, finfo⟩ := later faulted
  simp [KeepsFaultRecord, faultRegs, status, fcause, finfo]

/-- A flow writes no register of the fault record itself; what it raises comes second. -/
theorem Flow.DrawFrame.keepsFirstFault {s : State} {f : Flow} (frame : f.DrawFrame writableRegs s)
    (faulted : s.x .status ≠ 0) : KeepsFaultRecord s f.state := by
  cases f with
  | done t =>
    obtain ⟨⟨keepsRegs, -⟩, -⟩ := frame
    exact fun r hr => keepsRegs r (faultRegs_not_writable r hr)
  | ended t =>
    obtain ⟨u, c, info, ⟨⟨keepsRegs, -⟩, -⟩, raised⟩ := frame
    have before : KeepsFaultRecord s u := fun r hr => keepsRegs r (faultRegs_not_writable r hr)
    have stillFaulted : u.x .status ≠ 0 := by rwa [before .status (by decide)]
    exact fun r hr => (raised.keepsFirst stillFaulted r hr).trans (before r hr)

/-- Every command but `SRST` keeps the record of the first fault, even performed from a faulted
state. -/
theorem exec_keepsFirstFault {i : Instr} {s t : State} (faulted : s.x .status ≠ 0)
    (next : exec i s = .next t) (reset : i ≠ .srst) : KeepsFaultRecord s t := by
  rcases exec_cases i s with ⟨f, flow, frame, -⟩ | ⟨v, sent⟩ | rfl | ⟨slot, rfl⟩ | resets
  · cases flow.symm.trans next
    exact frame.keepsFirstFault faulted
  · cases sent.symm.trans next
    exact fun r _ => s.x_emitResp v r
  · obtain ⟨u, loaded, ⟨keepsRegs, -⟩, -⟩ := exec_loadmap_spec s
    cases loaded.symm.trans next
    exact fun r hr => keepsRegs r (faultRegs_not_mapRegs r hr)
  · cases next
    exact fun r _ => s.x_setTexptr slot _ r
  · exact absurd resets reset

/-- So does every step that is not a reset, by the host's next action. -/
theorem step_keepsFirstFault {s t : State} (faulted : s.x .status ≠ 0) (next : step s = .next t)
    (noReset : ¬ s.ResetsNext) : KeepsFaultRecord s t := by
  cases h : s.host with
  | nil =>
    cases (step_idle h).symm.trans next
    exact fun _ _ => rfl
  | cons action rest =>
    cases action with
    | command w =>
      rcases step_command_cases h next with rfl | ⟨c, rfl⟩ | ⟨i, rfl, performed⟩
      · exact fun _ _ => rfl
      · exact (State.recordFault_records { s with host := rest } c _).keepsFirst faulted
      · have notSrst : i ≠ .srst := by
          rintro rfl
          exact noReset (.inl (congrArg List.head? h))
        exact exec_keepsFirstFault (s := { s with host := rest }) faulted performed notSrst
    | store a b =>
      cases (step_store h).symm.trans next
      exact fun r _ => State.x_hostStore _ a b r
    | hardReset => exact absurd (.inr (congrArg List.head? h)) noReset

/-- Settles O15: a step that is not a reset keeps the fault record, `F` with it, and a reset leaves
every register 0. -/
theorem onlyResetsClearTheFaultBit : Obligations.OnlyResetsClearTheFaultBit := by
  unfold Obligations.OnlyResetsClearTheFaultBit
  refine ⟨fun s t faulted next cleared => ?_, fun s reset => step_of_resetsNext reset⟩
  by_cases reset : s.ResetsNext
  · obtain ⟨u, resets, zero⟩ := step_of_resetsNext reset
    cases resets.symm.trans next
    exact ⟨reset, zero⟩
  · have kept := step_keepsFirstFault (by omega) next reset .status (by decide)
    omega

end Sys2Proof.Machine
